-- ==== Sys2Proof/Word.lean ====
section
/-! DEFINITION. The word types of the block (00_scope.md R8, R10), the addressing modes and the operand
shapes an instruction carries (30_encoding.md R85, R89-R100). -/

namespace Sys2Proof

/-- `DATA_WIDTH`: a register or a memory cell (R8). -/
abbrev Byte := BitVec 8

/-- `ADDR_WIDTH`: a CPU address (R8). -/
abbrev Addr := BitVec 16

/-- A PPU address: the 14-bit pointer of 10_state.md R37. -/
abbrev VAddr := BitVec 14

/-- The operand forms: the eleven mode tags of R89-R100, with the Relative and Accumulator forms of the
Implied tag under names of their own (90_conflicts.md C2). -/
inductive Mode where
  | implied | accumulator | relative | immediate
  | zeroPage | zeroPageX | zeroPageY
  | absolute | absoluteX | absoluteY
  | indirect | indirectX | indirectY
  deriving DecidableEq, Repr

/-- An operand as the instruction's bytes give it, before any register is added or any pointer read. -/
inductive Operand where
  | acc
  | imm (v : Byte)
  | zp (a : Byte)
  | zpX (a : Byte)
  | zpY (a : Byte)
  | abs (a : Addr)
  | absX (a : Addr)
  | absY (a : Addr)
  | ind (a : Addr)
  | indX (a : Byte)
  | indY (a : Byte)
  deriving DecidableEq, Repr

/-- The mode of an operand. -/
def Operand.mode : Operand → Mode
  | .acc => .accumulator
  | .imm _ => .immediate
  | .zp _ => .zeroPage
  | .zpX _ => .zeroPageX
  | .zpY _ => .zeroPageY
  | .abs _ => .absolute
  | .absX _ => .absoluteX
  | .absY _ => .absoluteY
  | .ind _ => .indirect
  | .indX _ => .indirectX
  | .indY _ => .indirectY

end Sys2Proof
end

