-- ==== Sys2Proof/Config.lean ====
section
/-! DEFINITION. What a launch fixes for a run (00_scope.md R8) and the free values: constants without a
body, so that no proof can depend on a value of theirs. -/

namespace Sys2Proof

/-- `MIRRORING` (10_state.md R30). -/
inductive Mirroring where
  | horizontal | vertical | fourScreen
  deriving DecidableEq, Repr

/-- `MODE`, the fault policy (20_memory.md R79, D33). -/
inductive FaultMode where
  | strict | permissive
  deriving DecidableEq, Repr

/-- `UNSTABLE_OPCODES` (30_encoding.md R105, D3). -/
inductive UnstableMode where
  | fatal | formula
  deriving DecidableEq, Repr

/-- The length of `PRG`: 16 KiB or 32 KiB (10_state.md R25, D34). -/
inductive PrgSize where
  | kib16 | kib32
  deriving DecidableEq, Repr

/-- The joypad button byte the host leaves at the `n`-th vblank entry: any 8-bit value (60_exceptions.md
R209, U10 `any value`). Free value, log entry 4. -/
opaque Config.hostButtons (n : Nat) : Byte

/-- `ANE_MAGIC`, OPEN with no default (47_undocumented.md R186, D3). Free value, log entry 3. -/
opaque Config.aneMagic : Byte

/-- `LXA_MAGIC`, OPEN with no default (47_undocumented.md R187, D3). Free value, log entry 3. -/
opaque Config.lxaMagic : Byte

end Sys2Proof
end

