-- ==== Sys2Proof/Syntax.lean ====
section
/-! DEFINITION. The instructions: a constructor per mnemonic and rule of files 41 to 47, carrying the operand
bytes. A row of spec/opcode_table.json is a constructor together with the mode of its operand, or, where the
table has several bytes of one mnemonic, mode and rule (ANC, the undocumented NOPs, JAM), with the opcode
byte `op` the constructor carries. -/

namespace Sys2Proof

/-- One instruction of the block. -/
inductive Instr where
  -- 41_load_store_transfer.md
  | lda (o : Operand)
  | ldx (o : Operand)
  | ldy (o : Operand)
  | sta (o : Operand)
  | stx (o : Operand)
  | sty (o : Operand)
  | tax
  | tay
  | txa
  | tya
  | tsx
  | txs
  -- 42_stack.md
  | pha
  | php
  | pla
  | plp
  -- 43_arithmetic_logic.md
  | adc (o : Operand)
  | sbc (o : Operand)
  | and (o : Operand)
  | ora (o : Operand)
  | eor (o : Operand)
  | bit (o : Operand)
  | cmp (o : Operand)
  | cpx (o : Operand)
  | cpy (o : Operand)
  | inc (o : Operand)
  | dec (o : Operand)
  | inx
  | iny
  | dex
  | dey
  -- 44_shift_rotate.md
  | asl (o : Operand)
  | lsr (o : Operand)
  | rol (o : Operand)
  | ror (o : Operand)
  -- 45_control_flow.md
  | jmp (o : Operand)
  | jsr (target : Addr)
  | rts
  | rti
  | brk
  | bpl (d : Byte)
  | bmi (d : Byte)
  | bvc (d : Byte)
  | bvs (d : Byte)
  | bcc (d : Byte)
  | bcs (d : Byte)
  | bne (d : Byte)
  | beq (d : Byte)
  -- 46_flags_nop.md
  | clc
  | sec
  | cli
  | sei
  | cld
  | sed
  | clv
  | nop
  -- 47_undocumented.md, sections 1 to 3
  | lax (o : Operand)
  | sax (o : Operand)
  | dcp (o : Operand)
  | isb (o : Operand)
  | slo (o : Operand)
  | rla (o : Operand)
  | sre (o : Operand)
  | rra (o : Operand)
  | sbcEB (v : Byte)
  | anc (op : Byte) (v : Byte)
  | alr (v : Byte)
  | arr (v : Byte)
  | sbx (v : Byte)
  | las (a : Addr)
  -- section 4: the undocumented NOPs (R181, R182, R183)
  | nopImplied (op : Byte)
  | nopImmediate (op : Byte) (v : Byte)
  | nopMemory (op : Byte) (o : Operand)
  -- sections 5 and 6
  | jam (op : Byte)
  | ane (v : Byte)
  | lxa (v : Byte)
  | sha (o : Operand)
  | shx (a : Addr)
  | shy (a : Addr)
  | tas (a : Addr)
  deriving DecidableEq, Repr

/-- The addressing form of an instruction. -/
def Instr.mode : Instr → Mode
  | .lda o | .ldx o | .ldy o | .sta o | .stx o | .sty o => o.mode
  | .adc o | .sbc o | .and o | .ora o | .eor o | .bit o | .cmp o | .cpx o | .cpy o => o.mode
  | .inc o | .dec o | .asl o | .lsr o | .rol o | .ror o | .jmp o => o.mode
  | .lax o | .sax o | .dcp o | .isb o | .slo o | .rla o | .sre o | .rra o => o.mode
  | .nopMemory _ o | .sha o => o.mode
  | .jsr _ => .absolute
  | .bpl _ | .bmi _ | .bvc _ | .bvs _ | .bcc _ | .bcs _ | .bne _ | .beq _ => .relative
  | .sbcEB _ | .anc _ _ | .alr _ | .arr _ | .sbx _ | .nopImmediate _ _ | .ane _ | .lxa _ => .immediate
  | .las _ | .shx _ | .tas _ => .absoluteY
  | .shy _ => .absoluteX
  | .tax | .tay | .txa | .tya | .tsx | .txs | .pha | .php | .pla | .plp => .implied
  | .inx | .iny | .dex | .dey | .rts | .rti | .brk => .implied
  | .clc | .sec | .cli | .sei | .cld | .sed | .clv | .nop | .nopImplied _ | .jam _ => .implied

end Sys2Proof
end

