-- ==== Sys2Proof/WellFormed.lean ====
section
/-! DEFINITION. Which instruction terms the opcode map has: the operand form must be one the instruction's
rule lists, and a carried opcode byte one of that rule's bytes (30_encoding.md R103, the Encodings lines of 41
to 47). -/

namespace Sys2Proof

/-- The read forms of LDA, ADC, SBC, AND, ORA, EOR, CMP. -/
def accumulatorReadModes : List Mode :=
  [.immediate, .zeroPage, .zeroPageX, .absolute, .absoluteX, .absoluteY, .indirectX, .indirectY]

/-- The seven forms of STA and of the undocumented read-modify-write compositions. -/
def memoryModes : List Mode :=
  [.zeroPage, .zeroPageX, .absolute, .absoluteX, .absoluteY, .indirectX, .indirectY]

/-- The memory forms of INC, DEC and the shifts. -/
def modifyModes : List Mode := [.zeroPage, .zeroPageX, .absolute, .absoluteX]

/-- The operand forms an instruction's rule gives it. -/
def Instr.modes : Instr → List Mode
  | .lda _ | .adc _ | .sbc _ | .and _ | .ora _ | .eor _ | .cmp _ => accumulatorReadModes
  | .sta _ | .dcp _ | .isb _ | .slo _ | .rla _ | .sre _ | .rra _ => memoryModes
  | .ldx _ => [.immediate, .zeroPage, .zeroPageY, .absolute, .absoluteY]
  | .ldy _ => [.immediate, .zeroPage, .zeroPageX, .absolute, .absoluteX]
  | .stx _ => [.zeroPage, .zeroPageY, .absolute]
  | .sty _ => [.zeroPage, .zeroPageX, .absolute]
  | .bit _ => [.zeroPage, .absolute]
  | .cpx _ | .cpy _ => [.immediate, .zeroPage, .absolute]
  | .inc _ | .dec _ => modifyModes
  | .asl _ | .lsr _ | .rol _ | .ror _ => .accumulator :: modifyModes
  | .jmp _ => [.absolute, .indirect]
  | .lax _ => [.zeroPage, .zeroPageY, .absolute, .absoluteY, .indirectX, .indirectY]
  | .sax _ => [.zeroPage, .zeroPageY, .absolute, .indirectX]
  | .nopMemory op _ =>
    if op ∈ [0x04, 0x44, 0x64] then [.zeroPage]
    else if op ∈ [0x14, 0x34, 0x54, 0x74, 0xD4, 0xF4] then [.zeroPageX]
    else if op = 0x0C then [.absolute]
    else if op ∈ [0x1C, 0x3C, 0x5C, 0x7C, 0xDC, 0xFC] then [.absoluteX]
    else []
  | .nopImplied op => if op ∈ [0x1A, 0x3A, 0x5A, 0x7A, 0xDA, 0xFA] then [.implied] else []
  | .nopImmediate op _ => if op ∈ [0x80, 0x82, 0x89, 0xC2, 0xE2] then [.immediate] else []
  | .anc op _ => if op ∈ [0x0B, 0x2B] then [.immediate] else []
  | .jam op =>
    if op ∈ [0x02, 0x12, 0x22, 0x32, 0x42, 0x52, 0x62, 0x72, 0x92, 0xB2, 0xD2, 0xF2] then [.implied] else []
  | .sha _ => [.absoluteY, .indirectY]
  | .jsr _ => [.absolute]
  | .bpl _ | .bmi _ | .bvc _ | .bvs _ | .bcc _ | .bcs _ | .bne _ | .beq _ => [.relative]
  | .sbcEB _ | .alr _ | .arr _ | .sbx _ | .ane _ | .lxa _ => [.immediate]
  | .las _ | .shx _ | .tas _ => [.absoluteY]
  | .shy _ => [.absoluteX]
  | .tax | .tay | .txa | .tya | .tsx | .txs | .pha | .php | .pla | .plp => [.implied]
  | .inx | .iny | .dex | .dey | .rts | .rti | .brk => [.implied]
  | .clc | .sec | .cli | .sei | .cld | .sed | .clv | .nop => [.implied]

/-- `i` is an instruction of the opcode map. -/
abbrev WellFormed (i : Instr) : Prop := i.mode ∈ i.modes

end Sys2Proof
end

