-- ==== Sys2Proof/Decode.lean ====
section
/-! DEFINITION. The decoder, total on any bytes (30_encoding.md R85-R87, R103), written from the opcode grid of
R103; and after it the encoder, written from the Encodings lines of the rules of files 41 to 47. The two
are separate transcriptions of the map. -/

namespace Sys2Proof

/-- `w16(h, l)` (R10). -/
def w16 (h l : Byte) : Addr := h ++ l

/-- `lo(w)` (R10). -/
def lo (w : Addr) : Byte := w.extractLsb' 0 8

/-- `hi(w)` (R10). -/
def hi (w : Addr) : Byte := w.extractLsb' 8 8

/-! ## Formats and lengths -/

/-- The instruction length a mode gives (R85). -/
def Mode.length : Mode → Nat
  | .implied | .accumulator => 1
  | .immediate | .zeroPage | .zeroPageX | .zeroPageY | .indirectX | .indirectY | .relative => 2
  | .absolute | .absoluteX | .absoluteY | .indirect => 3

/-- The length of an instruction (R85, R86). -/
def Instr.length (i : Instr) : Nat := i.mode.length

/-- The class of an opcode byte (R87). -/
inductive OpClass where
  | documented | undocumented | unstable | jam
  deriving DecidableEq, Repr

/-- The 12 JAM bytes (R105). -/
def jamBytes : List Byte :=
  [0x02, 0x12, 0x22, 0x32, 0x42, 0x52, 0x62, 0x72, 0x92, 0xB2, 0xD2, 0xF2]

/-- The 7 unstable bytes (R105). -/
def unstableBytes : List Byte := [0x8B, 0xAB, 0x93, 0x9B, 0x9C, 0x9E, 0x9F]

/-- The 86 stable undocumented bytes: the cells of R103 marked with a star. -/
def undocumentedBytes : List Byte :=
  [0x03, 0x04, 0x07, 0x0B, 0x0C, 0x0F, 0x13, 0x14, 0x17, 0x1A, 0x1B, 0x1C, 0x1F, 0x23, 0x27, 0x2B,
   0x2F, 0x33, 0x34, 0x37, 0x3A, 0x3B, 0x3C, 0x3F, 0x43, 0x44, 0x47, 0x4B, 0x4F, 0x53, 0x54, 0x57,
   0x5A, 0x5B, 0x5C, 0x5F, 0x63, 0x64, 0x67, 0x6B, 0x6F, 0x73, 0x74, 0x77, 0x7A, 0x7B, 0x7C, 0x7F,
   0x80, 0x82, 0x83, 0x87, 0x89, 0x8F, 0x97, 0xA3, 0xA7, 0xAF, 0xB3, 0xB7, 0xBB, 0xBF, 0xC2, 0xC3,
   0xC7, 0xCB, 0xCF, 0xD3, 0xD4, 0xD7, 0xDA, 0xDB, 0xDC, 0xDF, 0xE2, 0xE3, 0xE7, 0xEB, 0xEF, 0xF3,
   0xF4, 0xF7, 0xFA, 0xFB, 0xFC, 0xFF]

/-- The class of an opcode byte (R87, R103, R105). -/
def opClass (op : Byte) : OpClass :=
  if op ∈ jamBytes then .jam
  else if op ∈ unstableBytes then .unstable
  else if op ∈ undocumentedBytes then .undocumented
  else .documented

/-- Whether a fetched byte is executable: not a JAM byte, and not an unstable one while `UNSTABLE_OPCODES`
is Fatal (R105, 60_exceptions.md R194). -/
def executable (u : UnstableMode) (op : Byte) : Bool :=
  match opClass op with
  | .jam => false
  | .unstable => u == .formula
  | .undocumented | .documented => true

/-! ## The opcode grid of R103 -/

/-- A cell of the opcode grid: a format of R85 and how its operand bytes make the instruction. -/
inductive Entry where
  | f1 (i : Instr)
  | f2 (f : Byte → Instr)
  | f3 (f : Addr → Instr)

/-- A cell with mode `#`. -/
def Entry.imm (f : Operand → Instr) : Entry := .f2 fun b => f (.imm b)
/-- A cell with mode `zp`. -/
def Entry.zp (f : Operand → Instr) : Entry := .f2 fun b => f (.zp b)
/-- A cell with mode `zp,X`. -/
def Entry.zpX (f : Operand → Instr) : Entry := .f2 fun b => f (.zpX b)
/-- A cell with mode `zp,Y`. -/
def Entry.zpY (f : Operand → Instr) : Entry := .f2 fun b => f (.zpY b)
/-- A cell with mode `(zp,X)`. -/
def Entry.indX (f : Operand → Instr) : Entry := .f2 fun b => f (.indX b)
/-- A cell with mode `(zp),Y`. -/
def Entry.indY (f : Operand → Instr) : Entry := .f2 fun b => f (.indY b)
/-- A cell with mode `abs`. -/
def Entry.abs (f : Operand → Instr) : Entry := .f3 fun w => f (.abs w)
/-- A cell with mode `abs,X`. -/
def Entry.absX (f : Operand → Instr) : Entry := .f3 fun w => f (.absX w)
/-- A cell with mode `abs,Y`. -/
def Entry.absY (f : Operand → Instr) : Entry := .f3 fun w => f (.absY w)
/-- A cell with mode `(abs)`. -/
def Entry.ind (f : Operand → Instr) : Entry := .f3 fun w => f (.ind w)

/-- Opcodes `$0x`. -/
def opcodeRow0 : List Entry :=
  [.f1 .brk, .indX .ora, .f1 (.jam 0x02), .indX .slo,
   .zp (.nopMemory 0x04), .zp .ora, .zp .asl, .zp .slo,
   .f1 .php, .imm .ora, .f1 (.asl .acc), .f2 (.anc 0x0B),
   .abs (.nopMemory 0x0C), .abs .ora, .abs .asl, .abs .slo]

/-- Opcodes `$1x`. -/
def opcodeRow1 : List Entry :=
  [.f2 .bpl, .indY .ora, .f1 (.jam 0x12), .indY .slo,
   .zpX (.nopMemory 0x14), .zpX .ora, .zpX .asl, .zpX .slo,
   .f1 .clc, .absY .ora, .f1 (.nopImplied 0x1A), .absY .slo,
   .absX (.nopMemory 0x1C), .absX .ora, .absX .asl, .absX .slo]

/-- Opcodes `$2x`. -/
def opcodeRow2 : List Entry :=
  [.f3 .jsr, .indX .and, .f1 (.jam 0x22), .indX .rla,
   .zp .bit, .zp .and, .zp .rol, .zp .rla,
   .f1 .plp, .imm .and, .f1 (.rol .acc), .f2 (.anc 0x2B),
   .abs .bit, .abs .and, .abs .rol, .abs .rla]

/-- Opcodes `$3x`. -/
def opcodeRow3 : List Entry :=
  [.f2 .bmi, .indY .and, .f1 (.jam 0x32), .indY .rla,
   .zpX (.nopMemory 0x34), .zpX .and, .zpX .rol, .zpX .rla,
   .f1 .sec, .absY .and, .f1 (.nopImplied 0x3A), .absY .rla,
   .absX (.nopMemory 0x3C), .absX .and, .absX .rol, .absX .rla]

/-- Opcodes `$4x`. -/
def opcodeRow4 : List Entry :=
  [.f1 .rti, .indX .eor, .f1 (.jam 0x42), .indX .sre,
   .zp (.nopMemory 0x44), .zp .eor, .zp .lsr, .zp .sre,
   .f1 .pha, .imm .eor, .f1 (.lsr .acc), .f2 .alr,
   .abs .jmp, .abs .eor, .abs .lsr, .abs .sre]

/-- Opcodes `$5x`. -/
def opcodeRow5 : List Entry :=
  [.f2 .bvc, .indY .eor, .f1 (.jam 0x52), .indY .sre,
   .zpX (.nopMemory 0x54), .zpX .eor, .zpX .lsr, .zpX .sre,
   .f1 .cli, .absY .eor, .f1 (.nopImplied 0x5A), .absY .sre,
   .absX (.nopMemory 0x5C), .absX .eor, .absX .lsr, .absX .sre]

/-- Opcodes `$6x`. -/
def opcodeRow6 : List Entry :=
  [.f1 .rts, .indX .adc, .f1 (.jam 0x62), .indX .rra,
   .zp (.nopMemory 0x64), .zp .adc, .zp .ror, .zp .rra,
   .f1 .pla, .imm .adc, .f1 (.ror .acc), .f2 .arr,
   .ind .jmp, .abs .adc, .abs .ror, .abs .rra]

/-- Opcodes `$7x`. -/
def opcodeRow7 : List Entry :=
  [.f2 .bvs, .indY .adc, .f1 (.jam 0x72), .indY .rra,
   .zpX (.nopMemory 0x74), .zpX .adc, .zpX .ror, .zpX .rra,
   .f1 .sei, .absY .adc, .f1 (.nopImplied 0x7A), .absY .rra,
   .absX (.nopMemory 0x7C), .absX .adc, .absX .ror, .absX .rra]

/-- Opcodes `$8x`. -/
def opcodeRow8 : List Entry :=
  [.f2 (.nopImmediate 0x80), .indX .sta, .f2 (.nopImmediate 0x82), .indX .sax,
   .zp .sty, .zp .sta, .zp .stx, .zp .sax,
   .f1 .dey, .f2 (.nopImmediate 0x89), .f1 .txa, .f2 .ane,
   .abs .sty, .abs .sta, .abs .stx, .abs .sax]

/-- Opcodes `$9x`. -/
def opcodeRow9 : List Entry :=
  [.f2 .bcc, .indY .sta, .f1 (.jam 0x92), .indY .sha,
   .zpX .sty, .zpX .sta, .zpY .stx, .zpY .sax,
   .f1 .tya, .absY .sta, .f1 .txs, .f3 .tas,
   .f3 .shy, .absX .sta, .f3 .shx, .absY .sha]

/-- Opcodes `$Ax`. -/
def opcodeRowA : List Entry :=
  [.imm .ldy, .indX .lda, .imm .ldx, .indX .lax,
   .zp .ldy, .zp .lda, .zp .ldx, .zp .lax,
   .f1 .tay, .imm .lda, .f1 .tax, .f2 .lxa,
   .abs .ldy, .abs .lda, .abs .ldx, .abs .lax]

/-- Opcodes `$Bx`. -/
def opcodeRowB : List Entry :=
  [.f2 .bcs, .indY .lda, .f1 (.jam 0xB2), .indY .lax,
   .zpX .ldy, .zpX .lda, .zpY .ldx, .zpY .lax,
   .f1 .clv, .absY .lda, .f1 .tsx, .f3 .las,
   .absX .ldy, .absX .lda, .absY .ldx, .absY .lax]

/-- Opcodes `$Cx`. -/
def opcodeRowC : List Entry :=
  [.imm .cpy, .indX .cmp, .f2 (.nopImmediate 0xC2), .indX .dcp,
   .zp .cpy, .zp .cmp, .zp .dec, .zp .dcp,
   .f1 .iny, .imm .cmp, .f1 .dex, .f2 .sbx,
   .abs .cpy, .abs .cmp, .abs .dec, .abs .dcp]

/-- Opcodes `$Dx`. -/
def opcodeRowD : List Entry :=
  [.f2 .bne, .indY .cmp, .f1 (.jam 0xD2), .indY .dcp,
   .zpX (.nopMemory 0xD4), .zpX .cmp, .zpX .dec, .zpX .dcp,
   .f1 .cld, .absY .cmp, .f1 (.nopImplied 0xDA), .absY .dcp,
   .absX (.nopMemory 0xDC), .absX .cmp, .absX .dec, .absX .dcp]

/-- Opcodes `$Ex`. -/
def opcodeRowE : List Entry :=
  [.imm .cpx, .indX .sbc, .f2 (.nopImmediate 0xE2), .indX .isb,
   .zp .cpx, .zp .sbc, .zp .inc, .zp .isb,
   .f1 .inx, .imm .sbc, .f1 .nop, .f2 .sbcEB,
   .abs .cpx, .abs .sbc, .abs .inc, .abs .isb]

/-- Opcodes `$Fx`. -/
def opcodeRowF : List Entry :=
  [.f2 .beq, .indY .sbc, .f1 (.jam 0xF2), .indY .isb,
   .zpX (.nopMemory 0xF4), .zpX .sbc, .zpX .inc, .zpX .isb,
   .f1 .sed, .absY .sbc, .f1 (.nopImplied 0xFA), .absY .isb,
   .absX (.nopMemory 0xFC), .absX .sbc, .absX .inc, .absX .isb]

/-- The opcode grid of R103: row by high nibble, column by low nibble. -/
def opcodeGrid : List (List Entry) :=
  [opcodeRow0, opcodeRow1, opcodeRow2, opcodeRow3, opcodeRow4, opcodeRow5, opcodeRow6, opcodeRow7,
   opcodeRow8, opcodeRow9, opcodeRowA, opcodeRowB, opcodeRowC, opcodeRowD, opcodeRowE, opcodeRowF]

/-- The cell of an opcode byte. The grid has all 256 (Tests: test_grid_is_full), so the default, a faulting
byte, is never taken. -/
def entryOf (op : Byte) : Entry :=
  ((opcodeGrid.getD (op.toNat / 16) []).getD (op.toNat % 16) (.f1 (.jam op)))

/-- Why a byte list holds no whole instruction. -/
inductive DecodeError where
  /-- There is no opcode byte. Safe: the machine's fetch always has one. -/
  | noBytes
  /-- The bytes end inside the instruction of opcode `op`. Safe: the machine's fetch reads them all. -/
  | truncated (op : Byte)
  deriving DecidableEq, Repr

/-- The instruction at the head of a byte list and the bytes after it; 16-bit operands low byte first (R45,
R85). -/
def decode : List Byte → Except DecodeError (Instr × List Byte)
  | [] => .error .noBytes
  | op :: rest =>
    match entryOf op, rest with
    | .f1 i, rest => .ok (i, rest)
    | .f2 f, b :: rest => .ok (f b, rest)
    | .f3 f, l :: h :: rest => .ok (f (w16 h l), rest)
    | .f2 _, [] => .error (.truncated op)
    | .f3 _, [] => .error (.truncated op)
    | .f3 _, [_] => .error (.truncated op)

/-- The instruction whose bits are `w`, numbered as spec/opcode_table.json numbers them: bit 0 is the least
significant bit of the first byte. Bits at and above `nbits` are 0. -/
def decodeTableWord (nbits w : Nat) : Option Instr :=
  let v := w % 2 ^ nbits
  match decode [BitVec.ofNat 8 v, BitVec.ofNat 8 (v / 256), BitVec.ofNat 8 (v / 65536)] with
  | .ok (i, _) => some i
  | .error _ => none

/-! ## The encoder, from the Encodings lines of the instruction rules -/

/-- A carried opcode byte, if it is one of the rule's. -/
def carried (op : Byte) (bytes : List Byte) : Option Byte := if op ∈ bytes then some op else none

/-- The opcode byte of an instruction: the Encodings line of its rule (R110 to R191). -/
def Instr.opcode : Instr → Option Byte
  | .lda o => [(.indirectX, 0xA1), (.zeroPage, 0xA5), (.immediate, 0xA9), (.absolute, 0xAD),
      (.indirectY, 0xB1), (.zeroPageX, 0xB5), (.absoluteY, 0xB9), (.absoluteX, 0xBD)].lookup o.mode
  | .ldx o => [(.immediate, 0xA2), (.zeroPage, 0xA6), (.absolute, 0xAE), (.zeroPageY, 0xB6),
      (.absoluteY, 0xBE)].lookup o.mode
  | .ldy o => [(.immediate, 0xA0), (.zeroPage, 0xA4), (.absolute, 0xAC), (.zeroPageX, 0xB4),
      (.absoluteX, 0xBC)].lookup o.mode
  | .sta o => [(.indirectX, 0x81), (.zeroPage, 0x85), (.absolute, 0x8D), (.indirectY, 0x91),
      (.zeroPageX, 0x95), (.absoluteY, 0x99), (.absoluteX, 0x9D)].lookup o.mode
  | .stx o => [(.zeroPage, 0x86), (.absolute, 0x8E), (.zeroPageY, 0x96)].lookup o.mode
  | .sty o => [(.zeroPage, 0x84), (.absolute, 0x8C), (.zeroPageX, 0x94)].lookup o.mode
  | .tax => some 0xAA
  | .tay => some 0xA8
  | .txa => some 0x8A
  | .tya => some 0x98
  | .tsx => some 0xBA
  | .txs => some 0x9A
  | .pha => some 0x48
  | .php => some 0x08
  | .pla => some 0x68
  | .plp => some 0x28
  | .adc o => [(.indirectX, 0x61), (.zeroPage, 0x65), (.immediate, 0x69), (.absolute, 0x6D),
      (.indirectY, 0x71), (.zeroPageX, 0x75), (.absoluteY, 0x79), (.absoluteX, 0x7D)].lookup o.mode
  | .sbc o => [(.indirectX, 0xE1), (.zeroPage, 0xE5), (.immediate, 0xE9), (.absolute, 0xED),
      (.indirectY, 0xF1), (.zeroPageX, 0xF5), (.absoluteY, 0xF9), (.absoluteX, 0xFD)].lookup o.mode
  | .and o => [(.indirectX, 0x21), (.zeroPage, 0x25), (.immediate, 0x29), (.absolute, 0x2D),
      (.indirectY, 0x31), (.zeroPageX, 0x35), (.absoluteY, 0x39), (.absoluteX, 0x3D)].lookup o.mode
  | .ora o => [(.indirectX, 0x01), (.zeroPage, 0x05), (.immediate, 0x09), (.absolute, 0x0D),
      (.indirectY, 0x11), (.zeroPageX, 0x15), (.absoluteY, 0x19), (.absoluteX, 0x1D)].lookup o.mode
  | .eor o => [(.indirectX, 0x41), (.zeroPage, 0x45), (.immediate, 0x49), (.absolute, 0x4D),
      (.indirectY, 0x51), (.zeroPageX, 0x55), (.absoluteY, 0x59), (.absoluteX, 0x5D)].lookup o.mode
  | .bit o => [(.zeroPage, 0x24), (.absolute, 0x2C)].lookup o.mode
  | .cmp o => [(.indirectX, 0xC1), (.zeroPage, 0xC5), (.immediate, 0xC9), (.absolute, 0xCD),
      (.indirectY, 0xD1), (.zeroPageX, 0xD5), (.absoluteY, 0xD9), (.absoluteX, 0xDD)].lookup o.mode
  | .cpx o => [(.immediate, 0xE0), (.zeroPage, 0xE4), (.absolute, 0xEC)].lookup o.mode
  | .cpy o => [(.immediate, 0xC0), (.zeroPage, 0xC4), (.absolute, 0xCC)].lookup o.mode
  | .inc o => [(.zeroPage, 0xE6), (.absolute, 0xEE), (.zeroPageX, 0xF6), (.absoluteX, 0xFE)].lookup o.mode
  | .dec o => [(.zeroPage, 0xC6), (.absolute, 0xCE), (.zeroPageX, 0xD6), (.absoluteX, 0xDE)].lookup o.mode
  | .inx => some 0xE8
  | .iny => some 0xC8
  | .dex => some 0xCA
  | .dey => some 0x88
  | .asl o => [(.zeroPage, 0x06), (.accumulator, 0x0A), (.absolute, 0x0E), (.zeroPageX, 0x16),
      (.absoluteX, 0x1E)].lookup o.mode
  | .lsr o => [(.zeroPage, 0x46), (.accumulator, 0x4A), (.absolute, 0x4E), (.zeroPageX, 0x56),
      (.absoluteX, 0x5E)].lookup o.mode
  | .rol o => [(.zeroPage, 0x26), (.accumulator, 0x2A), (.absolute, 0x2E), (.zeroPageX, 0x36),
      (.absoluteX, 0x3E)].lookup o.mode
  | .ror o => [(.zeroPage, 0x66), (.accumulator, 0x6A), (.absolute, 0x6E), (.zeroPageX, 0x76),
      (.absoluteX, 0x7E)].lookup o.mode
  | .jmp o => [(.absolute, 0x4C), (.indirect, 0x6C)].lookup o.mode
  | .jsr _ => some 0x20
  | .rts => some 0x60
  | .rti => some 0x40
  | .brk => some 0x00
  | .bpl _ => some 0x10
  | .bmi _ => some 0x30
  | .bvc _ => some 0x50
  | .bvs _ => some 0x70
  | .bcc _ => some 0x90
  | .bcs _ => some 0xB0
  | .bne _ => some 0xD0
  | .beq _ => some 0xF0
  | .clc => some 0x18
  | .sec => some 0x38
  | .cli => some 0x58
  | .sei => some 0x78
  | .cld => some 0xD8
  | .sed => some 0xF8
  | .clv => some 0xB8
  | .nop => some 0xEA
  | .lax o => [(.indirectX, 0xA3), (.zeroPage, 0xA7), (.absolute, 0xAF), (.indirectY, 0xB3),
      (.zeroPageY, 0xB7), (.absoluteY, 0xBF)].lookup o.mode
  | .sax o => [(.indirectX, 0x83), (.zeroPage, 0x87), (.absolute, 0x8F), (.zeroPageY, 0x97)].lookup o.mode
  | .dcp o => [(.indirectX, 0xC3), (.zeroPage, 0xC7), (.absolute, 0xCF), (.indirectY, 0xD3),
      (.zeroPageX, 0xD7), (.absoluteY, 0xDB), (.absoluteX, 0xDF)].lookup o.mode
  | .isb o => [(.indirectX, 0xE3), (.zeroPage, 0xE7), (.absolute, 0xEF), (.indirectY, 0xF3),
      (.zeroPageX, 0xF7), (.absoluteY, 0xFB), (.absoluteX, 0xFF)].lookup o.mode
  | .slo o => [(.indirectX, 0x03), (.zeroPage, 0x07), (.absolute, 0x0F), (.indirectY, 0x13),
      (.zeroPageX, 0x17), (.absoluteY, 0x1B), (.absoluteX, 0x1F)].lookup o.mode
  | .rla o => [(.indirectX, 0x23), (.zeroPage, 0x27), (.absolute, 0x2F), (.indirectY, 0x33),
      (.zeroPageX, 0x37), (.absoluteY, 0x3B), (.absoluteX, 0x3F)].lookup o.mode
  | .sre o => [(.indirectX, 0x43), (.zeroPage, 0x47), (.absolute, 0x4F), (.indirectY, 0x53),
      (.zeroPageX, 0x57), (.absoluteY, 0x5B), (.absoluteX, 0x5F)].lookup o.mode
  | .rra o => [(.indirectX, 0x63), (.zeroPage, 0x67), (.absolute, 0x6F), (.indirectY, 0x73),
      (.zeroPageX, 0x77), (.absoluteY, 0x7B), (.absoluteX, 0x7F)].lookup o.mode
  | .sbcEB _ => some 0xEB
  | .anc op _ => carried op [0x0B, 0x2B]
  | .alr _ => some 0x4B
  | .arr _ => some 0x6B
  | .sbx _ => some 0xCB
  | .las _ => some 0xBB
  | .nopImplied op => carried op [0x1A, 0x3A, 0x5A, 0x7A, 0xDA, 0xFA]
  | .nopImmediate op _ => carried op [0x80, 0x82, 0x89, 0xC2, 0xE2]
  | .nopMemory op o =>
    match o with
    | .zp _ => carried op [0x04, 0x44, 0x64]
    | .zpX _ => carried op [0x14, 0x34, 0x54, 0x74, 0xD4, 0xF4]
    | .abs _ => carried op [0x0C]
    | .absX _ => carried op [0x1C, 0x3C, 0x5C, 0x7C, 0xDC, 0xFC]
    | .acc | .imm _ | .zpY _ | .absY _ | .ind _ | .indX _ | .indY _ => none
  | .jam op => carried op [0x02, 0x12, 0x22, 0x32, 0x42, 0x52, 0x62, 0x72, 0x92, 0xB2, 0xD2, 0xF2]
  | .ane _ => some 0x8B
  | .lxa _ => some 0xAB
  | .sha o => [(.indirectY, 0x93), (.absoluteY, 0x9F)].lookup o.mode
  | .shx _ => some 0x9E
  | .shy _ => some 0x9C
  | .tas _ => some 0x9B

/-- The operand bytes of an operand, low byte first (R45, R85). -/
def Operand.bytes : Operand → List Byte
  | .acc => []
  | .imm v => [v]
  | .zp a | .zpX a | .zpY a | .indX a | .indY a => [a]
  | .abs a | .absX a | .absY a | .ind a => [lo a, hi a]

/-- The bytes of an instruction after its opcode (R85). -/
def Instr.operandBytes : Instr → List Byte
  | .lda o | .ldx o | .ldy o | .sta o | .stx o | .sty o => o.bytes
  | .adc o | .sbc o | .and o | .ora o | .eor o | .bit o | .cmp o | .cpx o | .cpy o => o.bytes
  | .inc o | .dec o | .asl o | .lsr o | .rol o | .ror o | .jmp o => o.bytes
  | .lax o | .sax o | .dcp o | .isb o | .slo o | .rla o | .sre o | .rra o => o.bytes
  | .nopMemory _ o | .sha o => o.bytes
  | .jsr a | .las a | .shx a | .shy a | .tas a => [lo a, hi a]
  | .bpl d | .bmi d | .bvc d | .bvs d | .bcc d | .bcs d | .bne d | .beq d => [d]
  | .sbcEB v | .anc _ v | .alr v | .arr v | .sbx v | .nopImmediate _ v | .ane v | .lxa v => [v]
  | .tax | .tay | .txa | .tya | .tsx | .txs | .pha | .php | .pla | .plp => []
  | .inx | .iny | .dex | .dey | .rts | .rti | .brk => []
  | .clc | .sec | .cli | .sei | .cld | .sed | .clv | .nop | .nopImplied _ | .jam _ => []

/-- The bytes of a well-formed instruction; an ill-formed term has none. -/
def encode (i : Instr) : List Byte :=
  match i.opcode with
  | some op => op :: i.operandBytes
  | none => []

end Sys2Proof
end

