-- ==== Sys2Proof/Machine/Memory.lean ====
section
/-! DEFINITION. A byte memory as a sorted list of the cells that differ from the blank byte, and the index of a
program address in PRG. -/

namespace Sys2Proof.Machine

/-- A byte memory (10_state.md section 2): cells by index. An index that is not listed reads as `blank`. -/
abbrev Memory := List Host.Cell

/-- What an unlisted byte reads as. DESIGN CHOICE, unsafe (log entry 1): the spec leaves power-on contents
OPEN (D13). -/
def blank : Byte := 0x00

/-- The byte at an index. -/
def Memory.read : Memory → Nat → Byte
  | [], _ => blank
  | (b, w) :: m, a => if a = b then w else Memory.read m a

/-- Put a cell in front of the first cell of a higher index. -/
def Memory.insert (a : Nat) (v : Byte) : Memory → Memory
  | [] => [(a, v)]
  | (b, w) :: m => if a < b then (a, v) :: (b, w) :: m else (b, w) :: Memory.insert a v m

/-- Take the cells of an index out. -/
def Memory.erase (m : Memory) (a : Nat) : Memory := m.filter fun c => c.1 != a

/-- Store a byte at an index; storing `blank` leaves the index unlisted. -/
def Memory.write (m : Memory) (a : Nat) (v : Byte) : Memory :=
  if v = blank then m.erase a else Memory.insert a v (m.erase a)

/-- The canonical form: indices strictly rising and no blank cell listed. -/
abbrev Memory.wf (m : Memory) : Prop :=
  m.Pairwise (fun c d => c.1 < d.1) ∧ ∀ c ∈ m, c.2 ≠ blank

/-- Every listed index is below the memory's size. -/
abbrev Memory.within (m : Memory) (size : Nat) : Prop := ∀ c ∈ m, c.1 < size

/-- `PrgIndex(addr)` (20_memory.md R57): a 16 KiB PRG is mirrored. -/
def prgIndex (size : PrgSize) (addr : Addr) : Nat :=
  match size with
  | .kib16 => ((addr - 0x8000) &&& 0x3FFF).toNat
  | .kib32 => (addr - 0x8000).toNat

end Sys2Proof.Machine
end

