-- ==== Sys2Proof/Machine/Params.lean ====
section
/-! DEFINITION. The implementation parameters of 00_scope.md R8 at the defaults the spec chooses for them. -/

namespace Sys2Proof.Machine

/-- `DOTS_PER_LINE` (R8, D28). -/
def dotsPerLine : Nat := 341

/-- `LINES_PER_FRAME` (R8, D28). -/
def linesPerFrame : Nat := 262

/-- `VBLANK_LINE` (R8, D28). -/
def vblankLine : Nat := 241

/-- `PPU_PER_CPU` (R8, 60_exceptions.md R204). -/
def ppuPerCpu : Nat := 3

/-- `NMI_CYCLES` (R8, D7). -/
def nmiCycles : Nat := 7

/-- `NMI_VECTOR` (R8, D9). -/
def nmiVector : Addr := 0xFFFA

/-- `RESET_VECTOR` (R8). -/
def resetVector : Addr := 0xFFFC

/-- `BRK_VECTOR` (R8, D9). -/
def brkVector : Addr := 0xFFFE

/-- `BRANCH_EXTRA` of a taken branch (R8, D5, 45_control_flow.md R150). -/
def branchTakenExtra : Nat := 1

/-- `BRANCH_EXTRA` of a taken branch whose target is on another page, in addition (R8, D5, R150). -/
def branchPageExtra : Nat := 1

/-- The base cycle grid of 30_encoding.md R102: row by high nibble, column by low nibble. JAM bytes have no
cost: 0 stands in their cells and is never ticked, since they fault. -/
def cycleGrid : List (List Nat) := [
  [7, 6, 0, 8, 3, 3, 5, 5, 3, 2, 2, 2, 4, 4, 6, 6],
  [2, 5, 0, 8, 4, 4, 6, 6, 2, 4, 2, 7, 4, 4, 7, 7],
  [6, 6, 0, 8, 3, 3, 5, 5, 4, 2, 2, 2, 4, 4, 6, 6],
  [2, 5, 0, 8, 4, 4, 6, 6, 2, 4, 2, 7, 4, 4, 7, 7],
  [6, 6, 0, 8, 3, 3, 5, 5, 3, 2, 2, 2, 3, 4, 6, 6],
  [2, 5, 0, 8, 4, 4, 6, 6, 2, 4, 2, 7, 4, 4, 7, 7],
  [6, 6, 0, 8, 3, 3, 5, 5, 4, 2, 2, 2, 5, 4, 6, 6],
  [2, 5, 0, 8, 4, 4, 6, 6, 2, 4, 2, 7, 4, 4, 7, 7],
  [2, 6, 2, 6, 3, 3, 3, 3, 2, 2, 2, 2, 4, 4, 4, 4],
  [2, 6, 0, 6, 4, 4, 4, 4, 2, 5, 2, 5, 5, 5, 5, 5],
  [2, 6, 2, 6, 3, 3, 3, 3, 2, 2, 2, 2, 4, 4, 4, 4],
  [2, 5, 0, 5, 4, 4, 4, 4, 2, 4, 2, 4, 4, 4, 4, 4],
  [2, 6, 2, 8, 3, 3, 5, 5, 2, 2, 2, 2, 4, 4, 6, 6],
  [2, 5, 0, 8, 4, 4, 6, 6, 2, 4, 2, 7, 4, 4, 7, 7],
  [2, 6, 2, 8, 3, 3, 5, 5, 2, 2, 2, 2, 4, 4, 6, 6],
  [2, 5, 0, 8, 4, 4, 6, 6, 2, 4, 2, 7, 4, 4, 7, 7]]

/-- `CYCLES[op]`, the base cycle cost of an opcode byte (R102). -/
def cyclesOf (op : Byte) : Nat := (cycleGrid.getD (op.toNat / 16) []).getD (op.toNat % 16) 0

end Sys2Proof.Machine
end

