-- ==== Sys2Proof/Machine/State.lean ====
section
/-! DEFINITION. The machine state of 10_state.md as plain data, the ways a step can stop, and the state after
reset. -/

namespace Sys2Proof.Machine

/-- A fatal fault: its kind and what it records (60_exceptions.md R193, D35). -/
inductive FaultKind where
  /-- CPU read of PPU slot 0, 1, 3, 5 or 6 (20_memory.md R59). Raised by a bus read under Strict. Safe: the
  spec's own stop. -/
  | readWriteOnlyPpuRegister (addr : Addr)
  /-- CPU write of the Status slot (R63). Raised by a bus write under Strict. Safe: the spec's own stop. -/
  | writeReadOnlyPpuRegister (addr : Addr)
  /-- CPU write at $8000-$FFFF (R50, R57). Raised by a bus write under Strict. Safe: the spec's own stop. -/
  | writeProgramMemory (addr : Addr)
  /-- Data write with the Address pointer in $0000-$1FFF (R71). Raised by a bus write under Strict. Safe: the
  spec's own stop. -/
  | chrWrite (a : VAddr)
  /-- Data access that maps to a nametable under FourScreen (R74). Raised by a bus access in both modes. Safe:
  the spec's own stop. -/
  | fourScreenMirroring (a : VAddr)
  /-- A JAM byte, or an unstable byte under Fatal (R105, R194). Raised by the fetch and by the meanings of those
  bytes in both modes. Safe: the spec's own stop. -/
  | unmappedOpcode (op : Byte) (opaddr : Addr)
  deriving DecidableEq, Repr

/-- The PPU (10_state.md R27-R29, R31-R38, R40, R41). -/
structure Ppu where
  ctrl : Byte
  mask : Byte
  vblank : Bool
  oamAddr : Byte
  scrollX : Byte
  scrollY : Byte
  /-- false: the next Scroll write is X; true: it is Y (R36). -/
  scrollLatch : Bool
  addr : VAddr
  /-- false: the next Address write is the high byte; true: the low byte (R37). -/
  addrLatch : Bool
  readBuf : Byte
  vram : Memory
  palette : Memory
  oam : Memory
  dot : Nat
  scanline : Nat
  nmiEdge : Bool
  deriving DecidableEq, Repr

/-- The joypad (10_state.md R42). -/
structure Joypad where
  strobe : Bool
  cursor : Nat
  buttons : Byte
  deriving DecidableEq, Repr

/-- What a launch fixes and no rule writes: the cartridge (10_state.md R25, R26, R30) and the parameters a model
takes as arguments (00_scope.md R8). -/
structure Launch where
  prg : Memory
  prgSize : PrgSize
  chr : Memory
  mirroring : Mirroring
  mode : FaultMode
  unstable : UnstableMode
  aneMagic : Byte
  lxaMagic : Byte
  deriving DecidableEq, Repr

/-- The machine state (10_state.md). `frames` is the model's own: how many vblank entries there were, which
picks the next free button byte (log entry 4). -/
structure State where
  a : Byte
  x : Byte
  y : Byte
  sp : Byte
  p : Byte
  pc : Addr
  ram : Memory
  ppu : Ppu
  joy : Joypad
  cycles : Nat
  fault : Option FaultKind
  launch : Launch
  frames : Nat
  deriving DecidableEq, Repr

/-- How a step stops by a fault. -/
inductive Fault where
  /-- A fatal fault raised in this step, and the state it leaves: every effect before the faulting access, the
  fault recorded, nothing after (R192). Raised by the fetch and by every meaning whose bus accesses or opcode
  check fault. Safe: the spec's own stop. -/
  | fatal (kind : FaultKind) (final : State)
  /-- The state already holds a fault, so it has no next step (R43, R192). Raised by `step`. Safe: the spec's own
  stop. -/
  | halted (kind : FaultKind)
  deriving DecidableEq, Repr

/-- Why the model refuses an instruction. -/
inductive Refusal where
  /-- An arm of `exec` without a meaning. None is left. Safe: nothing can be proved of what it would do. -/
  | notModelled (mnemonic : String)
  /-- An ill-formed term of `Instr`, which no opcode byte encodes. Raised by every meaning given such a term;
  the fetch never makes one. Safe: it stands for no instruction of the hardware. -/
  | noEncoding
  deriving DecidableEq, Repr

/-- The power-on memory contents, OPEN parameters (R8, D13): `RAM_INIT`, `VRAM_INIT`, `PALETTE_INIT`,
`OAM_INIT`. -/
structure MemoryInit where
  ram : Memory
  vram : Memory
  palette : Memory
  oam : Memory
  deriving DecidableEq, Repr

/-- A byte of PRG as the CPU sees it (20_memory.md R57). -/
def Launch.prgByte (l : Launch) (addr : Addr) : Byte := Memory.read l.prg (prgIndex l.prgSize addr)

/-- The machine at creation, before the first `reset()` (70_reset_and_hazards.md R214). Its `sp`, `p` and `pc`
are written by the `reset()` that must come before a run (R215), so the zeros here are never seen. -/
def State.powerOn (l : Launch) (m : MemoryInit) : State where
  a := 0x00
  x := 0x00
  y := 0x00
  sp := 0x00
  p := 0x00
  pc := 0x0000
  ram := m.ram
  ppu :=
    { ctrl := 0, mask := 0, vblank := false, oamAddr := 0, scrollX := 0, scrollY := 0, scrollLatch := false,
      addr := 0, addrLatch := false, readBuf := 0, vram := m.vram, palette := m.palette, oam := m.oam,
      dot := 0, scanline := 0, nmiEdge := false }
  joy := { strobe := false, cursor := 0, buttons := 0 }
  cycles := 0
  fault := none
  launch := l
  frames := 0

/-- `reset()` (R215, R216): P, S and PC only; the vector's two bytes are read from PRG, low byte first. -/
def State.resetCpu (s : State) : State :=
  { s with
    p := 0x24
    sp := 0xFD
    pc := w16 (s.launch.prgByte (resetVector + 1)) (s.launch.prgByte resetVector) }

/-- The initial state of a run: power-on, then one `reset()` (R217). -/
def State.initial (l : Launch) (m : MemoryInit) : State := (State.powerOn l m).resetCpu

/-- The launch of `State.reset`: a blank 32 KiB cartridge, Horizontal (DESIGN CHOICE, log entry 2); the default
MODE and UNSTABLE_OPCODES (R8); the magic constants are free values (log entry 3). -/
def Launch.default : Launch where
  prg := []
  prgSize := .kib32
  chr := []
  mirroring := .horizontal
  mode := .strict
  unstable := .fatal
  aneMagic := Config.aneMagic
  lxaMagic := Config.lxaMagic

/-- All four memories blank (DESIGN CHOICE, log entry 1). -/
def MemoryInit.blank : MemoryInit := { ram := [], vram := [], palette := [], oam := [] }

/-- The machine right after reset (R214-R217), with the default launch and blank memories. -/
def State.reset : State := State.initial Launch.default MemoryInit.blank

end Sys2Proof.Machine
end

