-- ==== Sys2Proof/Machine/Act.lean ====
section
/-! DEFINITION. Actions: what a rule's pseudocode does to the state, ending with a value or with a fatal fault
that keeps the state reached so far (60_exceptions.md R192); and the named updates of the registers. -/

namespace Sys2Proof.Machine

/-- A computation over the state that may raise a fatal fault. A fault keeps the effects made before it. -/
abbrev Act (α : Type) := EStateM FaultKind State α

/-- Read something of the state. -/
def getS {α : Type} (f : State → α) : Act α := fun s => .ok (f s) s

/-- Change the state. -/
def setS (f : State → State) : Act Unit := fun s => .ok () (f s)

/-- `raise Fault(kind, info)` (00_scope.md R13). -/
def raise {α : Type} (k : FaultKind) : Act α := fun s => .error k s

/-- An access fault (20_memory.md R79): fatal under Strict; under Permissive the access gives `dflt` and has no
effect. -/
def accessFault {α : Type} (k : FaultKind) (dflt : α) : Act α := fun s =>
  match s.launch.mode with
  | .strict => .error k s
  | .permissive => .ok dflt s

/-- `A <- v` (R11). -/
def State.setA (s : State) (v : Byte) : State := { s with a := v }
/-- `X <- v`. -/
def State.setX (s : State) (v : Byte) : State := { s with x := v }
/-- `Y <- v`. -/
def State.setY (s : State) (v : Byte) : State := { s with y := v }
/-- `S <- v`. -/
def State.setSp (s : State) (v : Byte) : State := { s with sp := v }
/-- `P <- v`. -/
def State.setP (s : State) (v : Byte) : State := { s with p := v }
/-- `PC <- v`. -/
def State.setPc (s : State) (v : Addr) : State := { s with pc := v }
/-- Store a byte of work RAM (10_state.md R24). -/
def State.setRam (s : State) (i : Nat) (v : Byte) : State := { s with ram := Memory.write s.ram i v }
/-- Change the PPU. -/
def State.setPpu (s : State) (q : Ppu) : State := { s with ppu := q }
/-- Change the joypad. -/
def State.setJoy (s : State) (j : Joypad) : State := { s with joy := j }
/-- Set the cycle counter. -/
def State.setCycles (s : State) (n : Nat) : State := { s with cycles := n }
/-- Record a fault (10_state.md R43). -/
def State.setFault (s : State) (k : FaultKind) : State := { s with fault := some k }
/-- Set the count of vblank entries. -/
def State.setFrames (s : State) (n : Nat) : State := { s with frames := n }

end Sys2Proof.Machine
end

