-- ==== Sys2Proof/Machine/Flags.lean ====
section
/-! DEFINITION. The flags of P and every flag computation: `setNZ`, `AddC`, `Compare`, BIT, and the shifts and
rotates (10_state.md R20, 43_arithmetic_logic.md, 44_shift_rotate.md). -/

namespace Sys2Proof.Machine

/-- The flags of P (R20). -/
inductive Flag where
  | c | z | i | d | b | u | v | n
  deriving DecidableEq, Repr

/-- The bit of P that holds a flag (R20). -/
def Flag.bit : Flag → Nat
  | .c => 0
  | .z => 1
  | .i => 2
  | .d => 3
  | .b => 4
  | .u => 5
  | .v => 6
  | .n => 7

/-- P with one flag written. -/
def withFlag (f : Flag) (b : Bool) (p : Byte) : Byte :=
  if b then p ||| (1#8 <<< f.bit) else p &&& ~~~(1#8 <<< f.bit)

/-- The value of a flag. -/
def State.flag (s : State) (f : Flag) : Bool := s.p.getLsbD f.bit

/-- `P.f <- b` (R11). -/
def State.setFlag (s : State) (f : Flag) (b : Bool) : State := s.setP (withFlag f b s.p)

/-- `setNZ(v)` (R11). -/
def State.setNZ (s : State) (v : Byte) : State := (s.setFlag .z (v == 0)).setFlag .n (v.getLsbD 7)

/-- A carry as a byte. -/
def carryByte (c : Bool) : Byte := if c then 1 else 0

/-- `AddC(m)` (R126): two chained 8-bit additions and the XOR overflow test, binary whatever D holds (D39). -/
def State.addC (s : State) (m : Byte) : State :=
  let s1 := s.a.toNat + m.toNat
  let s2 := s1 % 256 + (s.flag .c).toNat
  let r : Byte := BitVec.ofNat 8 s2
  let v := ((s.a ^^^ r) &&& (m ^^^ r) &&& 0x80) != 0
  (((s.setFlag .c (decide (256 ≤ s1) || decide (256 ≤ s2))).setFlag .v v).setA r).setNZ r

/-- Subtract with borrow: `AddC(~m)` (R127). -/
def State.subC (s : State) (m : Byte) : State := s.addC (~~~m)

/-- `Compare(r, m)` (R132). -/
def State.compare (s : State) (r m : Byte) : State := (s.setFlag .c (decide (m ≤ r))).setNZ (r - m)

/-- BIT's flags (R131). -/
def State.bitTest (s : State) (m : Byte) : State :=
  ((s.setFlag .z (s.a &&& m == 0)).setFlag .n (m.getLsbD 7)).setFlag .v (m.getLsbD 6)

/-- `Asl(m)` (R141): sets C and gives the result. -/
def aslOf (m : Byte) : Act Byte := do
  setS fun s => s.setFlag .c (m.getLsbD 7)
  pure (m <<< 1)

/-- `Lsr(m)` (R142). -/
def lsrOf (m : Byte) : Act Byte := do
  setS fun s => s.setFlag .c (m.getLsbD 0)
  pure (m >>> 1)

/-- `Rol(m)` (R143). -/
def rolOf (m : Byte) : Act Byte := do
  let c ← getS (·.flag .c)
  setS fun s => s.setFlag .c (m.getLsbD 7)
  pure ((m <<< 1) ||| carryByte c)

/-- `Ror(m)` (R144). -/
def rorOf (m : Byte) : Act Byte := do
  let c ← getS (·.flag .c)
  setS fun s => s.setFlag .c (m.getLsbD 0)
  pure ((m >>> 1) ||| (carryByte c <<< 7))

/-- P as PLP and RTI restore it from a popped byte: U forced to 1, the pulled B ignored (R125, D55). -/
def pulledStatus (v p : Byte) : Byte := (v &&& 0xCF) ||| (p &&& 0x10) ||| 0x20

end Sys2Proof.Machine
end

