-- ==== Sys2Proof/Machine/Joypad.lean ====
section
/-! DEFINITION. The joypad shift register at $4016 (20_memory.md R77, R78). -/

namespace Sys2Proof.Machine

/-- `JoyRead()` (R77): the button at the cursor, then 1 for ever; the cursor moves only with the strobe clear. -/
def joyRead : Act Byte := do
  let j ← getS (·.joy)
  if 7 < j.cursor then pure 0x01
  else
    setS fun s => s.setJoy (if j.strobe then j else { j with cursor := j.cursor + 1 })
    pure (if j.buttons.getLsbD j.cursor then 0x01 else 0x00)

/-- `JoyWrite(v)` (R78): bit 0 is the strobe; while set, the cursor is held at 0. -/
def joyWrite (v : Byte) : Act Unit :=
  setS fun s => s.setJoy
    (if v.getLsbD 0 then { s.joy with strobe := true, cursor := 0 } else { s.joy with strobe := false })

end Sys2Proof.Machine
end

