-- ==== Sys2Proof/Machine/Ppu.lean ====
section
/-! DEFINITION. The PPU register file and VRAM controller (20_memory.md R59-R75) and the PPU clock with its
vertical-blank edge detector (60_exceptions.md R205-R207, R209). -/

namespace Sys2Proof.Machine

/-! ## The PPU address space -/

/-- `NtIndex(a)` (R74): the VRAM index of a nametable address; none under FourScreen. -/
def ntIndex (mirroring : Mirroring) (a : VAddr) : Option Nat :=
  let i := ((a &&& 0x2FFF) - 0x2000).toNat
  let nt := i / 0x400
  let off := i % 0x400
  match mirroring with
  | .horizontal => some ([0, 0, 1, 1].getD nt 0 * 0x400 + off)
  | .vertical => some ([0, 1, 0, 1].getD nt 0 * 0x400 + off)
  | .fourScreen => none

/-- `PalIndex(a)` (R75). -/
def palIndex (a : VAddr) : Nat :=
  let i := (a &&& 0x1F).toNat
  if i ∈ [0x10, 0x14, 0x18, 0x1C] then i - 0x10 else i

/-- `NtIndex(a)` with its fault (R74, D27), fatal in both modes (R79). -/
def ntIndexOrFault (a : VAddr) : Act Nat := fun s =>
  match ntIndex s.launch.mirroring a with
  | some i => .ok i s
  | none => .error (.fourScreenMirroring a) s

/-- `PpuMem(a)` (R72). -/
def ppuMem (a : VAddr) : Act Byte :=
  if a ≤ 0x1FFF then getS fun s => Memory.read s.launch.chr a.toNat
  else if a ≤ 0x3EFF then do
    let i ← ntIndexOrFault a
    getS fun s => Memory.read s.ppu.vram i
  else getS fun s => Memory.read s.ppu.palette (palIndex a)

/-- `PpuWrite(a, v)` (R73): CHR is immutable (R71, D26); under Permissive the store is dropped (R79). -/
def ppuWrite (a : VAddr) (v : Byte) : Act Unit :=
  if a ≤ 0x1FFF then accessFault (.chrWrite a) ()
  else if a ≤ 0x3EFF then do
    let i ← ntIndexOrFault a
    setS fun s => s.setPpu { s.ppu with vram := Memory.write s.ppu.vram i v }
  else setS fun s => s.setPpu { s.ppu with palette := Memory.write s.ppu.palette (palIndex a) v }

/-! ## The register slots -/

/-- The eight register slots (10_state.md section 3, D47). -/
inductive PpuSlot where
  | control | mask | status | oamAddr | oamData | scroll | address | data
  deriving DecidableEq, Repr

/-- The slot `n = addr & 7` of a CPU address in the PPU window (R52). -/
def ppuSlot (addr : Addr) : PpuSlot :=
  match (addr &&& 7).toNat with
  | 0 => .control
  | 1 => .mask
  | 2 => .status
  | 3 => .oamAddr
  | 4 => .oamData
  | 5 => .scroll
  | 6 => .address
  | _ => .data

/-- The step of a Data access: 32 if Control bit 2 is set, 1 otherwise (R69). -/
def addrStep (ctrl : Byte) : VAddr := if ctrl.getLsbD 2 then 32 else 1

/-- `addr <- (addr + step) & 0x3FFF` (R69). -/
def stepAddr : Act Unit :=
  setS fun s => s.setPpu { s.ppu with addr := s.ppu.addr + addrStep s.ppu.ctrl }

/-- A read of Status (R62). -/
def readStatus : Act Byte := do
  let v ← getS (·.ppu.vblank)
  setS fun s => s.setPpu { s.ppu with vblank := false, scrollLatch := false, addrLatch := false }
  pure (if v then 0x80 else 0x00)

/-- A read of OAM Data (R65). -/
def readOamData : Act Byte := getS fun s => Memory.read s.ppu.oam s.ppu.oamAddr.toNat

/-- A read of Data (R70): delayed behind the buffer below $3F00, immediate for the palette. -/
def readData : Act Byte := do
  let a ← getS (·.ppu.addr)
  if a ≤ 0x3EFF then
    let r ← getS (·.ppu.readBuf)
    let b ← ppuMem a
    setS fun s => s.setPpu { s.ppu with readBuf := b }
    stepAddr
    pure r
  else
    let r ← getS fun s => Memory.read s.ppu.palette (palIndex a)
    stepAddr
    pure r

/-- `PpuRegRead(n)` at the CPU address `addr` (R59, R62, R65, R70). -/
def ppuRegRead (addr : Addr) : Act Byte :=
  match ppuSlot addr with
  | .control | .mask | .oamAddr | .scroll | .address => accessFault (.readWriteOnlyPpuRegister addr) 0x00
  | .status => readStatus
  | .oamData => readOamData
  | .data => readData

/-- A write of OAM Data (R66). -/
def writeOamData (v : Byte) : Act Unit :=
  setS fun s => s.setPpu
    { s.ppu with oam := Memory.write s.ppu.oam s.ppu.oamAddr.toNat v, oamAddr := s.ppu.oamAddr + 1 }

/-- A write of Scroll (R67). -/
def writeScroll (v : Byte) : Act Unit :=
  setS fun s => s.setPpu
    (if s.ppu.scrollLatch then { s.ppu with scrollY := v, scrollLatch := false }
     else { s.ppu with scrollX := v, scrollLatch := true })

/-- A write of Address (R68): high byte first, masked to 6 bits, then the low byte. -/
def writeAddress (v : Byte) : Act Unit :=
  setS fun s => s.setPpu
    (if s.ppu.addrLatch then
      { s.ppu with addr := (s.ppu.addr &&& 0x3F00) ||| v.setWidth 14, addrLatch := false }
     else
      { s.ppu with
        addr := ((v &&& 0x3F).setWidth 14 <<< 8) ||| (s.ppu.addr &&& 0x00FF), addrLatch := true })

/-- A write of Data (R71); a fault comes before the increment. -/
def writeData (v : Byte) : Act Unit := do
  let a ← getS (·.ppu.addr)
  ppuWrite a v
  stepAddr

/-- `PpuRegWrite(n, v)` at the CPU address `addr` (R60, R61, R63, R64, R66-R68, R71). -/
def ppuRegWrite (addr : Addr) (v : Byte) : Act Unit :=
  match ppuSlot addr with
  | .control => setS fun s => s.setPpu { s.ppu with ctrl := v }
  | .mask => setS fun s => s.setPpu { s.ppu with mask := v }
  | .status => accessFault (.writeReadOnlyPpuRegister addr) ()
  | .oamAddr => setS fun s => s.setPpu { s.ppu with oamAddr := v }
  | .oamData => writeOamData v
  | .scroll => writeScroll v
  | .address => writeAddress v
  | .data => writeData v

/-! ## The PPU clock -/

/-- `HostFrame()` (R209): the host may leave any button byte, a free value (log entry 4); the render callback
changes nothing else. -/
def hostFrame (s : State) : State :=
  (s.setJoy { s.joy with buttons := Config.hostButtons s.frames }).setFrames (s.frames + 1)

/-- `VblEnter()` (R206): the NMI edge needs Control bit 7. -/
def vblEnter (s : State) : State :=
  hostFrame (s.setPpu { s.ppu with vblank := true, nmiEdge := s.ppu.nmiEdge || s.ppu.ctrl.getLsbD 7 })

/-- `VblLeave()` (R207). -/
def vblLeave (s : State) : State := s.setPpu { s.ppu with vblank := false }

/-- The scanline counter moves on: vblank entry at `VBLANK_LINE`, and the wrap with its vblank end (R205). -/
def nextLine (s : State) : State :=
  let s := s.setPpu { s.ppu with dot := 0, scanline := s.ppu.scanline + 1 }
  let s := if s.ppu.scanline = vblankLine then vblEnter s else s
  if s.ppu.scanline = linesPerFrame then vblLeave (s.setPpu { s.ppu with scanline := 0 }) else s

/-- `PpuDot()` (R205). -/
def ppuDot (s : State) : State :=
  if s.ppu.dot + 1 = dotsPerLine then nextLine s
  else s.setPpu { s.ppu with dot := s.ppu.dot + 1 }

/-- `n` dots, one at a time. -/
def ppuDots : Nat → State → State
  | 0, s => s
  | n + 1, s => ppuDots n (ppuDot s)

end Sys2Proof.Machine
end

