-- ==== Sys2Proof/Machine/Ops.lean ====
section
/-! DEFINITION. The named operations: the CPU address decoder and bus (20_memory.md R49-R58, R76), the stack
(10_state.md R18), the bus tick (60_exceptions.md R204), interrupt entry and return (R199, R200), the end of an
instruction (R196) and the fetch. -/

namespace Sys2Proof.Machine

/-! ## The address decoder -/

/-- The rows of the routing table (R49). -/
inductive Region where
  | ram | ppu | apuStub | oamDma | joypad | joypad2 | other | prg
  deriving DecidableEq, Repr

/-- The row of a CPU address (R49, R58). -/
def region (addr : Addr) : Region :=
  if addr ≤ 0x1FFF then .ram
  else if addr ≤ 0x3FFF then .ppu
  else if addr ≤ 0x4013 ∨ addr = 0x4015 then .apuStub
  else if addr = 0x4014 then .oamDma
  else if addr = 0x4016 then .joypad
  else if addr = 0x4017 then .joypad2
  else if addr ≤ 0x7FFF then .other
  else .prg

/-- The cell of work RAM an address selects (R51). -/
def ramIndex (addr : Addr) : Nat := (addr &&& 0x07FF).toNat

/-- `MemRead(addr, 1)` (R49). -/
def busRead (addr : Addr) : Act Byte :=
  match region addr with
  | .ram => getS fun s => Memory.read s.ram (ramIndex addr)
  | .ppu => ppuRegRead addr
  | .apuStub | .oamDma | .joypad2 | .other => pure 0x00
  | .joypad => joyRead
  | .prg => getS fun s => s.launch.prgByte addr

/-- `n` bus reads at ascending addresses (R76). -/
def readRun : Addr → Nat → Act (List Byte)
  | _, 0 => pure []
  | addr, n + 1 => do
    let b ← busRead addr
    let bs ← readRun (addr + 1) n
    pure (b :: bs)

/-- Write bytes into OAM from a cursor on, wrapping modulo 256 (R76). -/
def oamCopy : Byte → List Byte → Memory → Memory
  | _, [], m => m
  | c, b :: bs, m => oamCopy (c + 1) bs (Memory.write m c.toNat b)

/-- `OamDma(v)` (R76): 256 reads through the bus, then the copy; the cursor ends where it began. -/
def oamDma (v : Byte) : Act Unit := do
  let bytes ← readRun (w16 v 0) 256
  setS fun s => s.setPpu { s.ppu with oam := oamCopy s.ppu.oamAddr bytes s.ppu.oam }

/-- `MemWrite(addr, 1, v)` (R50). -/
def busWrite (addr : Addr) (v : Byte) : Act Unit :=
  match region addr with
  | .ram => setS fun s => s.setRam (ramIndex addr) v
  | .ppu => ppuRegWrite addr v
  | .apuStub | .joypad2 | .other => pure ()
  | .oamDma => oamDma v
  | .joypad => joyWrite v
  | .prg => accessFault (.writeProgramMemory addr) ()

/-- `Read16(addr)`: low byte first, `addr + 1` modulo 65536 (00_scope.md R12, R45). -/
def read16 (addr : Addr) : Act Addr := do
  let l ← busRead addr
  let h ← busRead (addr + 1)
  pure (w16 h l)

/-! ## The stack (R17, R18) -/

/-- The CPU address of the stack byte at S (R17). -/
def stackAddr (sp : Byte) : Addr := 0x0100 + sp.setWidth 16

/-- `Push(v)` (R18). -/
def push (v : Byte) : Act Unit := do
  let sp ← getS (·.sp)
  busWrite (stackAddr sp) v
  setS (·.setSp (sp - 1))

/-- `Pop()` (R18). -/
def pop : Act Byte := do
  setS fun s => s.setSp (s.sp + 1)
  let sp ← getS (·.sp)
  busRead (stackAddr sp)

/-- Push a 16-bit value, high byte first (R45, R146). -/
def push16 (w : Addr) : Act Unit := do
  push (hi w)
  push (lo w)

/-- Pop a 16-bit value, low byte first (90_conflicts.md C1). -/
def pop16 : Act Addr := do
  let l ← pop
  let h ← pop
  pure (w16 h l)

/-! ## Time -/

/-- `Tick(n)` (R204). -/
def tick (n : Nat) (s : State) : State := ppuDots (ppuPerCpu * n) (s.setCycles (s.cycles + n))

/-! ## Interrupt entry and return (R200) -/

/-- Interrupt entry: push the return address and a copy of the status, set I, let `cycles` pass, and load PC
from a vector (R149, R199, R200). -/
def enterInterrupt (ret : Addr) (pushedP : Byte) (cycles : Nat) (vector : Addr) : Act Unit := do
  push16 ret
  push pushedP
  setS (·.setFlag .i true)
  setS (tick cycles)
  let target ← read16 vector
  setS (·.setPc target)

/-- `P <- (v & 0xCF) | (P & 0x10) | 0x20` for a popped byte v (R125, R148). -/
def pullStatus : Act Unit := do
  let v ← pop
  setS fun s => s.setP (pulledStatus v s.p)

/-- Return from interrupt: the status, then the return address, unchanged (R148, R200). -/
def returnFromInterrupt : Act Unit := do
  pullStatus
  let target ← pop16
  setS (·.setPc target)

/-- `GetNmi()` (R198). -/
def getNmi : Act Bool := do
  let r ← getS (·.ppu.nmiEdge)
  setS fun s => s.setPpu { s.ppu with nmiEdge := false }
  pure r

/-- `NmiService()` (R199). -/
def nmiService : Act Unit := do
  let pc ← getS (·.pc)
  let p ← getS (·.p)
  enterInterrupt pc ((p &&& ~~~0x10) ||| 0x20) nmiCycles nmiVector

/-- Loop step (a) (R196). -/
def pollNmi : Act Unit := do
  let edge ← getNmi
  if edge then nmiService else pure ()

/-! ## The end of an instruction -/

/-- How an instruction's rule ends: whether it redirected PC (R88) and the extra cycles of a taken branch (R150).
Scratch of one step (R44). -/
structure Flow where
  redirected : Bool
  extra : Nat
  deriving DecidableEq, Repr

/-- No redirect, no extra cycle. -/
def Flow.next : Flow := { redirected := false, extra := 0 }

/-- A redirect (R88) with some extra cycles. -/
def Flow.jump (extra : Nat) : Flow := { redirected := true, extra := extra }

/-- Loop step (f) (R88, R196). -/
def advance (f : Flow) (len : Nat) (s : State) : State :=
  if f.redirected then s else s.setPc (s.pc + BitVec.ofNat 16 (len - 1))

/-- The outcomes of this machine. -/
abbrev Outcome := Host.Outcome State Fault Refusal

/-- Loop steps (e) and (f) after a rule's action (R196); a fault skips both (R192). -/
def finish (op : Byte) (len : Nat) : EStateM.Result FaultKind State Flow → Outcome
  | .ok f s => .next (advance f len (tick (cyclesOf op + f.extra) s))
  | .error k s => .fault (.fatal k (s.setFault k))

/-- Perform an instruction: loop steps (d), (e) and (f), from the state in which PC holds `PC1 = opaddr + 1`
(R88, R109). A term that no opcode byte encodes is refused. -/
def performOp (i : Instr) (body : Byte → Act Flow) (s : State) : Outcome :=
  match i.opcode with
  | some op => finish op i.length (body op s)
  | none => .refused .noEncoding

/-- `performOp` for a rule that does not look at its opcode byte. -/
def perform (i : Instr) (body : Act Flow) (s : State) : Outcome := performOp i (fun _ => body) s

/-! ## The opcode check and the fetch -/

/-- `raise Fault(UnmappedOpcode, op and opaddr)`, with PC at `opaddr + 1` (R105, R194). -/
def raiseUnmapped {α : Type} (op : Byte) : Act α := fun s => .error (.unmappedOpcode op (s.pc - 1)) s

/-- The check of loop step (c) (R194). -/
def requireExecutable (op : Byte) : Act Unit := fun s =>
  if executable s.launch.unstable op then .ok () s else raiseUnmapped op s

/-- Loop step (c) (R196) and the operand bytes: the opcode read, PC moved past it, the opcode check, then the
operand bytes in ascending order (R82, D18), read where each mode's rule reads them first. PC is left at
`PC1`. -/
def fetch : Act Instr := do
  let opaddr ← getS (·.pc)
  let op ← busRead opaddr
  setS (·.setPc (opaddr + 1))
  requireExecutable op
  match entryOf op with
  | .f1 i => pure i
  | .f2 f => do
    let b ← busRead (opaddr + 1)
    pure (f b)
  | .f3 f => do
    let w ← read16 (opaddr + 1)
    pure (f w)

/-! ## Plain memory -/

/-- A byte at an address whose read has no side effect and cannot fault (R48): RAM, the stubs, unmapped
addresses and PRG. None for the PPU window and the joypad. -/
def State.peek (s : State) (addr : Addr) : Option Byte :=
  match region addr with
  | .ram => some (Memory.read s.ram (ramIndex addr))
  | .apuStub | .oamDma | .joypad2 | .other => some 0x00
  | .prg => some (s.launch.prgByte addr)
  | .ppu | .joypad => none

/-- Whether a program byte can be placed at an address: RAM or PRG. -/
def storable (addr : Addr) : Bool := region addr == .ram || region addr == .prg

/-- Place a program byte at an address of RAM or PRG, as the loader or an earlier store does; not a bus access. -/
def State.place (s : State) (addr : Addr) (v : Byte) : State :=
  match region addr with
  | .ram => s.setRam (ramIndex addr) v
  | .prg =>
    { s with launch := { s.launch with prg := Memory.write s.launch.prg (prgIndex s.launch.prgSize addr) v } }
  | .ppu | .apuStub | .oamDma | .joypad | .joypad2 | .other => s

end Sys2Proof.Machine
end

