-- ==== Sys2Proof/Machine/Operands.lean ====
section
/-! DEFINITION. The addressing modes (30_encoding.md R89-R100) and what an instruction class does with its
operand (R101). An `Operand` holds the operand bytes the fetch has read; each mode adds the registers and reads
the pointer bytes here, low byte first. -/

namespace Sys2Proof.Machine

/-- A zero-page address (R92). -/
def zeroPage (a : Byte) : Addr := a.setWidth 16

/-- `sext_16(v)` (00_scope.md R10). -/
def sext16 (v : Byte) : Addr := v.signExtend 16

/-- The pointer of (zp),Y before the index is added: both bytes inside the zero page (R100). -/
def zeroPagePointer (z : Byte) : Act Addr := do
  let l ← busRead (zeroPage z)
  let h ← busRead (zeroPage (z + 1))
  pure (w16 h l)

/-- The pointer read of JMP (abs), with the page-boundary bug (R98). -/
def indirectTarget (ptr : Addr) : Act Addr := do
  let l ← busRead ptr
  let h ← busRead ((ptr &&& 0xFF00) ||| ((ptr + 1) &&& 0x00FF))
  pure (w16 h l)

/-- `EA` of an operand (R91-R100). Immediate gives `PC1` (R91). The Accumulator form has no EA (R89) and no
instruction asks for one: `PC1` stands in its arm. -/
def effAddr : Operand → Act Addr
  | .acc => getS (·.pc)
  | .imm _ => getS (·.pc)
  | .zp a => pure (zeroPage a)
  | .zpX a => getS fun s => zeroPage (a + s.x)
  | .zpY a => getS fun s => zeroPage (a + s.y)
  | .abs a => pure a
  | .absX a => getS fun s => a + s.x.setWidth 16
  | .absY a => getS fun s => a + s.y.setWidth 16
  | .ind ptr => indirectTarget ptr
  | .indX a => do
    let x ← getS (·.x)
    zeroPagePointer (a + x)
  | .indY z => do
    let base ← zeroPagePointer z
    getS fun s => base + s.y.setWidth 16

/-- `M` of an operand (00_scope.md R14): the immediate byte, the accumulator (R89), or the byte read at EA
(R101). -/
def readOperand : Operand → Act Byte
  | .acc => getS (·.a)
  | .imm v => pure v
  | o => do
    let ea ← effAddr o
    busRead ea

/-- A read instruction: `M`, then an update of the registers (R101). -/
def readThen (o : Operand) (f : Byte → State → State) : Act Flow := do
  let m ← readOperand o
  setS (f m)
  pure .next

/-- A write instruction: one store at EA and no data read (R101). -/
def store (o : Operand) (v : State → Byte) : Act Flow := do
  let ea ← effAddr o
  let b ← getS v
  busWrite ea b
  pure .next

/-- A read-modify-write instruction: one read, one write of the result, then an update of the registers (R101,
D16). `f` sets C before the write, as the rules write it (44_shift_rotate.md). -/
def modify (o : Operand) (f : Byte → Act Byte) (g : Byte → State → State) : Act Flow := do
  let ea ← effAddr o
  let m ← busRead ea
  let r ← f m
  busWrite ea r
  setS (g r)
  pure .next

/-- An instruction that only updates registers. -/
def registers (f : State → State) : Act Flow := do
  setS f
  pure .next

/-- `Shift(f)` (44_shift_rotate.md): the Accumulator form or the memory form. -/
def shift (o : Operand) (f : Byte → Act Byte) : Act Flow :=
  match o with
  | .acc => do
    let a ← getS (·.a)
    let r ← f a
    setS fun s => (s.setA r).setNZ r
    pure .next
  | o => modify o f fun r s => s.setNZ r

/-- `pc <- target` and the redirect (R88). -/
def jump (target : Addr) (extra : Nat) : Act Flow := do
  setS (·.setPc target)
  pure (.jump extra)

/-- `Branch(cond)` (45_control_flow.md R150); PC holds `PC1`, so the next instruction is at PC + 1. -/
def branch (cond : State → Bool) (d : Byte) : Act Flow := do
  let taken ← getS cond
  let next ← getS fun s => s.pc + 1
  let target := next + sext16 d
  if taken then
    jump target (branchTakenExtra + if hi target ≠ hi next then branchPageExtra else 0)
  else pure .next

end Sys2Proof.Machine
end

