-- ==== Sys2Proof/Machine/Arith.lean ====
section
/-! DEFINITION. Arithmetic, logic, compare, increment and decrement (43_arithmetic_logic.md). -/

namespace Sys2Proof.Machine

/-- ADC: `AddC(M)` (R126). -/
def execAdc (o : Operand) (s : State) : Outcome :=
  perform (.adc o) (readThen o fun m s => s.addC m) s

/-- SBC: `AddC(~M & 0xFF)` (R127). -/
def execSbc (o : Operand) (s : State) : Outcome :=
  perform (.sbc o) (readThen o fun m s => s.subC m) s

/-- AND: `A <- A & M; setNZ(A)` (R128). -/
def execAnd (o : Operand) (s : State) : Outcome :=
  perform (.and o) (readThen o fun m s => (s.setA (s.a &&& m)).setNZ (s.a &&& m)) s

/-- ORA: `A <- A | M; setNZ(A)` (R129). -/
def execOra (o : Operand) (s : State) : Outcome :=
  perform (.ora o) (readThen o fun m s => (s.setA (s.a ||| m)).setNZ (s.a ||| m)) s

/-- EOR: `A <- A ^ M; setNZ(A)` (R130). -/
def execEor (o : Operand) (s : State) : Outcome :=
  perform (.eor o) (readThen o fun m s => (s.setA (s.a ^^^ m)).setNZ (s.a ^^^ m)) s

/-- BIT: Z from `A & M`, N and V from M (R131). -/
def execBit (o : Operand) (s : State) : Outcome :=
  perform (.bit o) (readThen o fun m s => s.bitTest m) s

/-- CMP: `Compare(A, M)` (R132). -/
def execCmp (o : Operand) (s : State) : Outcome :=
  perform (.cmp o) (readThen o fun m s => s.compare s.a m) s

/-- CPX: `Compare(X, M)` (R133). -/
def execCpx (o : Operand) (s : State) : Outcome :=
  perform (.cpx o) (readThen o fun m s => s.compare s.x m) s

/-- CPY: `Compare(Y, M)` (R134). -/
def execCpy (o : Operand) (s : State) : Outcome :=
  perform (.cpy o) (readThen o fun m s => s.compare s.y m) s

/-- INC: one read, one write of `m + 1`, `setNZ(r)` (R135). -/
def execInc (o : Operand) (s : State) : Outcome :=
  perform (.inc o) (modify o (fun m => pure (m + 1)) fun r s => s.setNZ r) s

/-- DEC: one read, one write of `m - 1`, `setNZ(r)` (R136). -/
def execDec (o : Operand) (s : State) : Outcome :=
  perform (.dec o) (modify o (fun m => pure (m - 1)) fun r s => s.setNZ r) s

/-- INX (R137). -/
def execInx (s : State) : Outcome :=
  perform .inx (registers fun s => (s.setX (s.x + 1)).setNZ (s.x + 1)) s

/-- INY (R138). -/
def execIny (s : State) : Outcome :=
  perform .iny (registers fun s => (s.setY (s.y + 1)).setNZ (s.y + 1)) s

/-- DEX (R139). -/
def execDex (s : State) : Outcome :=
  perform .dex (registers fun s => (s.setX (s.x - 1)).setNZ (s.x - 1)) s

/-- DEY (R140). -/
def execDey (s : State) : Outcome :=
  perform .dey (registers fun s => (s.setY (s.y - 1)).setNZ (s.y - 1)) s

end Sys2Proof.Machine
end

