-- ==== Sys2Proof/Machine/Control.lean ====
section
/-! DEFINITION. Control transfers (45_control_flow.md). PC holds `PC1 = opaddr + 1`. -/

namespace Sys2Proof.Machine

/-- JMP: `pc <- EA` (R145). -/
def execJmp (o : Operand) (s : State) : Outcome :=
  perform (.jmp o) (do
    let ea ← effAddr o
    jump ea 0) s

/-- JSR: push the address of its own last byte, high byte first, then jump; the operand was read before the pushes
(R146). -/
def execJsr (target : Addr) (s : State) : Outcome :=
  perform (.jsr target) (do
    let ret ← getS fun s => s.pc + 1
    push16 ret
    jump target 0) s

/-- RTS: pop a return address, low byte first, and jump to the byte after it (R147). -/
def execRts (s : State) : Outcome :=
  perform .rts (do
    let ret ← pop16
    jump (ret + 1) 0) s

/-- RTI: the status as PLP, then the return address unchanged (R148). -/
def execRti (s : State) : Outcome :=
  perform .rti (do
    returnFromInterrupt
    pure (.jump 0)) s

/-- BRK: interrupt entry with `opaddr + 2`, `P | 0x30` and the BRK vector; its cycles are ticked at the end of the
instruction (R149). -/
def execBrk (s : State) : Outcome :=
  perform .brk (do
    let ret ← getS fun s => s.pc + 1
    let p ← getS (·.p)
    enterInterrupt ret (p ||| 0x30) 0 brkVector
    pure (.jump 0)) s

/-- BPL: branch when N = 0 (R151). -/
def execBpl (d : Byte) (s : State) : Outcome :=
  perform (.bpl d) (branch (fun s => s.flag .n == false) d) s

/-- BMI: branch when N = 1 (R152). -/
def execBmi (d : Byte) (s : State) : Outcome :=
  perform (.bmi d) (branch (fun s => s.flag .n == true) d) s

/-- BVC: branch when V = 0 (R153). -/
def execBvc (d : Byte) (s : State) : Outcome :=
  perform (.bvc d) (branch (fun s => s.flag .v == false) d) s

/-- BVS: branch when V = 1 (R154). -/
def execBvs (d : Byte) (s : State) : Outcome :=
  perform (.bvs d) (branch (fun s => s.flag .v == true) d) s

/-- BCC: branch when C = 0 (R155). -/
def execBcc (d : Byte) (s : State) : Outcome :=
  perform (.bcc d) (branch (fun s => s.flag .c == false) d) s

/-- BCS: branch when C = 1 (R156). -/
def execBcs (d : Byte) (s : State) : Outcome :=
  perform (.bcs d) (branch (fun s => s.flag .c == true) d) s

/-- BNE: branch when Z = 0 (R157). -/
def execBne (d : Byte) (s : State) : Outcome :=
  perform (.bne d) (branch (fun s => s.flag .z == false) d) s

/-- BEQ: branch when Z = 1 (R158). -/
def execBeq (d : Byte) (s : State) : Outcome :=
  perform (.beq d) (branch (fun s => s.flag .z == true) d) s

end Sys2Proof.Machine
end

