-- ==== Sys2Proof/Machine/FlagOps.lean ====
section
/-! DEFINITION. The flag instructions and the documented NOP (46_flags_nop.md). -/

namespace Sys2Proof.Machine

/-- CLC: `P.C <- 0` (R159). -/
def execClc (s : State) : Outcome :=
  perform .clc (registers fun s => s.setFlag .c false) s

/-- SEC: `P.C <- 1` (R160). -/
def execSec (s : State) : Outcome :=
  perform .sec (registers fun s => s.setFlag .c true) s

/-- CLI: `P.I <- 0` (R161). -/
def execCli (s : State) : Outcome :=
  perform .cli (registers fun s => s.setFlag .i false) s

/-- SEI: `P.I <- 1` (R162). -/
def execSei (s : State) : Outcome :=
  perform .sei (registers fun s => s.setFlag .i true) s

/-- CLD: `P.D <- 0` (R163). -/
def execCld (s : State) : Outcome :=
  perform .cld (registers fun s => s.setFlag .d false) s

/-- SED: `P.D <- 1` (R164). -/
def execSed (s : State) : Outcome :=
  perform .sed (registers fun s => s.setFlag .d true) s

/-- CLV: `P.V <- 0` (R165). -/
def execClv (s : State) : Outcome :=
  perform .clv (registers fun s => s.setFlag .v false) s

/-- NOP $EA: only the tick and the PC advance happen (R166). -/
def execNop (s : State) : Outcome :=
  perform .nop (pure .next) s

end Sys2Proof.Machine
end

