-- ==== Sys2Proof/Machine/LoadStore.lean ====
section
/-! DEFINITION. Loads, stores and register transfers (41_load_store_transfer.md). -/

namespace Sys2Proof.Machine

/-- LDA: `A <- M; setNZ(A)` (R110). -/
def execLda (o : Operand) (s : State) : Outcome :=
  perform (.lda o) (readThen o fun m s => (s.setA m).setNZ m) s

/-- LDX: `X <- M; setNZ(X)` (R111). -/
def execLdx (o : Operand) (s : State) : Outcome :=
  perform (.ldx o) (readThen o fun m s => (s.setX m).setNZ m) s

/-- LDY: `Y <- M; setNZ(Y)` (R112). -/
def execLdy (o : Operand) (s : State) : Outcome :=
  perform (.ldy o) (readThen o fun m s => (s.setY m).setNZ m) s

/-- STA: `MemWrite(EA, 1, A)` (R113). -/
def execSta (o : Operand) (s : State) : Outcome :=
  perform (.sta o) (store o (·.a)) s

/-- STX: `MemWrite(EA, 1, X)` (R114). -/
def execStx (o : Operand) (s : State) : Outcome :=
  perform (.stx o) (store o (·.x)) s

/-- STY: `MemWrite(EA, 1, Y)` (R115). -/
def execSty (o : Operand) (s : State) : Outcome :=
  perform (.sty o) (store o (·.y)) s

/-- TAX: `X <- A; setNZ(X)` (R116). -/
def execTax (s : State) : Outcome :=
  perform .tax (registers fun s => (s.setX s.a).setNZ s.a) s

/-- TAY: `Y <- A; setNZ(Y)` (R117). -/
def execTay (s : State) : Outcome :=
  perform .tay (registers fun s => (s.setY s.a).setNZ s.a) s

/-- TXA: `A <- X; setNZ(A)` (R118). -/
def execTxa (s : State) : Outcome :=
  perform .txa (registers fun s => (s.setA s.x).setNZ s.x) s

/-- TYA: `A <- Y; setNZ(A)` (R119). -/
def execTya (s : State) : Outcome :=
  perform .tya (registers fun s => (s.setA s.y).setNZ s.y) s

/-- TSX: `X <- S; setNZ(X)` (R120). -/
def execTsx (s : State) : Outcome :=
  perform .tsx (registers fun s => (s.setX s.sp).setNZ s.sp) s

/-- TXS: `S <- X`, no flag (R121). -/
def execTxs (s : State) : Outcome :=
  perform .txs (registers fun s => s.setSp s.x) s

end Sys2Proof.Machine
end

