-- ==== Sys2Proof/Machine/Shift.lean ====
section
/-! DEFINITION. Shifts and rotates, accumulator and memory forms (44_shift_rotate.md). -/

namespace Sys2Proof.Machine

/-- ASL: `Shift(Asl)` (R141). -/
def execAsl (o : Operand) (s : State) : Outcome :=
  perform (.asl o) (shift o aslOf) s

/-- LSR: `Shift(Lsr)` (R142). -/
def execLsr (o : Operand) (s : State) : Outcome :=
  perform (.lsr o) (shift o lsrOf) s

/-- ROL: `Shift(Rol)` (R143). -/
def execRol (o : Operand) (s : State) : Outcome :=
  perform (.rol o) (shift o rolOf) s

/-- ROR: `Shift(Ror)` (R144). -/
def execRor (o : Operand) (s : State) : Outcome :=
  perform (.ror o) (shift o rorOf) s

end Sys2Proof.Machine
end

