-- ==== Sys2Proof/Machine/Stack.lean ====
section
/-! DEFINITION. The stack instructions (42_stack.md). -/

namespace Sys2Proof.Machine

/-- PHA: `Push(A)` (R122). -/
def execPha (s : State) : Outcome :=
  perform .pha (do
    let a ← getS (·.a)
    push a
    pure .next) s

/-- PHP: `Push(P | 0x30)`; P itself is unchanged (R123). -/
def execPhp (s : State) : Outcome :=
  perform .php (do
    let p ← getS (·.p)
    push (p ||| 0x30)
    pure .next) s

/-- PLA: `A <- Pop(); setNZ(A)` (R124). -/
def execPla (s : State) : Outcome :=
  perform .pla (do
    let v ← pop
    setS fun s => (s.setA v).setNZ v
    pure .next) s

/-- PLP: P from the popped byte, U forced to 1 and the pulled B ignored (R125). -/
def execPlp (s : State) : Outcome :=
  perform .plp (do
    pullStatus
    pure .next) s

end Sys2Proof.Machine
end

