-- ==== Sys2Proof/Machine/Undocumented.lean ====
section
/-! DEFINITION. The stable undocumented instructions (47_undocumented.md sections 1 to 4). -/

namespace Sys2Proof.Machine

/-- LAX: `A <- M; X <- M; setNZ(M)` (R167). -/
def execLax (o : Operand) (s : State) : Outcome :=
  perform (.lax o) (readThen o fun m s => ((s.setA m).setX m).setNZ m) s

/-- SAX: `MemWrite(EA, 1, A & X)` (R168). -/
def execSax (o : Operand) (s : State) : Outcome :=
  perform (.sax o) (store o fun s => s.a &&& s.x) s

/-- DCP: decrement, then `Compare(A, r)` (R169). -/
def execDcp (o : Operand) (s : State) : Outcome :=
  perform (.dcp o) (modify o (fun m => pure (m - 1)) fun r s => s.compare s.a r) s

/-- ISB: increment, then `AddC(~r & 0xFF)` (R170). -/
def execIsb (o : Operand) (s : State) : Outcome :=
  perform (.isb o) (modify o (fun m => pure (m + 1)) fun r s => s.subC r) s

/-- SLO: `Asl`, then or into A (R171). -/
def execSlo (o : Operand) (s : State) : Outcome :=
  perform (.slo o) (modify o aslOf fun r s => (s.setA (s.a ||| r)).setNZ (s.a ||| r)) s

/-- RLA: `Rol`, then and into A (R172). -/
def execRla (o : Operand) (s : State) : Outcome :=
  perform (.rla o) (modify o rolOf fun r s => (s.setA (s.a &&& r)).setNZ (s.a &&& r)) s

/-- SRE: `Lsr`, then exclusive-or into A (R173). -/
def execSre (o : Operand) (s : State) : Outcome :=
  perform (.sre o) (modify o lsrOf fun r s => (s.setA (s.a ^^^ r)).setNZ (s.a ^^^ r)) s

/-- RRA: `Ror`, then `AddC(r)` with the carry the rotate produced (R174). -/
def execRra (o : Operand) (s : State) : Outcome :=
  perform (.rra o) (modify o rorOf fun r s => s.addC r) s

/-- SBC $EB: as SBC immediate (R175). -/
def execSbcEB (v : Byte) (s : State) : Outcome :=
  perform (.sbcEB v) (registers fun s => s.subC v) s

/-- ANC ($0B, $2B): `A <- A & M; setNZ(A); P.C <- A[7]` (R176). -/
def execAnc (op : Byte) (v : Byte) (s : State) : Outcome :=
  perform (.anc op v) (registers fun s =>
    ((s.setA (s.a &&& v)).setNZ (s.a &&& v)).setFlag .c ((s.a &&& v).getLsbD 7)) s

/-- ALR: `A <- Lsr(A & M); setNZ(A)` (R177). -/
def execAlr (v : Byte) (s : State) : Outcome :=
  perform (.alr v) (do
    let a ← getS (·.a)
    let r ← lsrOf (a &&& v)
    setS fun s => (s.setA r).setNZ r
    pure .next) s

/-- ARR: and, rotate right through C, then C and V from bits 6 and 5 of the result (R178). -/
def execArr (v : Byte) (s : State) : Outcome :=
  perform (.arr v) (registers fun s =>
    let r := ((s.a &&& v) >>> 1) ||| (carryByte (s.flag .c) <<< 7)
    (((s.setA r).setNZ r).setFlag .c (r.getLsbD 6)).setFlag .v (r.getLsbD 6 ^^ r.getLsbD 5)) s

/-- SBX: `t <- A & X; P.C <- (t >= M); X <- t - M; setNZ(X)` (R179). -/
def execSbx (v : Byte) (s : State) : Outcome :=
  perform (.sbx v) (registers fun s =>
    let t := s.a &&& s.x
    (((s.setFlag .c (decide (v ≤ t))).setX (t - v)).setNZ (t - v))) s

/-- LAS: `v <- M & S; A <- v; X <- v; S <- v; setNZ(v)` (R180). -/
def execLas (a : Addr) (s : State) : Outcome :=
  perform (.las a) (readThen (.absY a) fun m s =>
    (((s.setA (m &&& s.sp)).setX (m &&& s.sp)).setSp (m &&& s.sp)).setNZ (m &&& s.sp)) s

/-- The implied undocumented NOPs: as NOP $EA (R181). -/
def execNopImplied (op : Byte) (s : State) : Outcome :=
  perform (.nopImplied op) (pure .next) s

/-- The immediate undocumented NOPs: the operand byte was read by the fetch and is discarded (R182). -/
def execNopImmediate (op : Byte) (v : Byte) (s : State) : Outcome :=
  perform (.nopImmediate op v) (pure .next) s

/-- The memory undocumented NOPs: the byte at EA is read, with its side effects, and discarded (R183). -/
def execNopMemory (op : Byte) (o : Operand) (s : State) : Outcome :=
  perform (.nopMemory op o) (readThen o fun _ s => s) s

end Sys2Proof.Machine
end

