-- ==== Sys2Proof/Machine/Unstable.lean ====
section
/-! DEFINITION. JAM and the unstable opcodes (47_undocumented.md sections 5 and 6). -/

namespace Sys2Proof.Machine

/-- Perform an unstable instruction: `UnmappedOpcode` while `UNSTABLE_OPCODES` is Fatal, its formula otherwise
(R185). -/
def performUnstable (i : Instr) (body : Act Flow) (s : State) : Outcome :=
  performOp i (fun op => do
    requireExecutable op
    body) s

/-- `v` of `HighAndStore` (R185): the value stored. -/
def highAndValue (value : Byte) (base : Addr) : Byte := value &&& (hi base + 1)

/-- `addr` of `HighAndStore` (R185): the address stored to. Where the index crosses a page the stored value
replaces the address's high byte. -/
def highAndAddr (value : Byte) (base : Addr) (index : Byte) : Addr :=
  let addr := base + index.setWidth 16
  if hi addr ≠ hi base then w16 (highAndValue value base) (lo addr) else addr

/-- `HighAndStore(value, base, index)` (R185). -/
def highAndStore (value : Byte) (base : Addr) (index : Byte) : Act Unit :=
  busWrite (highAndAddr value base index) (highAndValue value base)

/-- The `base` of SHA: the operand of abs,Y, or the pointer of (zp),Y before the index is added (R185). The
other forms are no forms of SHA; `PC1` stands in their arms. -/
def shaBase : Operand → Act Addr
  | .absY a => pure a
  | .indY z => zeroPagePointer z
  | .acc | .imm _ | .zp _ | .zpX _ | .zpY _ | .abs _ | .absX _ | .ind _ | .indX _ => getS (·.pc)

/-- JAM: `raise Fault(UnmappedOpcode)` in both modes (R184). -/
def execJam (op : Byte) (s : State) : Outcome :=
  performOp (.jam op) raiseUnmapped s

/-- ANE: `A <- (A | ANE_MAGIC) & X & M; setNZ(A)` (R186). -/
def execAne (v : Byte) (s : State) : Outcome :=
  performUnstable (.ane v) (do
    setS fun s =>
      let r := (s.a ||| s.launch.aneMagic) &&& s.x &&& v
      (s.setA r).setNZ r
    pure .next) s

/-- LXA: `v <- (A | LXA_MAGIC) & M; A <- v; X <- v; setNZ(v)` (R187). -/
def execLxa (v : Byte) (s : State) : Outcome :=
  performUnstable (.lxa v) (do
    setS fun s =>
      let r := (s.a ||| s.launch.lxaMagic) &&& v
      ((s.setA r).setX r).setNZ r
    pure .next) s

/-- SHA: `HighAndStore(A & X, base, Y)` (R188). -/
def execSha (o : Operand) (s : State) : Outcome :=
  performUnstable (.sha o) (do
    let base ← shaBase o
    let value ← getS fun s => s.a &&& s.x
    let y ← getS (·.y)
    highAndStore value base y
    pure .next) s

/-- SHX: `HighAndStore(X, base, Y)` (R189). -/
def execShx (a : Addr) (s : State) : Outcome :=
  performUnstable (.shx a) (do
    let x ← getS (·.x)
    let y ← getS (·.y)
    highAndStore x a y
    pure .next) s

/-- SHY: `HighAndStore(Y, base, X)` (R190). -/
def execShy (a : Addr) (s : State) : Outcome :=
  performUnstable (.shy a) (do
    let y ← getS (·.y)
    let x ← getS (·.x)
    highAndStore y a x
    pure .next) s

/-- TAS: `S <- A & X; HighAndStore(S, base, Y)`; a faulting store leaves S written (R191). -/
def execTas (a : Addr) (s : State) : Outcome :=
  performUnstable (.tas a) (do
    setS fun s => s.setSp (s.a &&& s.x)
    let sp ← getS (·.sp)
    let y ← getS (·.y)
    highAndStore sp a y
    pure .next) s

end Sys2Proof.Machine
end

