-- ==== Sys2Proof/Machine/Step.lean ====
section
/-! DEFINITION. One step of the machine: one iteration of the run loop (60_exceptions.md R196). -/

namespace Sys2Proof.Machine

/-- One loop iteration: a pending NMI is serviced (step (a)), the step observer does nothing (step (b), R209),
the instruction is fetched (step (c)) and executed (steps (d), (e), (f), in `exec`). A state with a fault has no
next step (R43, R192). -/
def step (s : State) : Host.Outcome State Fault Refusal :=
  match s.fault with
  | some k => .fault (.halted k)
  | none =>
    match (do pollNmi; fetch : Act Instr) s with
    | .ok i t => exec i t
    | .error k t => .fault (.fatal k (t.setFault k))

/-- `s` with the instruction whose bits are `w` (the bits at and above `nbits` zero, up to three bytes) placed
where `step` fetches next. A pending NMI and a recorded fault would keep `step` from fetching there, so they are
cleared; where no program byte can be placed at PC, PC is moved to $0200. -/
def State.withFetchWord (s : State) (nbits w : Nat) : State :=
  let v := w % 2 ^ nbits
  let s := { s with fault := none, ppu := { s.ppu with nmiEdge := false } }
  let s := if storable s.pc && storable (s.pc + 1) && storable (s.pc + 2) then s else s.setPc 0x0200
  ((s.place s.pc (BitVec.ofNat 8 v)).place (s.pc + 1) (BitVec.ofNat 8 (v / 256))).place (s.pc + 2)
    (BitVec.ofNat 8 (v / 65536))

end Sys2Proof.Machine
end

