-- ==== Sys2Proof/Safety.lean ====
section
/-! DEFINITION. The terms in which claims are stated: the CPU, the devices and the clock as separate views of a
state, what a completed instruction leaves, which instructions may write what, and the invariants of a run. -/

namespace Sys2Proof.Machine

/-! ## Views of a state

`cpu`, `pc`, `devices` and `clock` together hold every field of a state. -/

/-- The flags of P by name (10_state.md R20). -/
structure FlagValues where
  c : Bool
  z : Bool
  i : Bool
  d : Bool
  b : Bool
  u : Bool
  v : Bool
  n : Bool
  deriving DecidableEq, Repr

/-- All eight bits of P as flags. -/
def State.flags (s : State) : FlagValues where
  c := s.flag .c
  z := s.flag .z
  i := s.flag .i
  d := s.flag .d
  b := s.flag .b
  u := s.flag .u
  v := s.flag .v
  n := s.flag .n

/-- The CPU registers other than PC. -/
structure Cpu where
  a : Byte
  x : Byte
  y : Byte
  sp : Byte
  flags : FlagValues
  deriving DecidableEq, Repr

/-- The CPU registers of a state. -/
def State.cpu (s : State) : Cpu where
  a := s.a
  x := s.x
  y := s.y
  sp := s.sp
  flags := s.flags

/-- What lies outside the CPU and is not moved by the passing of time. -/
structure Devices where
  ram : Memory
  ctrl : Byte
  mask : Byte
  oamAddr : Byte
  scrollX : Byte
  scrollY : Byte
  scrollLatch : Bool
  addr : VAddr
  addrLatch : Bool
  readBuf : Byte
  vram : Memory
  palette : Memory
  oam : Memory
  strobe : Bool
  cursor : Nat
  fault : Option FaultKind
  launch : Launch
  deriving DecidableEq, Repr

/-- The devices of a state. -/
def State.devices (s : State) : Devices where
  ram := s.ram
  ctrl := s.ppu.ctrl
  mask := s.ppu.mask
  oamAddr := s.ppu.oamAddr
  scrollX := s.ppu.scrollX
  scrollY := s.ppu.scrollY
  scrollLatch := s.ppu.scrollLatch
  addr := s.ppu.addr
  addrLatch := s.ppu.addrLatch
  readBuf := s.ppu.readBuf
  vram := s.ppu.vram
  palette := s.ppu.palette
  oam := s.ppu.oam
  strobe := s.joy.strobe
  cursor := s.joy.cursor
  fault := s.fault
  launch := s.launch

/-- What the bus tick moves: the counters, the vblank flag and NMI edge it may set, and the button byte the host
may leave (60_exceptions.md R204-R209). -/
structure Clock where
  cycles : Nat
  dot : Nat
  scanline : Nat
  vblank : Bool
  nmiEdge : Bool
  buttons : Byte
  frames : Nat
  deriving DecidableEq, Repr

/-- The clock of a state. -/
def State.clock (s : State) : Clock where
  cycles := s.cycles
  dot := s.ppu.dot
  scanline := s.ppu.scanline
  vblank := s.ppu.vblank
  nmiEdge := s.ppu.nmiEdge
  buttons := s.joy.buttons
  frames := s.frames

/-- Flags after `setNZ(v)` (00_scope.md R11). -/
def FlagValues.nz (f : FlagValues) (v : Byte) : FlagValues := { f with z := decide (v = 0), n := v.getLsbD 7 }

/-- The registers of a state by name. -/
inductive Reg where
  | a | x | y | sp
  deriving DecidableEq, Repr

/-- The value of a register. -/
def State.reg (s : State) : Reg → Byte
  | .a => s.a
  | .x => s.x
  | .y => s.y
  | .sp => s.sp

/-! ## Results of the CPU rules, in integer arithmetic -/

/-- `A <- v; setNZ(v)`. -/
def Cpu.loadA (c : Cpu) (v : Byte) : Cpu := { c with a := v, flags := c.flags.nz v }

/-- `X <- v; setNZ(v)`. -/
def Cpu.loadX (c : Cpu) (v : Byte) : Cpu := { c with x := v, flags := c.flags.nz v }

/-- `Y <- v; setNZ(v)`. -/
def Cpu.loadY (c : Cpu) (v : Byte) : Cpu := { c with y := v, flags := c.flags.nz v }

/-- `AddC(m)` (43_arithmetic_logic.md R126): A is `A + m + C` modulo 256, C says that the sum is over 255, V that
the sum of the signed values does not fit in a byte. -/
def Cpu.addC (c : Cpu) (m : Byte) : Cpu :=
  let carry := c.flags.c.toNat
  let sum := c.a.toNat + m.toNat + carry
  let signed : Int := c.a.toInt + m.toInt + carry
  { c.loadA (BitVec.ofNat 8 sum) with
    flags :=
      { c.flags.nz (BitVec.ofNat 8 sum) with
        c := decide (255 < sum), v := decide (signed < -128 ∨ 127 < signed) } }

/-- `Compare(r, m)` (R132). -/
def Cpu.compare (c : Cpu) (r m : Byte) : Cpu :=
  { c with flags := { c.flags.nz (r - m) with c := decide (m.toNat ≤ r.toNat) } }

/-- A flag written to C, as the shifts do before their result is stored (44_shift_rotate.md). -/
def Cpu.carry (c : Cpu) (b : Bool) : Cpu := { c with flags := { c.flags with c := b } }

/-- The flags after a pull of the byte `v`: U is 1, B keeps its value (42_stack.md R125). -/
def FlagValues.pulled (f : FlagValues) (v : Byte) : FlagValues where
  c := v.getLsbD 0
  z := v.getLsbD 1
  i := v.getLsbD 2
  d := v.getLsbD 3
  b := f.b
  u := true
  v := v.getLsbD 6
  n := v.getLsbD 7

/-- The four shifts and rotates (R141 to R144). -/
inductive Shift where
  | asl | lsr | rol | ror
  deriving DecidableEq, Repr

/-- The instruction of a shift. -/
def Shift.instr : Shift → Operand → Instr
  | .asl => .asl
  | .lsr => .lsr
  | .rol => .rol
  | .ror => .ror

/-- The undocumented instruction that composes a shift of memory with an operation on A (47_undocumented.md R171
to R174). -/
def Shift.composition : Shift → Operand → Instr
  | .asl => .slo
  | .lsr => .sre
  | .rol => .rla
  | .ror => .rra

/-- The result of a shift of `m` with carry `c` in. -/
def Shift.result (k : Shift) (c : Bool) (m : Byte) : Byte :=
  match k with
  | .asl => BitVec.ofNat 8 (2 * m.toNat)
  | .lsr => BitVec.ofNat 8 (m.toNat / 2)
  | .rol => BitVec.ofNat 8 (2 * m.toNat + c.toNat)
  | .ror => BitVec.ofNat 8 (m.toNat / 2 + 128 * c.toNat)

/-- The carry a shift of `m` leaves. -/
def Shift.carryOut (k : Shift) (m : Byte) : Bool :=
  match k with
  | .asl | .rol => decide (128 ≤ m.toNat)
  | .lsr | .ror => decide (m.toNat % 2 = 1)

/-! ## What a completed instruction leaves -/

end Sys2Proof.Machine

namespace Sys2Proof

/-- The base cycle cost of an instruction (30_encoding.md R102). -/
def Instr.cycles (i : Instr) : Nat :=
  match i.opcode with
  | some op => Machine.cyclesOf op
  | none => 0

/-! ## Which instructions may write what -/

/-- How an instruction uses the byte at its effective address (30_encoding.md R101). -/
inductive StoreShape where
  /-- Nothing is stored there. -/
  | none
  /-- One store and no data read. -/
  | write (o : Operand)
  /-- One read, then one store. -/
  | modify (o : Operand)
  deriving DecidableEq, Repr

/-- The store of an instruction to its effective address: the write and the read-modify-write instructions in
their memory forms (R101), less the unstable stores. -/
def Instr.store : Instr → StoreShape
  | .sta o | .stx o | .sty o | .sax o => .write o
  | .inc o | .dec o | .dcp o | .isb o | .slo o | .rla o | .sre o | .rra o => .modify o
  | .asl o | .lsr o | .rol o | .ror o => if o = .acc then .none else .modify o
  | .lda _ | .ldx _ | .ldy _ | .tax | .tay | .txa | .tya | .tsx | .txs | .pha | .php | .pla | .plp => .none
  | .adc _ | .sbc _ | .and _ | .ora _ | .eor _ | .bit _ | .cmp _ | .cpx _ | .cpy _ => .none
  | .inx | .iny | .dex | .dey | .jmp _ | .jsr _ | .rts | .rti | .brk => .none
  | .bpl _ | .bmi _ | .bvc _ | .bvs _ | .bcc _ | .bcs _ | .bne _ | .beq _ => .none
  | .clc | .sec | .cli | .sei | .cld | .sed | .clv | .nop | .lax _ | .sbcEB _ | .anc _ _ | .alr _ => .none
  | .arr _ | .sbx _ | .las _ | .nopImplied _ | .nopImmediate _ _ | .nopMemory _ _ | .jam _ => .none
  | .ane _ | .lxa _ | .sha _ | .shx _ | .shy _ | .tas _ => .none

/-- The operand of a read instruction (R101); none for a rule whose only form is an immediate byte, which the fetch
has read. -/
def Instr.operandRead : Instr → Option Operand
  | .lda o | .ldx o | .ldy o | .lax o | .adc o | .sbc o | .and o | .ora o | .eor o | .bit o => some o
  | .cmp o | .cpx o | .cpy o | .nopMemory _ o => some o
  | .las a => some (.absY a)
  | .sta _ | .stx _ | .sty _ | .tax | .tay | .txa | .tya | .tsx | .txs | .pha | .php | .pla | .plp => none
  | .inc _ | .dec _ | .inx | .iny | .dex | .dey | .asl _ | .lsr _ | .rol _ | .ror _ | .jmp _ => none
  | .jsr _ | .rts | .rti | .brk | .bpl _ | .bmi _ | .bvc _ | .bvs _ | .bcc _ | .bcs _ | .bne _ => none
  | .beq _ | .clc | .sec | .cli | .sei | .cld | .sed | .clv | .nop | .sax _ | .dcp _ | .isb _ => none
  | .slo _ | .rla _ | .sre _ | .rra _ | .sbcEB _ | .anc _ _ | .alr _ | .arr _ | .sbx _ => none
  | .nopImplied _ | .nopImmediate _ _ | .jam _ | .ane _ | .lxa _ | .sha _ | .shx _ | .shy _ | .tas _ => none

/-- How many bytes an instruction pushes (42_stack.md, 45_control_flow.md). -/
def Instr.pushCount : Instr → Nat
  | .pha | .php => 1
  | .jsr _ => 2
  | .brk => 3
  | .lda _ | .ldx _ | .ldy _ | .sta _ | .stx _ | .sty _ | .tax | .tay | .txa | .tya | .tsx | .txs => 0
  | .pla | .plp | .adc _ | .sbc _ | .and _ | .ora _ | .eor _ | .bit _ | .cmp _ | .cpx _ | .cpy _ => 0
  | .inc _ | .dec _ | .inx | .iny | .dex | .dey | .asl _ | .lsr _ | .rol _ | .ror _ | .jmp _ => 0
  | .rts | .rti | .bpl _ | .bmi _ | .bvc _ | .bvs _ | .bcc _ | .bcs _ | .bne _ | .beq _ => 0
  | .clc | .sec | .cli | .sei | .cld | .sed | .clv | .nop | .lax _ | .sax _ | .dcp _ | .isb _ => 0
  | .slo _ | .rla _ | .sre _ | .rra _ | .sbcEB _ | .anc _ _ | .alr _ | .arr _ | .sbx _ | .las _ => 0
  | .nopImplied _ | .nopImmediate _ _ | .nopMemory _ _ | .jam _ | .ane _ | .lxa _ => 0
  | .sha _ | .shx _ | .shy _ | .tas _ => 0

/-- The four high-byte-AND stores (47_undocumented.md R188-R191). -/
def Instr.isUnstableStore : Instr → Bool
  | .sha _ | .shx _ | .shy _ | .tas _ => true
  | .lda _ | .ldx _ | .ldy _ | .sta _ | .stx _ | .sty _ | .tax | .tay | .txa | .tya | .tsx | .txs => false
  | .pha | .php | .pla | .plp | .adc _ | .sbc _ | .and _ | .ora _ | .eor _ | .bit _ | .cmp _ => false
  | .cpx _ | .cpy _ | .inc _ | .dec _ | .inx | .iny | .dex | .dey | .asl _ | .lsr _ | .rol _ => false
  | .ror _ | .jmp _ | .jsr _ | .rts | .rti | .brk | .bpl _ | .bmi _ | .bvc _ | .bvs _ | .bcc _ => false
  | .bcs _ | .bne _ | .beq _ | .clc | .sec | .cli | .sei | .cld | .sed | .clv | .nop | .lax _ => false
  | .sax _ | .dcp _ | .isb _ | .slo _ | .rla _ | .sre _ | .rra _ | .sbcEB _ | .anc _ _ | .alr _ => false
  | .arr _ | .sbx _ | .las _ | .nopImplied _ | .nopImmediate _ _ | .nopMemory _ _ | .jam _ => false
  | .ane _ | .lxa _ => false

/-- The registers an instruction's rule writes (41 to 47); the stack instructions move S. -/
def Instr.registersWritten : Instr → List Machine.Reg
  | .lda _ | .txa | .tya | .adc _ | .sbc _ | .and _ | .ora _ | .eor _ | .isb _ | .slo _ | .rla _ => [.a]
  | .sre _ | .rra _ | .sbcEB _ | .anc _ _ | .alr _ | .arr _ | .ane _ => [.a]
  | .asl o | .lsr o | .rol o | .ror o => if o = .acc then [.a] else []
  | .ldx _ | .tax | .tsx | .inx | .dex | .sbx _ => [.x]
  | .ldy _ | .tay | .iny | .dey => [.y]
  | .txs | .pha | .php | .plp | .jsr _ | .rts | .rti | .brk | .tas _ => [.sp]
  | .pla => [.a, .sp]
  | .lax _ | .lxa _ => [.a, .x]
  | .las _ => [.a, .x, .sp]
  | .sta _ | .stx _ | .sty _ | .bit _ | .cmp _ | .cpx _ | .cpy _ | .inc _ | .dec _ | .jmp _ => []
  | .bpl _ | .bmi _ | .bvc _ | .bvs _ | .bcc _ | .bcs _ | .bne _ | .beq _ => []
  | .clc | .sec | .cli | .sei | .cld | .sed | .clv | .nop | .sax _ | .dcp _ => []
  | .nopImplied _ | .nopImmediate _ _ | .nopMemory _ _ | .jam _ | .sha _ | .shx _ | .shy _ => []

/-- The flags an instruction writes: the lists of 10_state.md R21. PLP and RTI force U to 1 (R22), so U stands
in their list. -/
def Instr.flagsWritten : Instr → List Machine.Flag
  | .adc _ | .sbc _ | .rra _ | .isb _ | .arr _ | .sbcEB _ => [.c, .z, .v, .n]
  | .cmp _ | .cpx _ | .cpy _ | .asl _ | .lsr _ | .rol _ | .ror _ | .slo _ | .rla _ | .sre _ => [.c, .z, .n]
  | .dcp _ | .anc _ _ | .alr _ | .sbx _ => [.c, .z, .n]
  | .lda _ | .ldx _ | .ldy _ | .tax | .tay | .txa | .tya | .tsx | .pla | .and _ | .ora _ | .eor _ => [.z, .n]
  | .inc _ | .dec _ | .inx | .iny | .dex | .dey | .lax _ | .las _ | .ane _ | .lxa _ => [.z, .n]
  | .bit _ => [.z, .v, .n]
  | .clc | .sec => [.c]
  | .cli | .sei | .brk => [.i]
  | .cld | .sed => [.d]
  | .clv => [.v]
  | .plp | .rti => [.c, .z, .i, .d, .u, .v, .n]
  | .sta _ | .stx _ | .sty _ | .txs | .pha | .php | .jmp _ | .jsr _ | .rts => []
  | .bpl _ | .bmi _ | .bvc _ | .bvs _ | .bcc _ | .bcs _ | .bne _ | .beq _ | .nop | .sax _ => []
  | .nopImplied _ | .nopImmediate _ _ | .nopMemory _ _ | .jam _ | .sha _ | .shx _ | .shy _ | .tas _ => []

end Sys2Proof

namespace Sys2Proof.Machine

/-- `t` is where instruction `i`, run from `s`, ends without a redirect: the registers are `c`, PC stands after
the operand bytes, the devices are those of `mid` (the state after the instruction's bus accesses) and the base
cost has passed since `mid` (R88, R102, R196). -/
def State.Completed (t : State) (i : Instr) (s mid : State) (c : Cpu) : Prop :=
  t.cpu = c ∧ t.pc = s.pc + BitVec.ofNat 16 (i.length - 1) ∧ t.devices = mid.devices ∧
    t.clock = (tick i.cycles mid).clock

/-- As `Completed`, for an instruction that redirected PC to `target` at `extra` cycles over its base cost. -/
def State.Jumped (t : State) (i : Instr) (mid : State) (c : Cpu) (target : Addr) (extra : Nat) : Prop :=
  t.cpu = c ∧ t.pc = target ∧ t.devices = mid.devices ∧ t.clock = (tick (i.cycles + extra) mid).clock

/-- A state whose RAM has been pushed to: bytes stored from S downwards inside page 1 (10_state.md R17, R18). -/
def State.withPushed (s : State) : List Byte → State
  | [] => s
  | b :: bs => ((s.setRam (0x100 + s.sp.toNat) b).setSp (s.sp - 1)).withPushed bs

/-- The byte of the stack page at S plus `n`, with S wrapping modulo 256 (10_state.md R17). -/
def State.stackByte (s : State) (n : Byte) : Byte := Memory.read s.ram (0x100 + (s.sp + n).toNat)

/-- Every byte of every writable memory reads the same. -/
def SameMemory (s t : State) : Prop :=
  ∀ k, Memory.read t.ram k = Memory.read s.ram k ∧ Memory.read t.ppu.vram k = Memory.read s.ppu.vram k ∧
    Memory.read t.ppu.palette k = Memory.read s.ppu.palette k ∧ Memory.read t.ppu.oam k = Memory.read s.ppu.oam k

/-! ## Invariants of a run -/

/-- Bits 4 and 5 of P (10_state.md R22). -/
def State.StatusOk (s : State) : Prop := s.flag .b = false ∧ s.flag .u = true

/-- The ranges of the PPU counters (10_state.md R40). -/
def State.ClockOk (s : State) : Prop := s.ppu.dot < 341 ∧ s.ppu.scanline < 262

/-- The range of the joypad cursor (10_state.md R42). -/
def State.CursorOk (s : State) : Prop := s.joy.cursor ≤ 8

/-- Every writable memory is in canonical form and inside its size (10_state.md R24, R27-R29). -/
def State.MemoriesOk (s : State) : Prop :=
  (Memory.wf s.ram ∧ Memory.within s.ram 2048) ∧ (Memory.wf s.ppu.vram ∧ Memory.within s.ppu.vram 2048) ∧
    (Memory.wf s.ppu.palette ∧ Memory.within s.ppu.palette 32) ∧
    (Memory.wf s.ppu.oam ∧ Memory.within s.ppu.oam 256)

/-- What holds in every state a run reaches. -/
structure State.Inv (s : State) : Prop where
  status : s.StatusOk
  clock : s.ClockOk
  cursor : s.CursorOk
  memories : s.MemoriesOk
  noFault : s.fault = none

/-- The PPU stands where the cycle count says: three dots a cycle around a frame of 341 × 262 dots (R204, R205). -/
def State.InPhase (s : State) : Prop := s.ppu.scanline * 341 + s.ppu.dot = 3 * s.cycles % 89342

/-- Power-on memory contents in canonical form and inside their sizes. -/
def MemoryInit.ok (m : MemoryInit) : Prop :=
  (Memory.wf m.ram ∧ Memory.within m.ram 2048) ∧ (Memory.wf m.vram ∧ Memory.within m.vram 2048) ∧
    (Memory.wf m.palette ∧ Memory.within m.palette 32) ∧ (Memory.wf m.oam ∧ Memory.within m.oam 256)

end Sys2Proof.Machine
end

