-- ==== Sys2Proof/Certificates/Slice0/Obligations.lean ====
section
/-! DEFINITION. The statements about the model. In each, `s.pc` stands where `exec` finds it: at `PC1`, the byte
after the opcode (30_encoding.md R88). -/

open Sys2Proof Sys2Proof.Machine

/-! ## Encoding -/

/-- Decoding the bytes of a well-formed instruction gives it back, with every operand, and leaves the bytes after
it (30_encoding.md R85, R103). -/
def Obligations.DecodeOfEncode : Prop :=
  ∀ (i : Instr) (rest : List Byte), WellFormed i → decode (encode i ++ rest) = .ok (i, rest)

/-- Every decoded instruction is well formed and its bytes are the ones decoded, as many as its length (R85). -/
def Obligations.EncodeOfDecode : Prop :=
  ∀ (bytes rest : List Byte) (i : Instr), decode bytes = .ok (i, rest) →
    WellFormed i ∧ bytes = encode i ++ rest ∧ (encode i).length = i.length

/-- Every opcode byte decodes, and it alone fixes the addressing form, the length and the base cost (R85, R86,
R87). -/
def Obligations.OpcodeAloneFixesTheForm : Prop :=
  ∀ op : Byte, ∃ m : Mode, ∀ (b1 b2 : Byte) (rest : List Byte), ∃ i : Instr,
    decode (op :: b1 :: b2 :: rest) = .ok (i, (b1 :: b2 :: rest).drop (i.length - 1)) ∧
      i.opcode = some op ∧ i.mode = m ∧ i.length = m.length ∧ 1 ≤ i.length ∧ i.length ≤ 3 ∧
        i.cycles = cyclesOf op

/-- Words written out from the opcode map and the encoding lines of the spec decode to their instructions. -/
def Obligations.SpecWordsDecode : Prop :=
  decode [0xA9, 0x05] = .ok (.lda (.imm 0x05), []) ∧
  decode [0xAD, 0x34, 0x12] = .ok (.lda (.abs 0x1234), []) ∧
  decode [0x96, 0xFF] = .ok (.stx (.zpY 0xFF), []) ∧
  decode [0x48] = .ok (.pha, []) ∧
  decode [0xE9, 0x03] = .ok (.sbc (.imm 0x03), []) ∧
  decode [0x0A] = .ok (.asl .acc, []) ∧
  decode [0x46, 0x20] = .ok (.lsr (.zp 0x20), []) ∧
  decode [0x6C, 0xFF, 0x01] = .ok (.jmp (.ind 0x01FF), []) ∧
  decode [0x20, 0x00, 0x90] = .ok (.jsr 0x9000, []) ∧
  decode [0x10, 0xFC] = .ok (.bpl 0xFC, []) ∧
  decode [0x78] = .ok (.sei, []) ∧
  decode [0xC7, 0x10] = .ok (.dcp (.zp 0x10), []) ∧
  decode [0x2B, 0x80] = .ok (.anc 0x2B 0x80, []) ∧
  decode [0x0C, 0x02, 0x20] = .ok (.nopMemory 0x0C (.abs 0x2002), []) ∧
  decode [0x02] = .ok (.jam 0x02, []) ∧
  decode [0x9F, 0x00, 0x02] = .ok (.sha (.absY 0x0200), [])

/-! ## The step -/

/-- A step runs the decoded instruction. Where no fault is recorded, no NMI is pending and the bytes at PC are
plain bytes (RAM, PRG, stub or unmapped) that decode to `i`, the step is `exec` of `i` with PC moved past the
opcode byte. Anywhere, a register window included, an executable opcode byte read at PC and the operand bytes read
after it, in ascending order, are the instruction that runs from the state those reads leave. A fetch that faults is
the step's fault: at the opcode, as from a write-only PPU slot, with PC not moved, and at an operand byte with PC one
past the opcode (60_exceptions.md R196, R192, 20_memory.md R82). -/
def Obligations.StepRunsTheDecodedInstruction : Prop :=
  (∀ (s : State) (bytes : List Byte) (i : Instr), s.fault = none → s.ppu.nmiEdge = false →
    decode bytes = .ok (i, []) → (∀ k < bytes.length, s.peek (s.pc + BitVec.ofNat 16 k) = bytes[k]?) →
      step s = exec i (s.setPc (s.pc + 1))) ∧
  (∀ (s u t : State) (op : Byte) (operands : List Byte) (i : Instr), s.fault = none → s.ppu.nmiEdge = false →
    decode (op :: operands) = .ok (i, []) → executable s.launch.unstable op = true →
    busRead s.pc s = .ok op u →
      (readRun (s.pc + 1) operands.length (u.setPc (s.pc + 1)) = .ok operands t → step s = exec i t) ∧
      ∀ k, readRun (s.pc + 1) operands.length (u.setPc (s.pc + 1)) = .error k t →
        step s = .fault (.fatal k (t.setFault k)) ∧ t.pc = s.pc + 1) ∧
  ∀ (s u : State) (k : FaultKind), s.fault = none → s.ppu.nmiEdge = false → busRead s.pc s = .error k u →
    step s = .fault (.fatal k (u.setFault k)) ∧ u.pc = s.pc

/-- A pending NMI is serviced before the fetch, once: the step fetches and runs the handler's first instruction
from the state the service leaves, without looking at the edge again (R197, R198, R199). -/
def Obligations.PendingNmiIsServicedBeforeTheFetch : Prop :=
  ∀ s : State, s.fault = none → s.ppu.nmiEdge = true → ∃ t : State, pollNmi s = .ok () t ∧
    t.cpu = { s.cpu with sp := s.sp - 3, flags := { s.flags with i := true } } ∧
    t.pc = w16 (s.launch.prgByte 0xFFFB) (s.launch.prgByte 0xFFFA) ∧
    t.devices = (s.withPushed [hi s.pc, lo s.pc, (s.p &&& 0xEF) ||| 0x20]).devices ∧
    t.clock = (tick 7 (s.setPpu { s.ppu with nmiEdge := false })).clock ∧
    step s =
      match fetch t with
      | .ok i u => exec i u
      | .error k u => .fault (.fatal k (u.setFault k))

/-- A state that holds a fault has no next step, and every fault a step raises is recorded in the state it leaves
(10_state.md R43, R192). -/
def Obligations.FaultedStateHasNoNextStep : Prop :=
  (∀ (s : State) (k : FaultKind), s.fault = some k → step s = .fault (.halted k)) ∧
  (∀ (s t : State) (k : FaultKind), step s = .fault (.fatal k t) → t.fault = some k ∧ step t = .fault (.halted k))

/-- An instruction term is refused exactly where no opcode byte encodes it, and a step refuses nothing: every
byte that can be fetched runs or raises a fault of the spec (R87, R106). -/
def Obligations.StepRefusesNothing : Prop :=
  (∀ (i : Instr) (s : State) (r : Refusal), exec i s = .refused r ↔ ¬ WellFormed i ∧ r = .noEncoding) ∧
  (∀ (s : State) (r : Refusal), step s ≠ .refused r)

/-- Fetching a JAM byte, or an unstable byte under Fatal, raises `UnmappedOpcode` with the opcode and its address; no
operand byte is read, PC is past the opcode, nothing is ticked and nothing changes but by the fetch's own read. So
do the meanings of
those instructions, which stop on every path for JAM (30_encoding.md R105, 60_exceptions.md R194, 47_undocumented.md
R184, R185). -/
def Obligations.UnmappedOpcodeFaults : Prop :=
  (∀ (s u : State) (op : Byte), s.fault = none → s.ppu.nmiEdge = false → busRead s.pc s = .ok op u →
    (op ∈ [0x02#8, 0x12#8, 0x22#8, 0x32#8, 0x42#8, 0x52#8, 0x62#8, 0x72#8, 0x92#8, 0xB2#8, 0xD2#8, 0xF2#8] ∨
      s.launch.unstable = .fatal ∧ op ∈ [0x8B#8, 0xAB#8, 0x93#8, 0x9B#8, 0x9C#8, 0x9E#8, 0x9F#8]) →
        step s = .fault (.fatal (.unmappedOpcode op s.pc)
          ((u.setPc (s.pc + 1)).setFault (.unmappedOpcode op s.pc)))) ∧
  ∀ (i : Instr) (s : State) (op : Byte), i.opcode = some op →
    (i = .jam op ∨ s.launch.unstable = .fatal ∧ op ∈ [0x8B#8, 0xAB#8, 0x93#8, 0x9B#8, 0x9C#8, 0x9E#8, 0x9F#8]) →
      exec i s = .fault (.fatal (.unmappedOpcode op (s.pc - 1)) (s.setFault (.unmappedOpcode op (s.pc - 1))))

/-! ## Reset and power-on -/

/-- The state after power-on and one `Reset()`: the values of 10_state.md section 5, for every cartridge and every
power-on memory contents; and a second `reset()` writes only P, S and PC (R23, R214, R215, R216, R217). -/
def Obligations.ResetValues : Prop :=
  (∀ (l : Launch) (m : MemoryInit), let s := State.initial l m
    (s.a = 0x00 ∧ s.x = 0x00 ∧ s.y = 0x00 ∧ s.sp = 0xFD ∧ s.p = 0x24) ∧
    read16 0xFFFC s = .ok s.pc s ∧
    (s.ppu.ctrl = 0 ∧ s.ppu.mask = 0 ∧ s.ppu.oamAddr = 0 ∧ s.ppu.scrollX = 0 ∧ s.ppu.scrollY = 0 ∧
      s.ppu.addr = 0 ∧ s.ppu.readBuf = 0) ∧
    (s.ppu.vblank = false ∧ s.ppu.scrollLatch = false ∧ s.ppu.addrLatch = false ∧ s.ppu.nmiEdge = false) ∧
    (s.ppu.dot = 0 ∧ s.ppu.scanline = 0 ∧ s.cycles = 0) ∧
    (s.joy.buttons = 0 ∧ s.joy.strobe = false ∧ s.joy.cursor = 0) ∧ s.fault = none ∧
    (s.ram = m.ram ∧ s.ppu.vram = m.vram ∧ s.ppu.palette = m.palette ∧ s.ppu.oam = m.oam) ∧ s.launch = l) ∧
  ∀ s : State, s.resetCpu =
    ((s.setP 0x24).setSp 0xFD).setPc (w16 (s.launch.prgByte 0xFFFD) (s.launch.prgByte 0xFFFC))

/-- The invariant holds initially: for every cartridge, and for every power-on memory contents in canonical form
(R217). The canonical form is the model's own (log entry 1). -/
def Obligations.InitialStateMeetsTheInvariant : Prop :=
  ∀ (l : Launch) (m : MemoryInit), m.ok → (State.initial l m).Inv ∧ (State.initial l m).InPhase

/-! ## Invariants of every step -/

/-- Every step keeps the invariant: P has B = 0 and U = 1, the PPU counters and the joypad cursor stay in range, the
memories keep their form and size, and no fault is recorded (R22, R40, R42, R24, R27 to R29). -/
def Obligations.StepKeepsTheInvariant : Prop :=
  ∀ s t : State, s.Inv → step s = .next t → t.Inv

/-- No step writes PRG, CHR, the mirroring mode or a parameter, whether it completes or faults (R25, R26, R30). -/
def Obligations.StepNeverWritesTheCartridge : Prop :=
  ∀ s t : State, (step s = .next t ∨ ∃ k, step s = .fault (.fatal k t)) → t.launch = s.launch

/-- Every step keeps the PPU three dots a cycle behind the cycle count around a frame of 341 × 262 dots (R204,
R205). -/
def Obligations.StepKeepsThePpuInPhase : Prop :=
  ∀ s t : State, s.ClockOk → s.InPhase → step s = .next t → t.InPhase

/-- A step takes 2 to 8 cycles, and 7 more where it services an NMI (R198, R226). -/
def Obligations.StepCostIsBounded : Prop :=
  ∀ s t : State, step s = .next t →
    s.cycles + 2 ≤ t.cycles ∧ t.cycles ≤ s.cycles + 15 ∧
      (s.ppu.nmiEdge = false → t.cycles ≤ s.cycles + 8) ∧ (s.ppu.nmiEdge = true → s.cycles + 9 ≤ t.cycles)

/-- An instruction raises an NMI edge only with Control bit 7 set when it ends, and never cancels one (R206,
R222). -/
def Obligations.NmiEdgeNeedsTheEnableBit : Prop :=
  ∀ (i : Instr) (s t : State), exec i s = .next t →
    (t.ppu.nmiEdge = true → s.ppu.nmiEdge = true ∨ t.ppu.ctrl.getLsbD 7 = true) ∧
      (s.ppu.nmiEdge = true → t.ppu.nmiEdge = true)

/-- A fault is recorded, skips the tick and the PC advance, and nothing after the faulting access happens: no register
and no flag is written, but for C by a shift of memory or a composition of one, whose carry is written before their
store, and S by TAS, written before its store; no byte of memory and no device register is written, and beyond the
fault only what a read moves may have moved: the buffer, the Address pointer, the two latches and the joypad cursor
(R109, R192, 44_shift_rotate.md, 47_undocumented.md R191). That the carry stays written is the model's reading (log
entry 12). -/
def Obligations.FaultSkipsTickAndAdvance : Prop :=
  ∀ (i : Instr) (s t : State) (k : FaultKind), exec i s = .fault (.fatal k t) →
    t.pc = s.pc ∧ t.cycles = s.cycles ∧ t.ppu.dot = s.ppu.dot ∧
      t.ppu.scanline = s.ppu.scanline ∧ t.ppu.nmiEdge = s.ppu.nmiEdge ∧ t.joy.buttons = s.joy.buttons ∧
      t.frames = s.frames ∧
    t.cpu = { s.cpu with sp := t.sp, flags := { s.flags with c := t.flag .c } } ∧
    ((∀ base, i ≠ .tas base) → t.sp = s.sp) ∧
    ((∀ (sh : Shift) (o : Operand), i ≠ sh.instr o ∧ i ≠ sh.composition o) → t.flag .c = s.flag .c) ∧
    t.devices =
      { s.devices with
        readBuf := t.ppu.readBuf, addr := t.ppu.addr, addrLatch := t.ppu.addrLatch,
        scrollLatch := t.ppu.scrollLatch, cursor := t.joy.cursor, fault := some k }

/-- Every fault has its cause: the table of R193, with the kinds that Permissive drops (R79). -/
def Obligations.EveryFaultHasItsCause : Prop :=
  ∀ (s t : State) (k : FaultKind), step s = .fault (.fatal k t) →
    match k with
    | .readWriteOnlyPpuRegister addr =>
      s.launch.mode = .strict ∧ 0x2000 ≤ addr.toNat ∧ addr.toNat < 0x4000 ∧ addr.toNat % 8 ∈ [0, 1, 3, 5, 6]
    | .writeReadOnlyPpuRegister addr =>
      s.launch.mode = .strict ∧ 0x2000 ≤ addr.toNat ∧ addr.toNat < 0x4000 ∧ addr.toNat % 8 = 2
    | .writeProgramMemory addr => s.launch.mode = .strict ∧ 0x8000 ≤ addr.toNat
    | .chrWrite a => s.launch.mode = .strict ∧ a.toNat < 0x2000
    | .fourScreenMirroring a => s.launch.mirroring = .fourScreen ∧ 0x2000 ≤ a.toNat ∧ a.toNat < 0x3F00
    | .unmappedOpcode op _ =>
      op ∈ jamBytes ∨ s.launch.unstable = .fatal ∧ op ∈ unstableBytes

/-! ## The CPU bus -/

/-- Work RAM is 2048 bytes mirrored four times: a read gives the cell of its address modulo 2048, a read after a write
gives the byte at every mirror of the written address and the old byte at every other, and neither does anything
else (20_memory.md R51). -/
def Obligations.RamIsMirroredFourTimes : Prop :=
  ∀ (s : State) (a b : Addr) (v : Byte), a.toNat < 0x2000 → b.toNat < 0x2000 →
    busRead b s = .ok (Memory.read s.ram (b.toNat % 2048)) s ∧
    ∃ t, busWrite a v s = .ok () t ∧
      busRead b t = .ok (if b.toNat % 2048 = a.toNat % 2048 then v else Memory.read s.ram (b.toNat % 2048)) t ∧
      t.cpu = s.cpu ∧ t.pc = s.pc ∧ t.devices = { s.devices with ram := t.ram } ∧ t.clock = s.clock

/-- The stub APU, a read of $4014, the second joypad and the unmapped range read 0, and but for $4014 ignore a write;
nothing changes. PRG: a 32 KiB image is seen at its own offsets, a 16 KiB image twice; a read has no effect, a write
faults under Strict and does nothing under Permissive (R53 to R57, R79, R195). -/
def Obligations.StubsAndProgramMemory : Prop :=
  (∀ (s : State) (a : Addr) (v : Byte), 0x4000 ≤ a.toNat → a.toNat < 0x8000 → a.toNat ≠ 0x4016 →
    busRead a s = .ok 0x00 s ∧ (a.toNat ≠ 0x4014 → busWrite a v s = .ok () s)) ∧
  ∀ (s : State) (a : Addr) (v : Byte), 0x8000 ≤ a.toNat →
    (s.launch.prgSize = .kib32 → busRead a s = .ok (Memory.read s.launch.prg (a.toNat - 0x8000)) s) ∧
    (s.launch.prgSize = .kib16 → busRead a s = .ok (Memory.read s.launch.prg ((a.toNat - 0x8000) % 0x4000)) s) ∧
    (s.launch.mode = .strict → busWrite a v s = .error (.writeProgramMemory a) s) ∧
    (s.launch.mode = .permissive → busWrite a v s = .ok () s)

/-! ## The PPU registers, at every mirror in $2000-$3FFF -/

/-- Reading a write-only register and writing the read-only one fault and change nothing; under Permissive the read
gives 0 and the write is dropped (R59, R63, R79). -/
def Obligations.WrongWayPpuAccessFaults : Prop :=
  ∀ (s : State) (a : Addr) (v : Byte), 0x2000 ≤ a.toNat → a.toNat < 0x4000 →
    (a.toNat % 8 ∈ [0, 1, 3, 5, 6] →
      busRead a s = match s.launch.mode with
        | .strict => .error (.readWriteOnlyPpuRegister a) s
        | .permissive => .ok 0x00 s) ∧
    (a.toNat % 8 = 2 →
      busWrite a v s = match s.launch.mode with
        | .strict => .error (.writeReadOnlyPpuRegister a) s
        | .permissive => .ok () s)

/-- Writes of Control, Mask and OAM Address store the byte and do nothing else, so a write of Control raises no NMI
edge; Scroll takes X, then Y, by its own latch; Address takes the high byte, masked to 6 bits, then the low byte, and
between the two writes the pointer holds the new high and the old low byte (R60, R61, R64, R67, R68). -/
def Obligations.PpuRegisterWrites : Prop :=
  ∀ (s : State) (a : Addr) (v : Byte), 0x2000 ≤ a.toNat → a.toNat < 0x4000 →
    (a.toNat % 8 = 0 → busWrite a v s = .ok () (s.setPpu { s.ppu with ctrl := v })) ∧
    (a.toNat % 8 = 1 → busWrite a v s = .ok () (s.setPpu { s.ppu with mask := v })) ∧
    (a.toNat % 8 = 3 → busWrite a v s = .ok () (s.setPpu { s.ppu with oamAddr := v })) ∧
    (a.toNat % 8 = 5 →
      busWrite a v s = .ok () (s.setPpu
        { s.ppu with
          scrollX := if s.ppu.scrollLatch then s.ppu.scrollX else v
          scrollY := if s.ppu.scrollLatch then v else s.ppu.scrollY
          scrollLatch := !s.ppu.scrollLatch })) ∧
    (a.toNat % 8 = 6 →
      ∃ t, busWrite a v s = .ok () t ∧
        t = s.setPpu { s.ppu with addr := t.ppu.addr, addrLatch := !s.ppu.addrLatch } ∧
        t.ppu.addr.toNat =
          if s.ppu.addrLatch then s.ppu.addr.toNat / 256 * 256 + v.toNat
          else v.toNat % 64 * 256 + s.ppu.addr.toNat % 256)

/-- A read of Status gives the vblank flag in bit 7 and zeros below, then clears the flag and both latches
(R62). -/
def Obligations.StatusReadClearsVblankAndLatches : Prop :=
  ∀ (s : State) (a : Addr), 0x2000 ≤ a.toNat → a.toNat < 0x4000 → a.toNat % 8 = 2 →
    busRead a s = .ok (if s.ppu.vblank then 0x80 else 0x00)
      (s.setPpu { s.ppu with vblank := false, scrollLatch := false, addrLatch := false })

/-- OAM Data: a read gives the byte at the cursor and moves nothing, a write stores there and moves the cursor
modulo 256; no other byte of OAM changes (R65, R66). -/
def Obligations.OamDataReadsAndWritesAtTheCursor : Prop :=
  ∀ (s : State) (a : Addr) (v : Byte), 0x2000 ≤ a.toNat → a.toNat < 0x4000 → a.toNat % 8 = 4 →
    busRead a s = .ok (Memory.read s.ppu.oam s.ppu.oamAddr.toNat) s ∧
    ∃ t, busWrite a v s = .ok () t ∧
      t = s.setPpu { s.ppu with oam := t.ppu.oam, oamAddr := s.ppu.oamAddr + 1 } ∧
      ∀ k, Memory.read t.ppu.oam k = if k = s.ppu.oamAddr.toNat then v else Memory.read s.ppu.oam k

/-- A read of Data: below $3F00 it gives the buffer and reloads it from CHR or from the nametables, from $3F00 on it
gives the palette byte and leaves the buffer; then Address moves by 1 or by 32. Under FourScreen a nametable
access faults instead (R69, R70, R72, R74). -/
def Obligations.DataReadsAreBufferedBelowThePalette : Prop :=
  ∀ (s : State) (a : Addr), 0x2000 ≤ a.toNat → a.toNat < 0x4000 → a.toNat % 8 = 7 →
    let p := s.ppu.addr
    let next : VAddr := BitVec.ofNat 14 (p.toNat + if s.ppu.ctrl.getLsbD 2 then 32 else 1)
    (p.toNat < 0x2000 →
      busRead a s = .ok s.ppu.readBuf
        (s.setPpu { s.ppu with readBuf := Memory.read s.launch.chr p.toNat, addr := next })) ∧
    (0x2000 ≤ p.toNat → p.toNat < 0x3F00 →
      busRead a s = match ntIndex s.launch.mirroring p with
        | some k => .ok s.ppu.readBuf
            (s.setPpu { s.ppu with readBuf := Memory.read s.ppu.vram k, addr := next })
        | none => .error (.fourScreenMirroring p) s) ∧
    (0x3F00 ≤ p.toNat →
      busRead a s = .ok (Memory.read s.ppu.palette (palIndex p)) (s.setPpu { s.ppu with addr := next }))

/-- A write of Data stores at the pointer, then moves it by 1 or by 32. CHR is read only: the write faults before the
move under Strict, and only moves the pointer under Permissive. Under FourScreen a nametable access faults (R69,
R71, R73, R79). -/
def Obligations.DataWritesStoreAtThePointer : Prop :=
  ∀ (s : State) (a : Addr) (v : Byte), 0x2000 ≤ a.toNat → a.toNat < 0x4000 → a.toNat % 8 = 7 →
    let p := s.ppu.addr
    let next : VAddr := BitVec.ofNat 14 (p.toNat + if s.ppu.ctrl.getLsbD 2 then 32 else 1)
    (p.toNat < 0x2000 →
      busWrite a v s = match s.launch.mode with
        | .strict => .error (.chrWrite p) s
        | .permissive => .ok () (s.setPpu { s.ppu with addr := next })) ∧
    (0x2000 ≤ p.toNat → p.toNat < 0x3F00 →
      busWrite a v s = match ntIndex s.launch.mirroring p with
        | some k => .ok () (s.setPpu { s.ppu with vram := Memory.write s.ppu.vram k v, addr := next })
        | none => .error (.fourScreenMirroring p) s) ∧
    (0x3F00 ≤ p.toNat →
      busWrite a v s = .ok () (s.setPpu
        { s.ppu with palette := Memory.write s.ppu.palette (palIndex p) v, addr := next }))

/-- Nametable mirroring: $3000-$3EFF folds onto $2000-$2EFF; Horizontal shares nametables 0 and 1 and nametables 2
and 3, Vertical shares 0 and 2 and shares 1 and 3; FourScreen has no index. The palette index: $3F00-$3FFF is 32
bytes mirrored, with $10, $14, $18 and $1C on $00, $04, $08 and $0C (R74, R75). -/
def Obligations.NametableAndPaletteMirroring : Prop :=
  (∀ a : VAddr, 0x2000 ≤ a.toNat → a.toNat < 0x3F00 →
    let i := a.toNat % 0x1000
    ntIndex .horizontal a = some (i / 0x800 * 0x400 + i % 0x400) ∧
    ntIndex .vertical a = some (i / 0x400 % 2 * 0x400 + i % 0x400) ∧
    ntIndex .fourScreen a = none) ∧
  ∀ a : VAddr, 0x3F00 ≤ a.toNat →
    palIndex a = if 16 ≤ a.toNat % 32 ∧ a.toNat % 4 = 0 then a.toNat % 32 - 16 else a.toNat % 32

/-- OAM DMA: 256 reads of the page through the bus, ascending; byte `k` goes to OAM at the cursor plus `k` modulo 256,
the cursor ends where it began, no cycle passes, and beyond the reads' own effects nothing else changes; a fault
among the reads comes before any OAM byte is written. The bytes of a page of plain bytes (RAM, PRG, stub or unmapped)
are its own (R76). -/
def Obligations.OamDmaCopiesAPage : Prop :=
  (∀ (s mid : State) (v : Byte) (bytes : List Byte), readRun (w16 v 0) 256 s = .ok bytes mid →
    ∃ t, busWrite 0x4014 v s = .ok () t ∧ t = mid.setPpu { mid.ppu with oam := t.ppu.oam } ∧
      t.ppu.oamAddr = s.ppu.oamAddr ∧ t.cycles = s.cycles ∧
      (∀ k : Byte, bytes[k.toNat]? = some (Memory.read t.ppu.oam (s.ppu.oamAddr + k).toNat)) ∧
      ∀ n, 256 ≤ n → Memory.read t.ppu.oam n = Memory.read s.ppu.oam n) ∧
  (∀ (s mid : State) (v : Byte) (k : FaultKind), readRun (w16 v 0) 256 s = .error k mid →
    busWrite 0x4014 v s = .error k mid ∧ mid.ppu.oam = s.ppu.oam) ∧
  ∀ (s : State) (v : Byte) (source : Byte → Byte), (∀ k : Byte, s.peek (w16 v k) = some (source k)) →
    ∃ bytes, readRun (w16 v 0) 256 s = .ok bytes s ∧ ∀ k : Byte, bytes[k.toNat]? = some (source k)

/-- The joypad: a read gives the button at the cursor in bit 0 and moves the cursor where the strobe is clear, and
past the eighth button gives 1; a write sets the strobe, which holds the cursor at 0 (R77, R78). -/
def Obligations.JoypadShiftRegister : Prop :=
  ∀ (s : State) (v : Byte),
    (8 ≤ s.joy.cursor → busRead 0x4016 s = .ok 0x01 s) ∧
    (s.joy.cursor < 8 →
      busRead 0x4016 s = .ok (BitVec.ofNat 8 (s.joy.buttons.toNat / 2 ^ s.joy.cursor % 2))
        (s.setJoy { s.joy with cursor := if s.joy.strobe then s.joy.cursor else s.joy.cursor + 1 })) ∧
    busWrite 0x4016 v s = .ok () (s.setJoy
      { s.joy with
        strobe := decide (v.toNat % 2 = 1)
        cursor := if v.toNat % 2 = 1 then 0 else s.joy.cursor })

/-! ## Time -/

/-- `Tick(n)` adds n to the cycle count and runs 3n dots, one at a time. One dot moves the position by one and wraps
after 341 × 262; on entering line 241 vblank is set, the host may leave any button byte, and an NMI edge is raised where
Control bit 7 is set; on the wrap vblank is cleared and a pending edge stays; nothing else changes (R204, R205, R206,
R207, R209). -/
def Obligations.TickAdvancesThePpuClock : Prop :=
  (∀ (n : Nat) (s : State), tick n s = ppuDot^[3 * n] (s.setCycles (s.cycles + n))) ∧
  ∀ s : State, s.ClockOk → let t := ppuDot s
    t.ClockOk ∧ t.ppu.scanline * 341 + t.ppu.dot = (s.ppu.scanline * 341 + s.ppu.dot + 1) % 89342 ∧
    t.cpu = s.cpu ∧ t.pc = s.pc ∧ t.devices = s.devices ∧ t.cycles = s.cycles ∧
    (if s.ppu.dot = 340 ∧ s.ppu.scanline = 240 then
      t.ppu.vblank = true ∧ t.ppu.nmiEdge = (s.ppu.nmiEdge || s.ppu.ctrl.getLsbD 7) ∧
        t.joy.buttons = Config.hostButtons s.frames ∧ t.frames = s.frames + 1
     else if s.ppu.dot = 340 ∧ s.ppu.scanline = 261 then
      t.ppu.vblank = false ∧ t.ppu.nmiEdge = s.ppu.nmiEdge ∧ t.joy = s.joy ∧ t.frames = s.frames
     else
      t.ppu.vblank = s.ppu.vblank ∧ t.ppu.nmiEdge = s.ppu.nmiEdge ∧ t.joy = s.joy ∧ t.frames = s.frames)

/-- From reset, the first vblank entry comes in the tick that brings the cycle count to 27 394 or more and the flag
lasts to 29 781 (R205, R217). Ticks in a row add up. -/
def Obligations.FirstVblankEntry : Prop :=
  (∀ (m n : Nat) (s : State), tick (m + n) s = tick n (tick m s)) ∧
  ∀ (l : Launch) (m : MemoryInit) (n : Nat),
    (n < 29781 → ((tick n (State.initial l m)).ppu.vblank = true ↔ 27394 ≤ n)) ∧
      (tick 29781 (State.initial l m)).ppu.vblank = false

/-! ## Addressing -/

/-- The effective address of each form, in natural numbers. But for Indirect there is no effect and no fault: the
zero-page sums wrap in the zero page, the absolute sums modulo 65536, and the pointers of the two zero-page indirect
forms are read inside the zero page. The Indirect form reads its second pointer byte on the same page, and a fault of
either read is its fault (30_encoding.md R92 to R100). -/
def Obligations.EffectiveAddresses : Prop :=
  (∀ (s : State) (z : Byte) (w : Addr),
    let at' := fun o n => effAddr o s = .ok (BitVec.ofNat 16 n) s
    let byte := fun n => (Memory.read s.ram (n % 256)).toNat
    at' (.zp z) z.toNat ∧
    at' (.zpX z) ((z.toNat + s.x.toNat) % 256) ∧
    at' (.zpY z) ((z.toNat + s.y.toNat) % 256) ∧
    at' (.abs w) w.toNat ∧
    at' (.absX w) ((w.toNat + s.x.toNat) % 65536) ∧
    at' (.absY w) ((w.toNat + s.y.toNat) % 65536) ∧
    at' (.indX z) (byte (z.toNat + s.x.toNat) + 256 * byte (z.toNat + s.x.toNat + 1)) ∧
    at' (.indY z) ((byte z.toNat + 256 * byte (z.toNat + 1) + s.y.toNat) % 65536)) ∧
  ∀ (s s1 s2 : State) (ptr second : Addr) (l h : Byte) (k : FaultKind),
    second.toNat = ptr.toNat / 256 * 256 + (ptr.toNat + 1) % 256 →
    (busRead ptr s = .error k s1 → effAddr (.ind ptr) s = .error k s1) ∧
    (busRead ptr s = .ok l s1 →
      (busRead second s1 = .ok h s2 → effAddr (.ind ptr) s = .ok (w16 h l) s2) ∧
      (busRead second s1 = .error k s2 → effAddr (.ind ptr) s = .error k s2))

/-- What an operand reads: the immediate byte, the accumulator, and in memory the one bus read at the effective
address, with its effects and its faults; at a plain byte (RAM, PRG, stub or unmapped) that is the byte, with no
effect (R89, R91, R101). -/
def Obligations.PlainOperandsAreReadable : Prop :=
  (∀ (s : State) (v : Byte), readOperand (.imm v) s = .ok v s) ∧
  (∀ s : State, readOperand .acc s = .ok s.a s) ∧
  (∀ (s mid : State) (o : Operand) (ea : Addr), o.mode ≠ .accumulator → o.mode ≠ .immediate →
    effAddr o s = .ok ea mid → readOperand o s = busRead ea mid) ∧
  ∀ (s : State) (o : Operand) (ea : Addr) (v : Byte), o.mode ≠ .accumulator → o.mode ≠ .immediate →
    effAddr o s = .ok ea s → s.peek ea = some v → readOperand o s = .ok v s

/-! ## Results of the instructions

`Completed` says where an instruction ends without a redirect, `Jumped` with one. The operand's byte is `m`, and
`mid` is the state after it has been read. -/

/-- LDA, LDX, LDY and LAX load the operand and set Z and N (R110, R111, R112, R167). -/
def Obligations.LoadsComplete : Prop :=
  ∀ (o : Operand) (s mid : State) (m : Byte), readOperand o s = .ok m mid →
    (WellFormed (.lda o) → ∃ t, exec (.lda o) s = .next t ∧ t.Completed (.lda o) s mid (s.cpu.loadA m)) ∧
    (WellFormed (.ldx o) → ∃ t, exec (.ldx o) s = .next t ∧ t.Completed (.ldx o) s mid (s.cpu.loadX m)) ∧
    (WellFormed (.ldy o) → ∃ t, exec (.ldy o) s = .next t ∧ t.Completed (.ldy o) s mid (s.cpu.loadY m)) ∧
    (WellFormed (.lax o) → ∃ t, exec (.lax o) s = .next t ∧
      t.Completed (.lax o) s mid { s.cpu.loadA m with x := m })

/-- AND, ORA, EOR combine the operand into A; BIT sets Z from `A & M` and N and V from M and keeps A (R128 to
R131). -/
def Obligations.LogicCompletes : Prop :=
  ∀ (o : Operand) (s mid : State) (m : Byte), readOperand o s = .ok m mid →
    (WellFormed (.and o) → ∃ t, exec (.and o) s = .next t ∧
      t.Completed (.and o) s mid (s.cpu.loadA (s.a &&& m))) ∧
    (WellFormed (.ora o) → ∃ t, exec (.ora o) s = .next t ∧
      t.Completed (.ora o) s mid (s.cpu.loadA (s.a ||| m))) ∧
    (WellFormed (.eor o) → ∃ t, exec (.eor o) s = .next t ∧
      t.Completed (.eor o) s mid (s.cpu.loadA (s.a ^^^ m))) ∧
    (WellFormed (.bit o) → ∃ t, exec (.bit o) s = .next t ∧
      t.Completed (.bit o) s mid
        { s.cpu with
          flags :=
            { s.flags with z := decide (s.a &&& m = 0), n := m.getLsbD 7, v := m.getLsbD 6 } })

/-- ADC adds the operand and C to A; SBC, and its copy at $EB, add the complement of the operand (R126, R127,
R175). -/
def Obligations.AddAndSubtractComplete : Prop :=
  (∀ (o : Operand) (s mid : State) (m : Byte), readOperand o s = .ok m mid →
    (WellFormed (.adc o) → ∃ t, exec (.adc o) s = .next t ∧ t.Completed (.adc o) s mid (s.cpu.addC m)) ∧
    (WellFormed (.sbc o) → ∃ t, exec (.sbc o) s = .next t ∧ t.Completed (.sbc o) s mid (s.cpu.addC (~~~m)))) ∧
  ∀ (v : Byte) (s : State), ∃ t, exec (.sbcEB v) s = .next t ∧
    t.Completed (.sbcEB v) s s (s.cpu.addC (~~~v))

/-- Adding the complement is subtraction with borrow: A is `A - M - (1 - C)` modulo 256, C = 1 means that no borrow
occurred, and V that the signed difference does not fit in a byte (R126, R127). -/
def Obligations.SubtractionBorrows : Prop :=
  ∀ (c : Cpu) (m : Byte),
    let borrow := 1 - c.flags.c.toNat
    let signed : Int := c.a.toInt - m.toInt - borrow
    let r : Byte := BitVec.ofInt 8 ((c.a.toNat : Int) - m.toNat - borrow)
    c.addC (~~~m) =
      { c with
        a := r
        flags :=
          { c.flags with
            c := decide (m.toNat + borrow ≤ c.a.toNat)
            v := decide (signed < -128 ∨ 127 < signed)
            z := decide (r = 0)
            n := decide (128 ≤ r.toNat) } }

/-- CMP, CPX and CPY compare without changing the register; SBX compares `A & X` with its byte and puts the
difference in X (R132, R133, R134, R179). -/
def Obligations.ComparesComplete : Prop :=
  (∀ (o : Operand) (s mid : State) (m : Byte), readOperand o s = .ok m mid →
    (WellFormed (.cmp o) → ∃ t, exec (.cmp o) s = .next t ∧ t.Completed (.cmp o) s mid (s.cpu.compare s.a m)) ∧
    (WellFormed (.cpx o) → ∃ t, exec (.cpx o) s = .next t ∧ t.Completed (.cpx o) s mid (s.cpu.compare s.x m)) ∧
    (WellFormed (.cpy o) → ∃ t, exec (.cpy o) s = .next t ∧ t.Completed (.cpy o) s mid (s.cpu.compare s.y m))) ∧
  ∀ (v : Byte) (s : State), ∃ t, exec (.sbx v) s = .next t ∧
    t.Completed (.sbx v) s s { s.cpu.compare (s.a &&& s.x) v with x := (s.a &&& s.x) - v }

/-- STA, STX, STY and SAX store their byte at the effective address, with no data read, and write no register and no
flag (R113, R114, R115, R168). -/
def Obligations.StoresComplete : Prop :=
  ∀ (o : Operand) (s mid u : State) (ea : Addr), effAddr o s = .ok ea mid →
    (WellFormed (.sta o) → busWrite ea s.a mid = .ok () u →
      ∃ t, exec (.sta o) s = .next t ∧ t.Completed (.sta o) s u s.cpu) ∧
    (WellFormed (.stx o) → busWrite ea s.x mid = .ok () u →
      ∃ t, exec (.stx o) s = .next t ∧ t.Completed (.stx o) s u s.cpu) ∧
    (WellFormed (.sty o) → busWrite ea s.y mid = .ok () u →
      ∃ t, exec (.sty o) s = .next t ∧ t.Completed (.sty o) s u s.cpu) ∧
    (WellFormed (.sax o) → busWrite ea (s.a &&& s.x) mid = .ok () u →
      ∃ t, exec (.sax o) s = .next t ∧ t.Completed (.sax o) s u s.cpu)

/-- INC, DEC, DCP and ISB read the byte, store it plus or minus one modulo 256, and then set their flags and, for
ISB, A (R135, R136, R169, R170). -/
def Obligations.IncrementsAndDecrementsComplete : Prop :=
  ∀ (o : Operand) (s s1 s2 u : State) (ea : Addr) (m : Byte), effAddr o s = .ok ea s1 → busRead ea s1 = .ok m s2 →
    (busWrite ea (m + 1) s2 = .ok () u →
      (WellFormed (.inc o) → ∃ t, exec (.inc o) s = .next t ∧
        t.Completed (.inc o) s u { s.cpu with flags := s.flags.nz (m + 1) }) ∧
      (WellFormed (.isb o) → ∃ t, exec (.isb o) s = .next t ∧
        t.Completed (.isb o) s u (s.cpu.addC (~~~(m + 1))))) ∧
    (busWrite ea (m - 1) s2 = .ok () u →
      (WellFormed (.dec o) → ∃ t, exec (.dec o) s = .next t ∧
        t.Completed (.dec o) s u { s.cpu with flags := s.flags.nz (m - 1) }) ∧
      (WellFormed (.dcp o) → ∃ t, exec (.dcp o) s = .next t ∧
        t.Completed (.dcp o) s u (s.cpu.compare s.a (m - 1))))

/-- ASL, LSR, ROL and ROR. On memory: one read, C from the shifted-out bit, one write of the result, Z and N from it.
On the accumulator: A takes the result (R89, R141 to R144). -/
def Obligations.ShiftsComplete : Prop :=
  (∀ (k : Shift) (o : Operand) (s s1 s2 u : State) (ea : Addr) (m : Byte), o ≠ .acc → WellFormed (k.instr o) →
    effAddr o s = .ok ea s1 → busRead ea s1 = .ok m s2 →
    busWrite ea (k.result (s.flag .c) m) (s2.setFlag .c (k.carryOut m)) = .ok () u →
      ∃ t, exec (k.instr o) s = .next t ∧ t.Completed (k.instr o) s u
        { s.cpu with
          flags := { s.flags.nz (k.result (s.flag .c) m) with c := k.carryOut m } }) ∧
  ∀ (k : Shift) (s : State), ∃ t, exec (k.instr .acc) s = .next t ∧
    t.Completed (k.instr .acc) s s ((s.cpu.carry (k.carryOut s.a)).loadA (k.result (s.flag .c) s.a))

/-- SLO, RLA, SRE and RRA: the shift of memory, then OR, AND, EOR or ADC of the result into A; the addition uses the
carry the rotate left (R171 to R174). -/
def Obligations.ShiftCompositionsComplete : Prop :=
  ∀ (o : Operand) (s s1 s2 u : State) (ea : Addr) (m : Byte), effAddr o s = .ok ea s1 → busRead ea s1 = .ok m s2 →
    let stored := fun k : Shift =>
      busWrite ea (k.result (s.flag .c) m) (s2.setFlag .c (k.carryOut m)) = .ok () u
    let shifted := fun k : Shift => s.cpu.carry (k.carryOut m)
    let r := fun k : Shift => k.result (s.flag .c) m
    (WellFormed (.slo o) → stored .asl → ∃ t, exec (.slo o) s = .next t ∧
      t.Completed (.slo o) s u ((shifted .asl).loadA (s.a ||| r .asl))) ∧
    (WellFormed (.rla o) → stored .rol → ∃ t, exec (.rla o) s = .next t ∧
      t.Completed (.rla o) s u ((shifted .rol).loadA (s.a &&& r .rol))) ∧
    (WellFormed (.sre o) → stored .lsr → ∃ t, exec (.sre o) s = .next t ∧
      t.Completed (.sre o) s u ((shifted .lsr).loadA (s.a ^^^ r .lsr))) ∧
    (WellFormed (.rra o) → stored .ror → ∃ t, exec (.rra o) s = .next t ∧
      t.Completed (.rra o) s u ((shifted .ror).addC (r .ror)))

/-- The transfers, and the increments and decrements of X and Y; TXS alone writes no flag (R116 to R121, R137 to
R140). -/
def Obligations.TransfersAndIndexStepsComplete : Prop :=
  ∀ s : State,
    (∃ t, exec .tax s = .next t ∧ t.Completed .tax s s (s.cpu.loadX s.a)) ∧
    (∃ t, exec .tay s = .next t ∧ t.Completed .tay s s (s.cpu.loadY s.a)) ∧
    (∃ t, exec .txa s = .next t ∧ t.Completed .txa s s (s.cpu.loadA s.x)) ∧
    (∃ t, exec .tya s = .next t ∧ t.Completed .tya s s (s.cpu.loadA s.y)) ∧
    (∃ t, exec .tsx s = .next t ∧ t.Completed .tsx s s (s.cpu.loadX s.sp)) ∧
    (∃ t, exec .txs s = .next t ∧ t.Completed .txs s s { s.cpu with sp := s.x }) ∧
    (∃ t, exec .inx s = .next t ∧ t.Completed .inx s s (s.cpu.loadX (s.x + 1))) ∧
    (∃ t, exec .iny s = .next t ∧ t.Completed .iny s s (s.cpu.loadY (s.y + 1))) ∧
    (∃ t, exec .dex s = .next t ∧ t.Completed .dex s s (s.cpu.loadX (s.x - 1))) ∧
    (∃ t, exec .dey s = .next t ∧ t.Completed .dey s s (s.cpu.loadY (s.y - 1)))

/-- PHA and PHP push A and `P | 0x30`; PLA and PLP pull, PLP with U forced to 1 and B kept (R122 to R125). -/
def Obligations.StackInstructionsComplete : Prop :=
  ∀ s : State,
    (∃ t, exec .pha s = .next t ∧
      t.Completed .pha s (s.withPushed [s.a]) { s.cpu with sp := s.sp - 1 }) ∧
    (∃ t, exec .php s = .next t ∧
      t.Completed .php s (s.withPushed [s.p ||| 0x30]) { s.cpu with sp := s.sp - 1 }) ∧
    (∃ t, exec .pla s = .next t ∧
      t.Completed .pla s s { s.cpu.loadA (s.stackByte 1) with sp := s.sp + 1 }) ∧
    (∃ t, exec .plp s = .next t ∧
      t.Completed .plp s s { s.cpu with sp := s.sp + 1, flags := s.flags.pulled (s.stackByte 1) })

/-- A push stores at $0100 + S and then decrements S, a pop increments S and then reads there; S wraps modulo 256 and
neither fails; a push followed by a pop returns the byte and restores S (10_state.md R17, R18). -/
def Obligations.PushThenPopReturnsTheByte : Prop :=
  ∀ (s : State) (v : Byte), ∃ t, push v s = .ok () t ∧
    t = { s with sp := s.sp - 1, ram := t.ram } ∧
    (∀ k, Memory.read t.ram k = if k = 0x100 + s.sp.toNat then v else Memory.read s.ram k) ∧
    pop t = .ok v { t with sp := s.sp } ∧
    pop s = .ok (Memory.read s.ram (0x100 + (s.sp.toNat + 1) % 256)) { s with sp := s.sp + 1 }

/-- The flag instructions write their flag; the NOPs write nothing, and the memory NOPs read their operand and drop
it (46_flags_nop.md R159 to R166, R181, R182, R183). -/
def Obligations.FlagInstructionsAndNopsComplete : Prop :=
  (∀ s : State,
    (∃ t, exec .clc s = .next t ∧ t.Completed .clc s s { s.cpu with flags := { s.flags with c := false } }) ∧
    (∃ t, exec .sec s = .next t ∧ t.Completed .sec s s { s.cpu with flags := { s.flags with c := true } }) ∧
    (∃ t, exec .cli s = .next t ∧ t.Completed .cli s s { s.cpu with flags := { s.flags with i := false } }) ∧
    (∃ t, exec .sei s = .next t ∧ t.Completed .sei s s { s.cpu with flags := { s.flags with i := true } }) ∧
    (∃ t, exec .cld s = .next t ∧ t.Completed .cld s s { s.cpu with flags := { s.flags with d := false } }) ∧
    (∃ t, exec .sed s = .next t ∧ t.Completed .sed s s { s.cpu with flags := { s.flags with d := true } }) ∧
    (∃ t, exec .clv s = .next t ∧ t.Completed .clv s s { s.cpu with flags := { s.flags with v := false } }) ∧
    (∃ t, exec .nop s = .next t ∧ t.Completed .nop s s s.cpu)) ∧
  (∀ (op : Byte) (s : State), WellFormed (.nopImplied op) →
    ∃ t, exec (.nopImplied op) s = .next t ∧ t.Completed (.nopImplied op) s s s.cpu) ∧
  (∀ (op v : Byte) (s : State), WellFormed (.nopImmediate op v) →
    ∃ t, exec (.nopImmediate op v) s = .next t ∧ t.Completed (.nopImmediate op v) s s s.cpu) ∧
  ∀ (op m : Byte) (o : Operand) (s mid : State), WellFormed (.nopMemory op o) → readOperand o s = .ok m mid →
    ∃ t, exec (.nopMemory op o) s = .next t ∧ t.Completed (.nopMemory op o) s mid s.cpu

/-- JMP goes to its effective address; JSR pushes the address of its own last byte, high byte first, and goes to its
operand; RTS goes to the byte after the popped address (R145, R146, R147). -/
def Obligations.JumpsAndSubroutinesComplete : Prop :=
  (∀ (o : Operand) (s mid : State) (ea : Addr), WellFormed (.jmp o) → effAddr o s = .ok ea mid →
    ∃ t, exec (.jmp o) s = .next t ∧ t.Jumped (.jmp o) mid s.cpu ea 0) ∧
  (∀ (target : Addr) (s : State), ∃ t, exec (.jsr target) s = .next t ∧
    t.Jumped (.jsr target) (s.withPushed [hi (s.pc + 1), lo (s.pc + 1)]) { s.cpu with sp := s.sp - 2 }
      target 0) ∧
  ∀ s : State, ∃ t, exec .rts s = .next t ∧
    t.Jumped .rts s { s.cpu with sp := s.sp + 2 } (w16 (s.stackByte 2) (s.stackByte 1) + 1) 0

/-- BRK pushes the address two past its opcode, high byte first, then `P | 0x30`, sets I and goes through the vector
at $FFFE; RTI pulls the status as PLP does, then the address, and goes to it unchanged (R148, R149, R200). -/
def Obligations.BreakAndReturnComplete : Prop :=
  ∀ s : State,
    (∃ t, exec .brk s = .next t ∧
      t.Jumped .brk (s.withPushed [hi (s.pc + 1), lo (s.pc + 1), s.p ||| 0x30])
        { s.cpu with sp := s.sp - 3, flags := { s.flags with i := true } }
        (w16 (s.launch.prgByte 0xFFFF) (s.launch.prgByte 0xFFFE)) 0) ∧
    (∃ t, exec .rti s = .next t ∧
      t.Jumped .rti s { s.cpu with sp := s.sp + 3, flags := s.flags.pulled (s.stackByte 1) }
        (w16 (s.stackByte 3) (s.stackByte 2)) 0)

/-- RTS undoes JSR: the pair returns to the instruction after the JSR with S as before (R146, R147). -/
def Obligations.ReturnUndoesCall : Prop :=
  ∀ (target : Addr) (s : State), ∃ t u, exec (.jsr target) s = .next t ∧
    exec .rts (t.setPc (t.pc + 1)) = .next u ∧ u.pc = s.pc + 2 ∧ u.cpu = s.cpu

/-- RTI undoes NMI service and BRK: PC, S and every flag come back as they were, where B was 0 and U was 1 (R199,
R200, R148, R149). After a BRK the return is to the byte after the padding byte. -/
def Obligations.ReturnUndoesInterrupt : Prop :=
  (∀ s t : State, s.StatusOk → s.ppu.nmiEdge = true → pollNmi s = .ok () t →
    ∃ u, exec .rti t = .next u ∧ u.pc = s.pc ∧ u.cpu = s.cpu) ∧
  ∀ s : State, s.StatusOk → ∃ t u, exec .brk s = .next t ∧ exec .rti t = .next u ∧
    u.pc = s.pc + 1 ∧ u.cpu = s.cpu

/-- The eight branches: taken where the flag has its value, to the next instruction plus the signed displacement
modulo 65536, at one extra cycle on the same page and two across; else on to the next instruction (R90, R150 to
R158). -/
def Obligations.BranchesComplete : Prop :=
  let branches := fun (instr : Byte → Instr) (f : Flag) (b : Bool) => ∀ (d : Byte) (s : State),
    let next := s.pc + 1
    let target : Addr := BitVec.ofInt 16 ((next.toNat : Int) + d.toInt)
    if s.flag f = b then
      ∃ t, exec (instr d) s = .next t ∧
        t.Jumped (instr d) s s.cpu target (if target.toNat / 256 = next.toNat / 256 then 1 else 2)
    else ∃ t, exec (instr d) s = .next t ∧ t.Completed (instr d) s s s.cpu
  branches .bpl .n false ∧ branches .bmi .n true ∧ branches .bvc .v false ∧ branches .bvs .v true ∧
    branches .bcc .c false ∧ branches .bcs .c true ∧ branches .bne .z false ∧ branches .beq .z true

/-- ANC, ALR, ARR and LAS (R176, R177, R178, R180). -/
def Obligations.AndCompositionsComplete : Prop :=
  (∀ (op v : Byte) (s : State), WellFormed (.anc op v) → ∃ t, exec (.anc op v) s = .next t ∧
    t.Completed (.anc op v) s s ((s.cpu.carry ((s.a &&& v).getLsbD 7)).loadA (s.a &&& v))) ∧
  (∀ (v : Byte) (s : State), ∃ t, exec (.alr v) s = .next t ∧
    t.Completed (.alr v) s s
      ((s.cpu.carry (Shift.lsr.carryOut (s.a &&& v))).loadA (Shift.lsr.result false (s.a &&& v)))) ∧
  (∀ (v : Byte) (s : State), let r := Shift.ror.result (s.flag .c) (s.a &&& v)
    ∃ t, exec (.arr v) s = .next t ∧
      t.Completed (.arr v) s s
        { s.cpu.loadA r with
          flags := { s.flags.nz r with c := r.getLsbD 6, v := r.getLsbD 6 ^^ r.getLsbD 5 } }) ∧
  ∀ (a : Addr) (s mid : State) (m : Byte), readOperand (.absY a) s = .ok m mid →
    ∃ t, exec (.las a) s = .next t ∧
      t.Completed (.las a) s mid { s.cpu.loadA (m &&& s.sp) with x := m &&& s.sp, sp := m &&& s.sp }

/-- ANE and LXA under Formula, for every value of their constants (R185, R186, R187). -/
def Obligations.MagicConstantInstructionsComplete : Prop :=
  ∀ (v : Byte) (s : State), s.launch.unstable = .formula →
    (∃ t, exec (.ane v) s = .next t ∧
      t.Completed (.ane v) s s (s.cpu.loadA ((s.a ||| s.launch.aneMagic) &&& s.x &&& v))) ∧
    (∃ t, exec (.lxa v) s = .next t ∧
      t.Completed (.lxa v) s s
        { s.cpu.loadA ((s.a ||| s.launch.lxaMagic) &&& v) with x := (s.a ||| s.launch.lxaMagic) &&& v })

/-- SHA, SHX, SHY and TAS under Formula: the value is ANDed with the high byte of the base plus one and stored at the
base plus the index, or, across a page, with the value as the address's high byte; TAS also sets S to `A & X`, and
keeps it where the store faults. A fault of the store is the instruction's (R185, R188 to R191, R192). -/
def Obligations.HighByteAndStoresComplete : Prop :=
  let value := fun (v : Byte) (base : Addr) => v &&& BitVec.ofNat 8 (base.toNat / 256 + 1)
  let addr := fun (v : Byte) (base : Addr) (index : Byte) =>
    let sum := (base.toNat + index.toNat) % 65536
    if sum / 256 = base.toNat / 256 then BitVec.ofNat 16 sum else w16 (value v base) (BitVec.ofNat 8 sum)
  ∀ (s u : State), s.launch.unstable = .formula →
    (∀ (o : Operand) (base : Addr), WellFormed (.sha o) →
      (o = .absY base ∨ ∃ z, o = .indY z ∧ zeroPagePointer z s = .ok base s) →
      (busWrite (addr (s.a &&& s.x) base s.y) (value (s.a &&& s.x) base) s = .ok () u →
        ∃ t, exec (.sha o) s = .next t ∧ t.Completed (.sha o) s u s.cpu) ∧
      ∀ k, busWrite (addr (s.a &&& s.x) base s.y) (value (s.a &&& s.x) base) s = .error k u →
        exec (.sha o) s = .fault (.fatal k (u.setFault k))) ∧
    (∀ base : Addr,
      (busWrite (addr s.x base s.y) (value s.x base) s = .ok () u →
        ∃ t, exec (.shx base) s = .next t ∧ t.Completed (.shx base) s u s.cpu) ∧
      ∀ k, busWrite (addr s.x base s.y) (value s.x base) s = .error k u →
        exec (.shx base) s = .fault (.fatal k (u.setFault k))) ∧
    (∀ base : Addr,
      (busWrite (addr s.y base s.x) (value s.y base) s = .ok () u →
        ∃ t, exec (.shy base) s = .next t ∧ t.Completed (.shy base) s u s.cpu) ∧
      ∀ k, busWrite (addr s.y base s.x) (value s.y base) s = .error k u →
        exec (.shy base) s = .fault (.fatal k (u.setFault k))) ∧
    (∀ base : Addr, let w := s.setSp (s.a &&& s.x)
      (busWrite (addr w.sp base s.y) (value w.sp base) w = .ok () u →
        ∃ t, exec (.tas base) s = .next t ∧ t.Completed (.tas base) s u { s.cpu with sp := s.a &&& s.x }) ∧
      ∀ k, busWrite (addr w.sp base s.y) (value w.sp base) w = .error k u →
        exec (.tas base) s = .fault (.fatal k (u.setFault k)) ∧ u.sp = s.a &&& s.x)

/-! ## Frames -/

/-- Every instruction writes only the registers its rule names and only the flags 10_state.md R21 lists for it; the
cartridge, the parameters and the fault stay (R21, R109). PLP and RTI force U to 1, so U counts as written. -/
def Obligations.RegistersAndFlagsFrame : Prop :=
  ∀ (i : Instr) (s t : State), exec i s = .next t →
    (∀ r, r ∉ i.registersWritten → t.reg r = s.reg r) ∧ (∀ f, f ∉ i.flagsWritten → t.flag f = s.flag f) ∧
      t.launch = s.launch ∧ t.fault = s.fault

/-- An instruction that stores nothing and pushes nothing leaves every byte of every memory, and the registers that
only a write reaches (R101). -/
def Obligations.NonStoringFrame : Prop :=
  ∀ (i : Instr) (s t : State), i.store = .none → i.pushCount = 0 → i.isUnstableStore = false →
    exec i s = .next t →
      SameMemory s t ∧ t.ppu.ctrl = s.ppu.ctrl ∧ t.ppu.mask = s.ppu.mask ∧ t.ppu.oamAddr = s.ppu.oamAddr ∧
        t.ppu.scrollX = s.ppu.scrollX ∧ t.ppu.scrollY = s.ppu.scrollY ∧ t.joy.strobe = s.joy.strobe

/-- A pushing instruction leaves every byte outside the places it pushes to, and every device (R17, R122, R123,
R146, R149). -/
def Obligations.PushingFrame : Prop :=
  ∀ (i : Instr) (s t : State), i.pushCount ≠ 0 → exec i s = .next t →
    (∀ k, (∀ j < i.pushCount, k ≠ 0x100 + (s.sp.toNat + 256 - j) % 256) →
      Memory.read t.ram k = Memory.read s.ram k) ∧
    t.devices = { s.devices with ram := t.ram }

/-- A storing instruction, a write or a read-modify-write, leaves every byte outside the one its effective address
selects: the RAM cell of an address below $2000; OAM at the cursor through OAM Data, or all of OAM through OAM
DMA; the nametable or palette byte at the Address pointer through Data, where a read-modify-write's read has moved
the pointer once (R51, R66, R71, R76, R101, R223). An address that is no device changes nothing else. -/
def Obligations.StoringFrame : Prop :=
  ∀ (i : Instr) (o : Operand) (s mid t : State) (ea : Addr), (i.store = .write o ∨ i.store = .modify o) →
    effAddr o s = .ok ea mid → exec i s = .next t →
    let slot := fun n => 0x2000 ≤ ea.toNat ∧ ea.toNat < 0x4000 ∧ ea.toNat % 8 = n
    let pointer := if i.store = .modify o then s.ppu.addr + addrStep s.ppu.ctrl else s.ppu.addr
    (∀ k, ¬ (ea.toNat < 0x2000 ∧ k = ea.toNat % 2048) → Memory.read t.ram k = Memory.read s.ram k) ∧
    (∀ k, ¬ (slot 4 ∧ k = s.ppu.oamAddr.toNat) → ea.toNat ≠ 0x4014 →
      Memory.read t.ppu.oam k = Memory.read s.ppu.oam k) ∧
    (∀ k, ¬ (slot 7 ∧ 0x2000 ≤ pointer.toNat ∧ pointer.toNat < 0x3F00 ∧
        ntIndex s.launch.mirroring pointer = some k) →
      Memory.read t.ppu.vram k = Memory.read s.ppu.vram k) ∧
    (∀ k, ¬ (slot 7 ∧ 0x3F00 ≤ pointer.toNat ∧ palIndex pointer = k) →
      Memory.read t.ppu.palette k = Memory.read s.ppu.palette k) ∧
    ((ea.toNat < 0x2000 ∨ 0x4000 ≤ ea.toNat) → ea.toNat ≠ 0x4014 → ea.toNat ≠ 0x4016 →
      t.devices = { s.devices with ram := t.ram })

/-- The high-byte-AND stores, under the same functions their meanings use: every byte outside the addressed one is
as before (R185, R188 to R191). -/
def Obligations.HighByteAndStoringFrame : Prop :=
  ∀ (i : Instr) (s t : State) (value : Byte) (base : Addr) (index : Byte),
    (i = .shx base ∧ value = s.x ∧ index = s.y ∨ i = .shy base ∧ value = s.y ∧ index = s.x ∨
      i = .tas base ∧ value = s.a &&& s.x ∧ index = s.y ∨
      (∃ o, i = .sha o ∧ shaBase o s = .ok base s) ∧ value = s.a &&& s.x ∧ index = s.y) →
    exec i s = .next t →
    let ea := highAndAddr value base index
    let slot := fun n => 0x2000 ≤ ea.toNat ∧ ea.toNat < 0x4000 ∧ ea.toNat % 8 = n
    (∀ k, ¬ (ea.toNat < 0x2000 ∧ k = ea.toNat % 2048) → Memory.read t.ram k = Memory.read s.ram k) ∧
    (∀ k, ¬ (slot 4 ∧ k = s.ppu.oamAddr.toNat) → ea.toNat ≠ 0x4014 →
      Memory.read t.ppu.oam k = Memory.read s.ppu.oam k) ∧
    (∀ k, ¬ (slot 7 ∧ 0x2000 ≤ s.ppu.addr.toNat ∧ s.ppu.addr.toNat < 0x3F00 ∧
        ntIndex s.launch.mirroring s.ppu.addr = some k) →
      Memory.read t.ppu.vram k = Memory.read s.ppu.vram k) ∧
    (∀ k, ¬ (slot 7 ∧ 0x3F00 ≤ s.ppu.addr.toNat ∧ palIndex s.ppu.addr = k) →
      Memory.read t.ppu.palette k = Memory.read s.ppu.palette k) ∧
    ((ea.toNat < 0x2000 ∨ 0x4000 ≤ ea.toNat) → ea.toNat ≠ 0x4014 → ea.toNat ≠ 0x4016 →
      t.devices = { s.devices with ram := t.ram })

/-! ## Faults of the accesses -/

/-- An instruction whose access faults answers that fault, with the state the access left: the operand read of a
read instruction, the store of a write instruction, the read and then the store of a read-modify-write instruction
(a shift and its composition have C written by then), and the pointer reads of JMP. No other access of an instruction
can fault: but for Indirect the address modes read RAM only (`EffectiveAddresses`), as do the pushes and the pops;
the high-byte-AND stores are in `HighByteAndStoresComplete` (R109, R192, R101, 41_load_store_transfer.md to
47_undocumented.md, the Exceptions lines). That C stays written is the model's reading (log entry 12). -/
def Obligations.AccessFaultsAreAnswered : Prop :=
  ∀ (o : Operand) (s s1 s2 u : State) (ea : Addr) (m : Byte) (k : FaultKind),
    let faults := fun i => exec i s = .fault (.fatal k (u.setFault k))
    (∀ i, WellFormed i → i.operandRead = some o → readOperand o s = .error k u → faults i) ∧
    (WellFormed (.jmp o) → effAddr o s = .error k u → faults (.jmp o)) ∧
    (effAddr o s = .ok ea s1 →
      (WellFormed (.sta o) → busWrite ea s.a s1 = .error k u → faults (.sta o)) ∧
      (WellFormed (.stx o) → busWrite ea s.x s1 = .error k u → faults (.stx o)) ∧
      (WellFormed (.sty o) → busWrite ea s.y s1 = .error k u → faults (.sty o)) ∧
      (WellFormed (.sax o) → busWrite ea (s.a &&& s.x) s1 = .error k u → faults (.sax o)) ∧
      (∀ i, WellFormed i → i.store = .modify o → busRead ea s1 = .error k u → faults i) ∧
      (busRead ea s1 = .ok m s2 →
        (busWrite ea (m + 1) s2 = .error k u →
          (WellFormed (.inc o) → faults (.inc o)) ∧ (WellFormed (.isb o) → faults (.isb o))) ∧
        (busWrite ea (m - 1) s2 = .error k u →
          (WellFormed (.dec o) → faults (.dec o)) ∧ (WellFormed (.dcp o) → faults (.dcp o))) ∧
        ∀ sh : Shift, o ≠ .acc →
          busWrite ea (sh.result (s.flag .c) m) (s2.setFlag .c (sh.carryOut m)) = .error k u →
            (WellFormed (sh.instr o) → faults (sh.instr o)) ∧
              (WellFormed (sh.composition o) → faults (sh.composition o))))
end

