-- ==== Sys2Proof/Laws/State.lean ====
section
/-! SUPPORT. The named updates of a state, field by field. -/

namespace Sys2Proof.Machine

variable (s : State)

@[simp] theorem State.setA_a (v : Byte) : (s.setA v).a = v := rfl
@[simp] theorem State.setA_x (v : Byte) : (s.setA v).x = s.x := rfl
@[simp] theorem State.setA_y (v : Byte) : (s.setA v).y = s.y := rfl
@[simp] theorem State.setA_sp (v : Byte) : (s.setA v).sp = s.sp := rfl
@[simp] theorem State.setA_p (v : Byte) : (s.setA v).p = s.p := rfl
@[simp] theorem State.setA_pc (v : Byte) : (s.setA v).pc = s.pc := rfl
@[simp] theorem State.setA_ram (v : Byte) : (s.setA v).ram = s.ram := rfl
@[simp] theorem State.setA_ppu (v : Byte) : (s.setA v).ppu = s.ppu := rfl
@[simp] theorem State.setA_joy (v : Byte) : (s.setA v).joy = s.joy := rfl
@[simp] theorem State.setA_cycles (v : Byte) : (s.setA v).cycles = s.cycles := rfl
@[simp] theorem State.setA_fault (v : Byte) : (s.setA v).fault = s.fault := rfl
@[simp] theorem State.setA_launch (v : Byte) : (s.setA v).launch = s.launch := rfl
@[simp] theorem State.setA_frames (v : Byte) : (s.setA v).frames = s.frames := rfl

@[simp] theorem State.setX_a (v : Byte) : (s.setX v).a = s.a := rfl
@[simp] theorem State.setX_x (v : Byte) : (s.setX v).x = v := rfl
@[simp] theorem State.setX_y (v : Byte) : (s.setX v).y = s.y := rfl
@[simp] theorem State.setX_sp (v : Byte) : (s.setX v).sp = s.sp := rfl
@[simp] theorem State.setX_p (v : Byte) : (s.setX v).p = s.p := rfl
@[simp] theorem State.setX_pc (v : Byte) : (s.setX v).pc = s.pc := rfl
@[simp] theorem State.setX_ram (v : Byte) : (s.setX v).ram = s.ram := rfl
@[simp] theorem State.setX_ppu (v : Byte) : (s.setX v).ppu = s.ppu := rfl
@[simp] theorem State.setX_joy (v : Byte) : (s.setX v).joy = s.joy := rfl
@[simp] theorem State.setX_cycles (v : Byte) : (s.setX v).cycles = s.cycles := rfl
@[simp] theorem State.setX_fault (v : Byte) : (s.setX v).fault = s.fault := rfl
@[simp] theorem State.setX_launch (v : Byte) : (s.setX v).launch = s.launch := rfl
@[simp] theorem State.setX_frames (v : Byte) : (s.setX v).frames = s.frames := rfl

@[simp] theorem State.setY_a (v : Byte) : (s.setY v).a = s.a := rfl
@[simp] theorem State.setY_x (v : Byte) : (s.setY v).x = s.x := rfl
@[simp] theorem State.setY_y (v : Byte) : (s.setY v).y = v := rfl
@[simp] theorem State.setY_sp (v : Byte) : (s.setY v).sp = s.sp := rfl
@[simp] theorem State.setY_p (v : Byte) : (s.setY v).p = s.p := rfl
@[simp] theorem State.setY_pc (v : Byte) : (s.setY v).pc = s.pc := rfl
@[simp] theorem State.setY_ram (v : Byte) : (s.setY v).ram = s.ram := rfl
@[simp] theorem State.setY_ppu (v : Byte) : (s.setY v).ppu = s.ppu := rfl
@[simp] theorem State.setY_joy (v : Byte) : (s.setY v).joy = s.joy := rfl
@[simp] theorem State.setY_cycles (v : Byte) : (s.setY v).cycles = s.cycles := rfl
@[simp] theorem State.setY_fault (v : Byte) : (s.setY v).fault = s.fault := rfl
@[simp] theorem State.setY_launch (v : Byte) : (s.setY v).launch = s.launch := rfl
@[simp] theorem State.setY_frames (v : Byte) : (s.setY v).frames = s.frames := rfl

@[simp] theorem State.setSp_a (v : Byte) : (s.setSp v).a = s.a := rfl
@[simp] theorem State.setSp_x (v : Byte) : (s.setSp v).x = s.x := rfl
@[simp] theorem State.setSp_y (v : Byte) : (s.setSp v).y = s.y := rfl
@[simp] theorem State.setSp_sp (v : Byte) : (s.setSp v).sp = v := rfl
@[simp] theorem State.setSp_p (v : Byte) : (s.setSp v).p = s.p := rfl
@[simp] theorem State.setSp_pc (v : Byte) : (s.setSp v).pc = s.pc := rfl
@[simp] theorem State.setSp_ram (v : Byte) : (s.setSp v).ram = s.ram := rfl
@[simp] theorem State.setSp_ppu (v : Byte) : (s.setSp v).ppu = s.ppu := rfl
@[simp] theorem State.setSp_joy (v : Byte) : (s.setSp v).joy = s.joy := rfl
@[simp] theorem State.setSp_cycles (v : Byte) : (s.setSp v).cycles = s.cycles := rfl
@[simp] theorem State.setSp_fault (v : Byte) : (s.setSp v).fault = s.fault := rfl
@[simp] theorem State.setSp_launch (v : Byte) : (s.setSp v).launch = s.launch := rfl
@[simp] theorem State.setSp_frames (v : Byte) : (s.setSp v).frames = s.frames := rfl

@[simp] theorem State.setP_a (v : Byte) : (s.setP v).a = s.a := rfl
@[simp] theorem State.setP_x (v : Byte) : (s.setP v).x = s.x := rfl
@[simp] theorem State.setP_y (v : Byte) : (s.setP v).y = s.y := rfl
@[simp] theorem State.setP_sp (v : Byte) : (s.setP v).sp = s.sp := rfl
@[simp] theorem State.setP_p (v : Byte) : (s.setP v).p = v := rfl
@[simp] theorem State.setP_pc (v : Byte) : (s.setP v).pc = s.pc := rfl
@[simp] theorem State.setP_ram (v : Byte) : (s.setP v).ram = s.ram := rfl
@[simp] theorem State.setP_ppu (v : Byte) : (s.setP v).ppu = s.ppu := rfl
@[simp] theorem State.setP_joy (v : Byte) : (s.setP v).joy = s.joy := rfl
@[simp] theorem State.setP_cycles (v : Byte) : (s.setP v).cycles = s.cycles := rfl
@[simp] theorem State.setP_fault (v : Byte) : (s.setP v).fault = s.fault := rfl
@[simp] theorem State.setP_launch (v : Byte) : (s.setP v).launch = s.launch := rfl
@[simp] theorem State.setP_frames (v : Byte) : (s.setP v).frames = s.frames := rfl

@[simp] theorem State.setPc_a (v : Addr) : (s.setPc v).a = s.a := rfl
@[simp] theorem State.setPc_x (v : Addr) : (s.setPc v).x = s.x := rfl
@[simp] theorem State.setPc_y (v : Addr) : (s.setPc v).y = s.y := rfl
@[simp] theorem State.setPc_sp (v : Addr) : (s.setPc v).sp = s.sp := rfl
@[simp] theorem State.setPc_p (v : Addr) : (s.setPc v).p = s.p := rfl
@[simp] theorem State.setPc_pc (v : Addr) : (s.setPc v).pc = v := rfl
@[simp] theorem State.setPc_ram (v : Addr) : (s.setPc v).ram = s.ram := rfl
@[simp] theorem State.setPc_ppu (v : Addr) : (s.setPc v).ppu = s.ppu := rfl
@[simp] theorem State.setPc_joy (v : Addr) : (s.setPc v).joy = s.joy := rfl
@[simp] theorem State.setPc_cycles (v : Addr) : (s.setPc v).cycles = s.cycles := rfl
@[simp] theorem State.setPc_fault (v : Addr) : (s.setPc v).fault = s.fault := rfl
@[simp] theorem State.setPc_launch (v : Addr) : (s.setPc v).launch = s.launch := rfl
@[simp] theorem State.setPc_frames (v : Addr) : (s.setPc v).frames = s.frames := rfl

@[simp] theorem State.setRam_a (i : Nat) (v : Byte) : (s.setRam i v).a = s.a := rfl
@[simp] theorem State.setRam_x (i : Nat) (v : Byte) : (s.setRam i v).x = s.x := rfl
@[simp] theorem State.setRam_y (i : Nat) (v : Byte) : (s.setRam i v).y = s.y := rfl
@[simp] theorem State.setRam_sp (i : Nat) (v : Byte) : (s.setRam i v).sp = s.sp := rfl
@[simp] theorem State.setRam_p (i : Nat) (v : Byte) : (s.setRam i v).p = s.p := rfl
@[simp] theorem State.setRam_pc (i : Nat) (v : Byte) : (s.setRam i v).pc = s.pc := rfl
@[simp] theorem State.setRam_ram (i : Nat) (v : Byte) : (s.setRam i v).ram = Memory.write s.ram i v := rfl
@[simp] theorem State.setRam_ppu (i : Nat) (v : Byte) : (s.setRam i v).ppu = s.ppu := rfl
@[simp] theorem State.setRam_joy (i : Nat) (v : Byte) : (s.setRam i v).joy = s.joy := rfl
@[simp] theorem State.setRam_cycles (i : Nat) (v : Byte) : (s.setRam i v).cycles = s.cycles := rfl
@[simp] theorem State.setRam_fault (i : Nat) (v : Byte) : (s.setRam i v).fault = s.fault := rfl
@[simp] theorem State.setRam_launch (i : Nat) (v : Byte) : (s.setRam i v).launch = s.launch := rfl
@[simp] theorem State.setRam_frames (i : Nat) (v : Byte) : (s.setRam i v).frames = s.frames := rfl

@[simp] theorem State.setPpu_a (q : Ppu) : (s.setPpu q).a = s.a := rfl
@[simp] theorem State.setPpu_x (q : Ppu) : (s.setPpu q).x = s.x := rfl
@[simp] theorem State.setPpu_y (q : Ppu) : (s.setPpu q).y = s.y := rfl
@[simp] theorem State.setPpu_sp (q : Ppu) : (s.setPpu q).sp = s.sp := rfl
@[simp] theorem State.setPpu_p (q : Ppu) : (s.setPpu q).p = s.p := rfl
@[simp] theorem State.setPpu_pc (q : Ppu) : (s.setPpu q).pc = s.pc := rfl
@[simp] theorem State.setPpu_ram (q : Ppu) : (s.setPpu q).ram = s.ram := rfl
@[simp] theorem State.setPpu_ppu (q : Ppu) : (s.setPpu q).ppu = q := rfl
@[simp] theorem State.setPpu_joy (q : Ppu) : (s.setPpu q).joy = s.joy := rfl
@[simp] theorem State.setPpu_cycles (q : Ppu) : (s.setPpu q).cycles = s.cycles := rfl
@[simp] theorem State.setPpu_fault (q : Ppu) : (s.setPpu q).fault = s.fault := rfl
@[simp] theorem State.setPpu_launch (q : Ppu) : (s.setPpu q).launch = s.launch := rfl
@[simp] theorem State.setPpu_frames (q : Ppu) : (s.setPpu q).frames = s.frames := rfl

@[simp] theorem State.setJoy_a (j : Joypad) : (s.setJoy j).a = s.a := rfl
@[simp] theorem State.setJoy_x (j : Joypad) : (s.setJoy j).x = s.x := rfl
@[simp] theorem State.setJoy_y (j : Joypad) : (s.setJoy j).y = s.y := rfl
@[simp] theorem State.setJoy_sp (j : Joypad) : (s.setJoy j).sp = s.sp := rfl
@[simp] theorem State.setJoy_p (j : Joypad) : (s.setJoy j).p = s.p := rfl
@[simp] theorem State.setJoy_pc (j : Joypad) : (s.setJoy j).pc = s.pc := rfl
@[simp] theorem State.setJoy_ram (j : Joypad) : (s.setJoy j).ram = s.ram := rfl
@[simp] theorem State.setJoy_ppu (j : Joypad) : (s.setJoy j).ppu = s.ppu := rfl
@[simp] theorem State.setJoy_joy (j : Joypad) : (s.setJoy j).joy = j := rfl
@[simp] theorem State.setJoy_cycles (j : Joypad) : (s.setJoy j).cycles = s.cycles := rfl
@[simp] theorem State.setJoy_fault (j : Joypad) : (s.setJoy j).fault = s.fault := rfl
@[simp] theorem State.setJoy_launch (j : Joypad) : (s.setJoy j).launch = s.launch := rfl
@[simp] theorem State.setJoy_frames (j : Joypad) : (s.setJoy j).frames = s.frames := rfl

@[simp] theorem State.setCycles_a (n : Nat) : (s.setCycles n).a = s.a := rfl
@[simp] theorem State.setCycles_x (n : Nat) : (s.setCycles n).x = s.x := rfl
@[simp] theorem State.setCycles_y (n : Nat) : (s.setCycles n).y = s.y := rfl
@[simp] theorem State.setCycles_sp (n : Nat) : (s.setCycles n).sp = s.sp := rfl
@[simp] theorem State.setCycles_p (n : Nat) : (s.setCycles n).p = s.p := rfl
@[simp] theorem State.setCycles_pc (n : Nat) : (s.setCycles n).pc = s.pc := rfl
@[simp] theorem State.setCycles_ram (n : Nat) : (s.setCycles n).ram = s.ram := rfl
@[simp] theorem State.setCycles_ppu (n : Nat) : (s.setCycles n).ppu = s.ppu := rfl
@[simp] theorem State.setCycles_joy (n : Nat) : (s.setCycles n).joy = s.joy := rfl
@[simp] theorem State.setCycles_cycles (n : Nat) : (s.setCycles n).cycles = n := rfl
@[simp] theorem State.setCycles_fault (n : Nat) : (s.setCycles n).fault = s.fault := rfl
@[simp] theorem State.setCycles_launch (n : Nat) : (s.setCycles n).launch = s.launch := rfl
@[simp] theorem State.setCycles_frames (n : Nat) : (s.setCycles n).frames = s.frames := rfl

@[simp] theorem State.setFault_a (k : FaultKind) : (s.setFault k).a = s.a := rfl
@[simp] theorem State.setFault_x (k : FaultKind) : (s.setFault k).x = s.x := rfl
@[simp] theorem State.setFault_y (k : FaultKind) : (s.setFault k).y = s.y := rfl
@[simp] theorem State.setFault_sp (k : FaultKind) : (s.setFault k).sp = s.sp := rfl
@[simp] theorem State.setFault_p (k : FaultKind) : (s.setFault k).p = s.p := rfl
@[simp] theorem State.setFault_pc (k : FaultKind) : (s.setFault k).pc = s.pc := rfl
@[simp] theorem State.setFault_ram (k : FaultKind) : (s.setFault k).ram = s.ram := rfl
@[simp] theorem State.setFault_ppu (k : FaultKind) : (s.setFault k).ppu = s.ppu := rfl
@[simp] theorem State.setFault_joy (k : FaultKind) : (s.setFault k).joy = s.joy := rfl
@[simp] theorem State.setFault_cycles (k : FaultKind) : (s.setFault k).cycles = s.cycles := rfl
@[simp] theorem State.setFault_fault (k : FaultKind) : (s.setFault k).fault = some k := rfl
@[simp] theorem State.setFault_launch (k : FaultKind) : (s.setFault k).launch = s.launch := rfl
@[simp] theorem State.setFault_frames (k : FaultKind) : (s.setFault k).frames = s.frames := rfl

@[simp] theorem State.setFrames_a (n : Nat) : (s.setFrames n).a = s.a := rfl
@[simp] theorem State.setFrames_x (n : Nat) : (s.setFrames n).x = s.x := rfl
@[simp] theorem State.setFrames_y (n : Nat) : (s.setFrames n).y = s.y := rfl
@[simp] theorem State.setFrames_sp (n : Nat) : (s.setFrames n).sp = s.sp := rfl
@[simp] theorem State.setFrames_p (n : Nat) : (s.setFrames n).p = s.p := rfl
@[simp] theorem State.setFrames_pc (n : Nat) : (s.setFrames n).pc = s.pc := rfl
@[simp] theorem State.setFrames_ram (n : Nat) : (s.setFrames n).ram = s.ram := rfl
@[simp] theorem State.setFrames_ppu (n : Nat) : (s.setFrames n).ppu = s.ppu := rfl
@[simp] theorem State.setFrames_joy (n : Nat) : (s.setFrames n).joy = s.joy := rfl
@[simp] theorem State.setFrames_cycles (n : Nat) : (s.setFrames n).cycles = s.cycles := rfl
@[simp] theorem State.setFrames_fault (n : Nat) : (s.setFrames n).fault = s.fault := rfl
@[simp] theorem State.setFrames_launch (n : Nat) : (s.setFrames n).launch = s.launch := rfl
@[simp] theorem State.setFrames_frames (n : Nat) : (s.setFrames n).frames = n := rfl

@[simp] theorem State.setFlag_a (f : Flag) (b : Bool) : (s.setFlag f b).a = s.a := rfl
@[simp] theorem State.setFlag_x (f : Flag) (b : Bool) : (s.setFlag f b).x = s.x := rfl
@[simp] theorem State.setFlag_y (f : Flag) (b : Bool) : (s.setFlag f b).y = s.y := rfl
@[simp] theorem State.setFlag_sp (f : Flag) (b : Bool) : (s.setFlag f b).sp = s.sp := rfl
@[simp] theorem State.setFlag_p (f : Flag) (b : Bool) : (s.setFlag f b).p = withFlag f b s.p := rfl
@[simp] theorem State.setFlag_pc (f : Flag) (b : Bool) : (s.setFlag f b).pc = s.pc := rfl
@[simp] theorem State.setFlag_ram (f : Flag) (b : Bool) : (s.setFlag f b).ram = s.ram := rfl
@[simp] theorem State.setFlag_ppu (f : Flag) (b : Bool) : (s.setFlag f b).ppu = s.ppu := rfl
@[simp] theorem State.setFlag_joy (f : Flag) (b : Bool) : (s.setFlag f b).joy = s.joy := rfl
@[simp] theorem State.setFlag_cycles (f : Flag) (b : Bool) : (s.setFlag f b).cycles = s.cycles := rfl
@[simp] theorem State.setFlag_fault (f : Flag) (b : Bool) : (s.setFlag f b).fault = s.fault := rfl
@[simp] theorem State.setFlag_launch (f : Flag) (b : Bool) : (s.setFlag f b).launch = s.launch := rfl
@[simp] theorem State.setFlag_frames (f : Flag) (b : Bool) : (s.setFlag f b).frames = s.frames := rfl

@[simp] theorem State.setNZ_a (v : Byte) : (s.setNZ v).a = s.a := rfl
@[simp] theorem State.setNZ_x (v : Byte) : (s.setNZ v).x = s.x := rfl
@[simp] theorem State.setNZ_y (v : Byte) : (s.setNZ v).y = s.y := rfl
@[simp] theorem State.setNZ_sp (v : Byte) : (s.setNZ v).sp = s.sp := rfl
@[simp] theorem State.setNZ_pc (v : Byte) : (s.setNZ v).pc = s.pc := rfl
@[simp] theorem State.setNZ_ram (v : Byte) : (s.setNZ v).ram = s.ram := rfl
@[simp] theorem State.setNZ_ppu (v : Byte) : (s.setNZ v).ppu = s.ppu := rfl
@[simp] theorem State.setNZ_joy (v : Byte) : (s.setNZ v).joy = s.joy := rfl
@[simp] theorem State.setNZ_cycles (v : Byte) : (s.setNZ v).cycles = s.cycles := rfl
@[simp] theorem State.setNZ_fault (v : Byte) : (s.setNZ v).fault = s.fault := rfl
@[simp] theorem State.setNZ_launch (v : Byte) : (s.setNZ v).launch = s.launch := rfl
@[simp] theorem State.setNZ_frames (v : Byte) : (s.setNZ v).frames = s.frames := rfl

@[simp] theorem State.addC_x (m : Byte) : (s.addC m).x = s.x := rfl
@[simp] theorem State.subC_x (m : Byte) : (s.subC m).x = s.x := rfl
@[simp] theorem State.addC_y (m : Byte) : (s.addC m).y = s.y := rfl
@[simp] theorem State.subC_y (m : Byte) : (s.subC m).y = s.y := rfl
@[simp] theorem State.addC_sp (m : Byte) : (s.addC m).sp = s.sp := rfl
@[simp] theorem State.subC_sp (m : Byte) : (s.subC m).sp = s.sp := rfl
@[simp] theorem State.addC_pc (m : Byte) : (s.addC m).pc = s.pc := rfl
@[simp] theorem State.subC_pc (m : Byte) : (s.subC m).pc = s.pc := rfl
@[simp] theorem State.addC_ram (m : Byte) : (s.addC m).ram = s.ram := rfl
@[simp] theorem State.subC_ram (m : Byte) : (s.subC m).ram = s.ram := rfl
@[simp] theorem State.addC_ppu (m : Byte) : (s.addC m).ppu = s.ppu := rfl
@[simp] theorem State.subC_ppu (m : Byte) : (s.subC m).ppu = s.ppu := rfl
@[simp] theorem State.addC_joy (m : Byte) : (s.addC m).joy = s.joy := rfl
@[simp] theorem State.subC_joy (m : Byte) : (s.subC m).joy = s.joy := rfl
@[simp] theorem State.addC_cycles (m : Byte) : (s.addC m).cycles = s.cycles := rfl
@[simp] theorem State.subC_cycles (m : Byte) : (s.subC m).cycles = s.cycles := rfl
@[simp] theorem State.addC_fault (m : Byte) : (s.addC m).fault = s.fault := rfl
@[simp] theorem State.subC_fault (m : Byte) : (s.subC m).fault = s.fault := rfl
@[simp] theorem State.addC_launch (m : Byte) : (s.addC m).launch = s.launch := rfl
@[simp] theorem State.subC_launch (m : Byte) : (s.subC m).launch = s.launch := rfl
@[simp] theorem State.addC_frames (m : Byte) : (s.addC m).frames = s.frames := rfl
@[simp] theorem State.subC_frames (m : Byte) : (s.subC m).frames = s.frames := rfl

@[simp] theorem State.compare_a (r m : Byte) : (s.compare r m).a = s.a := rfl
@[simp] theorem State.bitTest_a (m : Byte) : (s.bitTest m).a = s.a := rfl
@[simp] theorem State.compare_x (r m : Byte) : (s.compare r m).x = s.x := rfl
@[simp] theorem State.bitTest_x (m : Byte) : (s.bitTest m).x = s.x := rfl
@[simp] theorem State.compare_y (r m : Byte) : (s.compare r m).y = s.y := rfl
@[simp] theorem State.bitTest_y (m : Byte) : (s.bitTest m).y = s.y := rfl
@[simp] theorem State.compare_sp (r m : Byte) : (s.compare r m).sp = s.sp := rfl
@[simp] theorem State.bitTest_sp (m : Byte) : (s.bitTest m).sp = s.sp := rfl
@[simp] theorem State.compare_pc (r m : Byte) : (s.compare r m).pc = s.pc := rfl
@[simp] theorem State.bitTest_pc (m : Byte) : (s.bitTest m).pc = s.pc := rfl
@[simp] theorem State.compare_ram (r m : Byte) : (s.compare r m).ram = s.ram := rfl
@[simp] theorem State.bitTest_ram (m : Byte) : (s.bitTest m).ram = s.ram := rfl
@[simp] theorem State.compare_ppu (r m : Byte) : (s.compare r m).ppu = s.ppu := rfl
@[simp] theorem State.bitTest_ppu (m : Byte) : (s.bitTest m).ppu = s.ppu := rfl
@[simp] theorem State.compare_joy (r m : Byte) : (s.compare r m).joy = s.joy := rfl
@[simp] theorem State.bitTest_joy (m : Byte) : (s.bitTest m).joy = s.joy := rfl
@[simp] theorem State.compare_cycles (r m : Byte) : (s.compare r m).cycles = s.cycles := rfl
@[simp] theorem State.bitTest_cycles (m : Byte) : (s.bitTest m).cycles = s.cycles := rfl
@[simp] theorem State.compare_fault (r m : Byte) : (s.compare r m).fault = s.fault := rfl
@[simp] theorem State.bitTest_fault (m : Byte) : (s.bitTest m).fault = s.fault := rfl
@[simp] theorem State.compare_launch (r m : Byte) : (s.compare r m).launch = s.launch := rfl
@[simp] theorem State.bitTest_launch (m : Byte) : (s.bitTest m).launch = s.launch := rfl
@[simp] theorem State.compare_frames (r m : Byte) : (s.compare r m).frames = s.frames := rfl
@[simp] theorem State.bitTest_frames (m : Byte) : (s.bitTest m).frames = s.frames := rfl

end Sys2Proof.Machine
end

