-- ==== Sys2Proof/Laws/Act.lean ====
section
/-! SUPPORT. Running actions, and relations between the state before an action and the state after it. -/

namespace Sys2Proof.Machine

variable {α β : Type}

theorem bind_apply (x : Act α) (f : α → Act β) (s : State) :
    (x >>= f) s = match x s with
      | .ok a t => f a t
      | .error e t => .error e t := by
  change EStateM.bind x f s = _
  unfold EStateM.bind
  cases x s <;> rfl

theorem bind_of_ok {x : Act α} {f : α → Act β} {s t : State} {a : α} (h : x s = .ok a t) :
    (x >>= f) s = f a t := by
  rw [bind_apply, h]

theorem bind_of_error {x : Act α} {f : α → Act β} {s t : State} {k : FaultKind} (h : x s = .error k t) :
    (x >>= f) s = .error k t := by
  rw [bind_apply, h]

@[simp] theorem getS_bind (f : State → α) (g : α → Act β) (s : State) : (getS f >>= g) s = g (f s) s := rfl
@[simp] theorem setS_bind (f : State → State) (g : Unit → Act β) (s : State) :
    (setS f >>= g) s = g () (f s) := rfl
@[simp] theorem pure_apply (a : α) (s : State) : (pure a : Act α) s = .ok a s := rfl
@[simp] theorem pure_bind_apply (a : α) (g : α → Act β) (s : State) : ((pure a : Act α) >>= g) s = g a s := rfl
@[simp] theorem getS_apply (f : State → α) (s : State) : getS f s = .ok (f s) s := rfl
@[simp] theorem setS_apply (f : State → State) (s : State) : setS f s = .ok () (f s) := rfl
@[simp] theorem raise_apply (k : FaultKind) (s : State) : (raise k : Act α) s = .error k s := rfl

theorem bind_eq_ok {x : Act α} {f : α → Act β} {s u : State} {b : β} :
    (x >>= f) s = .ok b u ↔ ∃ a t, x s = .ok a t ∧ f a t = .ok b u := by
  rw [bind_apply]
  constructor
  · intro h
    split at h
    · exact ⟨_, _, ‹_›, h⟩
    · cases h
  · rintro ⟨a, t, h, h'⟩
    rw [h]
    exact h'

theorem bind_eq_error {x : Act α} {f : α → Act β} {s u : State} {k : FaultKind} :
    (x >>= f) s = .error k u ↔ x s = .error k u ∨ ∃ a t, x s = .ok a t ∧ f a t = .error k u := by
  rw [bind_apply]
  constructor
  · intro h
    split at h
    · exact .inr ⟨_, _, ‹_›, h⟩
    · cases h
      exact .inl ‹_›
  · rintro (h | ⟨a, t, h, h'⟩)
    · rw [h]
    · rw [h]
      exact h'

/-! ## What an action does to the state, whether it ends with a value or with a fault -/

/-- The state an action leaves, with a value or with a fault. -/
def final : EStateM.Result FaultKind State α → State
  | .ok _ t => t
  | .error _ t => t

@[simp] theorem final_ok (a : α) (t : State) : final (.ok a t) = t := rfl
@[simp] theorem final_error (k : FaultKind) (t : State) : final (.error k t : EStateM.Result _ _ α) = t := rfl

/-- `R` relates every state to the one an action leaves. -/
def Keeps (R : State → State → Prop) (x : Act α) : Prop := ∀ s, R s (final (x s))

/-- A relation that a sequence of changes composes. -/
structure Composes (R : State → State → Prop) : Prop where
  refl : ∀ s, R s s
  trans : ∀ s t u, R s t → R t u → R s u

variable {R : State → State → Prop}

theorem Keeps.ok {x : Act α} (h : Keeps R x) {s t : State} {a : α} (hx : x s = .ok a t) : R s t := by
  have := h s
  rwa [hx] at this

theorem Keeps.error {x : Act α} (h : Keeps R x) {s t : State} {k : FaultKind} (hx : x s = .error k t) :
    R s t := by
  have := h s
  rwa [hx] at this

theorem Keeps.mono {R' : State → State → Prop} {x : Act α} (h : Keeps R x) (hR : ∀ s t, R s t → R' s t) :
    Keeps R' x := fun s => hR _ _ (h s)

theorem Composes.pure (hR : Composes R) (a : α) : Keeps R (pure a : Act α) := fun s => hR.refl s

theorem Composes.getS (hR : Composes R) (f : State → α) : Keeps R (getS f) := fun s => hR.refl s

theorem Composes.raise (hR : Composes R) (k : FaultKind) : Keeps R (raise k : Act α) := fun s => hR.refl s

theorem Composes.accessFault (hR : Composes R) (k : FaultKind) (d : α) : Keeps R (accessFault k d) := by
  intro s
  unfold Machine.accessFault
  split <;> exact hR.refl s

theorem keeps_setS {f : State → State} (h : ∀ s, R s (f s)) : Keeps R (setS f) := h

theorem Composes.bind (hR : Composes R) {x : Act α} {f : α → Act β} (hx : Keeps R x)
    (hf : ∀ a, Keeps R (f a)) : Keeps R (x >>= f) := by
  intro s
  rw [bind_apply]
  have h := hx s
  split
  · rename_i a t e
    rw [e] at h
    exact hR.trans _ _ _ h (hf a t)
  · rename_i k t e
    rwa [e] at h

/-- As `bind`, where what follows may depend on the value having been read. -/
theorem Composes.bind_of (hR : Composes R) {x : Act α} {f : α → Act β} (hx : Keeps R x)
    (hf : ∀ s t a, x s = .ok a t → R t (final (f a t))) : Keeps R (x >>= f) := by
  intro s
  rw [bind_apply]
  have h := hx s
  split
  · rename_i a t e
    rw [e] at h
    exact hR.trans _ _ _ h (hf s t a e)
  · rename_i k t e
    rwa [e] at h

end Sys2Proof.Machine
end

