-- ==== Sys2Proof/Laws/Memory.lean ====
section
/-! SUPPORT. Reading after writing, and that every memory operation keeps the canonical form. -/

namespace Sys2Proof.Machine

theorem Memory.read_erase (m : Memory) (a b : Nat) : read (m.erase a) b = if b = a then blank else read m b := by
  induction m with
  | nil => simp [erase, read]
  | cons c m ih =>
    obtain ⟨i, w⟩ := c
    simp only [erase] at ih ⊢
    by_cases hi : i = a
    · subst hi
      simp only [List.filter_cons, bne_self_eq_false, Bool.false_eq_true, if_false, ih, read]
      split <;> rfl
    · have : (i != a) = true := by simpa using hi
      simp only [List.filter_cons, this, if_true, read, ih]
      by_cases hb : b = i
      · subst hb; simp [hi]
      · simp [hb]

theorem Memory.read_insert (m : Memory) (a b : Nat) (v : Byte) (h : ∀ c ∈ m, c.1 ≠ a) :
    read (insert a v m) b = if b = a then v else read m b := by
  induction m with
  | nil => simp [insert, read]
  | cons c m ih =>
    obtain ⟨i, w⟩ := c
    have hi : i ≠ a := h (i, w) (by simp)
    have ih := ih fun c hc => h c (by simp [hc])
    simp only [insert]
    split
    · simp [read]
    · simp only [read, ih]
      by_cases hb : b = i
      · subst hb; simp [hi]
      · simp [hb]

theorem Memory.erase_ne (m : Memory) (a : Nat) : ∀ c ∈ m.erase a, c.1 ≠ a := by
  intro c hc
  simpa using (List.mem_filter.mp hc).2

/-- A read gives the byte last written at its index and is not moved by a write elsewhere. -/
@[simp] theorem Memory.read_write (m : Memory) (a b : Nat) (v : Byte) :
    read (m.write a v) b = if b = a then v else read m b := by
  unfold write
  split
  · rename_i h; rw [read_erase, h]
  · rw [read_insert _ _ _ _ (erase_ne m a), read_erase]
    split <;> rfl

theorem Memory.read_write_self (m : Memory) (a : Nat) (v : Byte) : read (m.write a v) a = v := by simp

theorem Memory.read_write_of_ne (m : Memory) {a b : Nat} (v : Byte) (h : b ≠ a) :
    read (m.write a v) b = read m b := by simp [h]

theorem Memory.mem_insert {m : Memory} {a : Nat} {v : Byte} {c : Host.Cell} :
    c ∈ insert a v m ↔ c = (a, v) ∨ c ∈ m := by
  induction m with
  | nil => simp [insert]
  | cons d m ih =>
    obtain ⟨i, w⟩ := d
    simp only [insert]
    split
    · simp
    · simp only [List.mem_cons, ih]; tauto

theorem Memory.wf_nil : wf [] := ⟨List.Pairwise.nil, by simp⟩

theorem Memory.wf_erase {m : Memory} (h : wf m) (a : Nat) : wf (m.erase a) :=
  ⟨h.1.sublist List.filter_sublist, fun c hc => h.2 c (List.mem_filter.mp hc).1⟩

theorem Memory.wf_insert {m : Memory} (h : wf m) {a : Nat} (ha : ∀ c ∈ m, c.1 ≠ a) {v : Byte} (hv : v ≠ blank) :
    wf (insert a v m) := by
  refine ⟨?_, fun c hc => ?_⟩
  · obtain ⟨hp, -⟩ := h
    induction m with
    | nil => simp [insert]
    | cons d m ih =>
      obtain ⟨i, w⟩ := d
      rw [List.pairwise_cons] at hp
      have hi : i ≠ a := ha (i, w) (by simp)
      simp only [insert]
      split
      · rename_i hlt
        refine List.pairwise_cons.mpr ⟨fun c hc => ?_, List.pairwise_cons.mpr hp⟩
        rcases List.mem_cons.mp hc with rfl | hc
        · exact hlt
        · exact Nat.lt_trans hlt (hp.1 c hc)
      · rename_i hlt
        refine List.pairwise_cons.mpr ⟨fun c hc => ?_, ih (fun c hc => ha c (by simp [hc])) hp.2⟩
        rcases mem_insert.mp hc with rfl | hc
        · simp only; omega
        · exact hp.1 c hc
  · rcases mem_insert.mp hc with rfl | hc
    · exact hv
    · exact h.2 c hc

/-- A write keeps the canonical form. -/
theorem Memory.wf_write {m : Memory} (h : wf m) (a : Nat) (v : Byte) : wf (m.write a v) := by
  unfold write
  split
  · exact wf_erase h a
  · exact wf_insert (wf_erase h a) (erase_ne m a) ‹_›

/-- A write below the size keeps the memory inside it. -/
theorem Memory.within_write {m : Memory} {size a : Nat} (h : within m size) (ha : a < size) (v : Byte) :
    within (m.write a v) size := by
  have he : within (m.erase a) size := fun c hc => h c (List.mem_filter.mp hc).1
  unfold write
  split
  · exact he
  · intro c hc
    rcases mem_insert.mp hc with rfl | hc
    · exact ha
    · exact he c hc

end Sys2Proof.Machine
end

