-- ==== Sys2Proof/Laws/Bus.lean ====
section
/-! SUPPORT. What a bus access can do to the state, and why it can fault. -/

namespace Sys2Proof.Machine

/-! ## The rows of the address map -/

/-- The address map in natural numbers. -/
theorem region_toNat (addr : Addr) : region addr =
    if addr.toNat ≤ 0x1FFF then .ram
    else if addr.toNat ≤ 0x3FFF then .ppu
    else if addr.toNat ≤ 0x4013 ∨ addr.toNat = 0x4015 then .apuStub
    else if addr.toNat = 0x4014 then .oamDma
    else if addr.toNat = 0x4016 then .joypad
    else if addr.toNat = 0x4017 then .joypad2
    else if addr.toNat ≤ 0x7FFF then .other
    else .prg := by
  simp [region, BitVec.le_def, ← BitVec.toNat_inj]

theorem region_eq_ram {addr : Addr} : region addr = .ram ↔ addr.toNat < 0x2000 := by
  rw [region_toNat]
  split_ifs <;> simp <;> omega

theorem region_eq_ppu {addr : Addr} : region addr = .ppu ↔ 0x2000 ≤ addr.toNat ∧ addr.toNat < 0x4000 := by
  rw [region_toNat]
  split_ifs <;> simp <;> omega

theorem region_eq_prg {addr : Addr} : region addr = .prg ↔ 0x8000 ≤ addr.toNat := by
  rw [region_toNat]
  split_ifs <;> simp <;> omega

theorem ramIndex_eq (addr : Addr) : ramIndex addr = addr.toNat % 2048 := by
  simp only [ramIndex, BitVec.toNat_and]
  exact Nat.and_two_pow_sub_one_eq_mod addr.toNat 11

theorem ramIndex_lt (addr : Addr) : ramIndex addr < 2048 := by rw [ramIndex_eq]; omega

theorem palIndex_lt (a : VAddr) : palIndex a < 32 := by
  have h : (a &&& 0x1F).toNat < 32 := by
    simp only [BitVec.toNat_and]
    exact Nat.lt_of_le_of_lt Nat.and_le_right (by decide)
  unfold palIndex
  simp only
  split <;> omega

theorem ntIndex_lt {m : Mirroring} {a : VAddr} {i : Nat} (h : ntIndex m a = some i) : i < 2048 := by
  have hoff : ((a &&& 0x2FFF) - 0x2000).toNat % 0x400 < 1024 := Nat.mod_lt _ (by decide)
  have hh : ∀ k : Nat, [0, 0, 1, 1].getD k 0 ≤ 1 := by
    intro k
    match k with
    | 0 | 1 | 2 | 3 => decide
    | k + 4 => simp
  have hv : ∀ k : Nat, [0, 1, 0, 1].getD k 0 ≤ 1 := by
    intro k
    match k with
    | 0 | 1 | 2 | 3 => decide
    | k + 4 => simp
  unfold ntIndex at h
  simp only at h
  split at h
  · cases h
    have := hh (((a &&& 0x2FFF) - 0x2000).toNat / 0x400)
    omega
  · cases h
    have := hv (((a &&& 0x2FFF) - 0x2000).toNat / 0x400)
    omega
  · cases h

/-- The register slots in natural numbers. -/
theorem ppuSlot_eq (addr : Addr) : ppuSlot addr =
    [.control, .mask, .status, .oamAddr, .oamData, .scroll, .address].getD (addr.toNat % 8) .data := by
  have h : (addr &&& 7).toNat = addr.toNat % 8 := by
    rw [BitVec.toNat_and]
    exact Nat.and_two_pow_sub_one_eq_mod addr.toNat 3
  have hlt : addr.toNat % 8 < 8 := Nat.mod_lt _ (by decide)
  unfold ppuSlot
  rw [h]
  generalize addr.toNat % 8 = n at hlt
  interval_cases n <;> rfl

/-! ## What a read can do -/

/-- What a bus read may change: the vblank flag (down only), the two latches, the buffer, the Address pointer
and the joypad cursor (20_memory.md R48). Everything else is as before. -/
structure ReadEffect (s t : State) : Prop where
  a : t.a = s.a
  x : t.x = s.x
  y : t.y = s.y
  sp : t.sp = s.sp
  p : t.p = s.p
  pc : t.pc = s.pc
  ram : t.ram = s.ram
  cycles : t.cycles = s.cycles
  fault : t.fault = s.fault
  launch : t.launch = s.launch
  frames : t.frames = s.frames
  ctrl : t.ppu.ctrl = s.ppu.ctrl
  mask : t.ppu.mask = s.ppu.mask
  oamAddr : t.ppu.oamAddr = s.ppu.oamAddr
  scrollX : t.ppu.scrollX = s.ppu.scrollX
  scrollY : t.ppu.scrollY = s.ppu.scrollY
  vram : t.ppu.vram = s.ppu.vram
  palette : t.ppu.palette = s.ppu.palette
  oam : t.ppu.oam = s.ppu.oam
  dot : t.ppu.dot = s.ppu.dot
  scanline : t.ppu.scanline = s.ppu.scanline
  nmiEdge : t.ppu.nmiEdge = s.ppu.nmiEdge
  strobe : t.joy.strobe = s.joy.strobe
  buttons : t.joy.buttons = s.joy.buttons
  vblank : t.ppu.vblank = true → s.ppu.vblank = true
  cursor : s.joy.cursor ≤ 8 → t.joy.cursor ≤ 8

theorem ReadEffect.composes : Composes ReadEffect where
  refl s := by constructor <;> first | rfl | exact id
  trans s t u h g := by
    constructor
    case vblank => exact fun e => h.vblank (g.vblank e)
    case cursor => exact fun e => g.cursor (h.cursor e)
    all_goals first
      | exact g.a.trans h.a | exact g.x.trans h.x | exact g.y.trans h.y | exact g.sp.trans h.sp
      | exact g.p.trans h.p | exact g.pc.trans h.pc | exact g.ram.trans h.ram
      | exact g.cycles.trans h.cycles | exact g.fault.trans h.fault | exact g.launch.trans h.launch
      | exact g.frames.trans h.frames | exact g.ctrl.trans h.ctrl | exact g.mask.trans h.mask
      | exact g.oamAddr.trans h.oamAddr | exact g.scrollX.trans h.scrollX
      | exact g.scrollY.trans h.scrollY | exact g.vram.trans h.vram | exact g.palette.trans h.palette
      | exact g.oam.trans h.oam | exact g.dot.trans h.dot | exact g.scanline.trans h.scanline
      | exact g.nmiEdge.trans h.nmiEdge | exact g.strobe.trans h.strobe
      | exact g.buttons.trans h.buttons

theorem ReadEffect.cpu {s t : State} (h : ReadEffect s t) : t.cpu = s.cpu := by
  simp only [State.cpu, State.flags, State.flag, h.a, h.x, h.y, h.sp, h.p]

theorem ReadEffect.flag {s t : State} (h : ReadEffect s t) (f : Flag) : t.flag f = s.flag f := by
  simp only [State.flag, h.p]

theorem ntIndexOrFault_state (a : VAddr) (s : State) : final (ntIndexOrFault a s) = s := by
  unfold ntIndexOrFault
  split <;> rfl

theorem ntIndexOrFault_keeps {R : State → State → Prop} (hR : Composes R) (a : VAddr) :
    Keeps R (ntIndexOrFault a) := fun s => by
  rw [ntIndexOrFault_state]
  exact hR.refl s

theorem ppuMem_keeps {R : State → State → Prop} (hR : Composes R) (a : VAddr) : Keeps R (ppuMem a) := by
  unfold ppuMem
  split
  · exact hR.getS _
  · split
    · exact hR.bind (ntIndexOrFault_keeps hR a) fun _ => hR.getS _
    · exact hR.getS _

theorem stepAddr_read : Keeps ReadEffect stepAddr :=
  keeps_setS fun s => by constructor <;> first | rfl | exact id

theorem ppuRegRead_keeps (addr : Addr) : Keeps ReadEffect (ppuRegRead addr) := by
  have hR := ReadEffect.composes
  unfold ppuRegRead
  split
  case h_6 =>
    refine hR.bind (hR.getS _) fun _ => hR.bind (keeps_setS fun s => ?_) fun _ => hR.pure _
    constructor <;> first | rfl | exact id | (intro h; cases h)
  case h_7 => exact hR.getS _
  case h_8 =>
    refine hR.bind (hR.getS _) fun a => ?_
    split
    · refine hR.bind (hR.getS _) fun _ => hR.bind (ppuMem_keeps hR a) fun b => hR.bind (keeps_setS fun s => ?_)
        fun _ => hR.bind stepAddr_read fun _ => hR.pure _
      constructor <;> first | rfl | exact id
    · exact hR.bind (hR.getS _) fun _ => hR.bind stepAddr_read fun _ => hR.pure _
  all_goals exact hR.accessFault _ _

theorem joyRead_keeps : Keeps ReadEffect joyRead := by
  have hR := ReadEffect.composes
  refine hR.bind_of (hR.getS _) fun s t j h => ?_
  cases h
  split
  · exact hR.refl _
  · rename_i hj
    refine (?_ : ReadEffect s (s.setJoy _))
    constructor <;> first
      | rfl
      | exact id
      | (simp only [State.setJoy_joy]; split <;> rfl)
      | (intro h; simp only [State.setJoy_joy]; split <;> first | exact h | exact Nat.succ_le_succ (Nat.not_lt.mp hj))

/-- A bus read, whether it answers or faults. -/
theorem busRead_keeps (addr : Addr) : Keeps ReadEffect (busRead addr) := by
  have hR := ReadEffect.composes
  unfold busRead
  split
  case h_1 => exact hR.getS _
  case h_2 => exact ppuRegRead_keeps addr
  case h_7 => exact joyRead_keeps
  case h_8 => exact hR.getS _
  all_goals exact hR.pure _

/-! ## What a write can do -/

/-- What a bus write may change: the devices and RAM. The CPU, the cycle count and the PPU's position stay; the
vblank flag can only go down (OAM DMA reads through the decoder); the memories stay in their form. -/
structure WriteEffect (s t : State) : Prop where
  a : t.a = s.a
  x : t.x = s.x
  y : t.y = s.y
  sp : t.sp = s.sp
  p : t.p = s.p
  pc : t.pc = s.pc
  cycles : t.cycles = s.cycles
  fault : t.fault = s.fault
  launch : t.launch = s.launch
  frames : t.frames = s.frames
  dot : t.ppu.dot = s.ppu.dot
  scanline : t.ppu.scanline = s.ppu.scanline
  nmiEdge : t.ppu.nmiEdge = s.ppu.nmiEdge
  buttons : t.joy.buttons = s.joy.buttons
  vblank : t.ppu.vblank = true → s.ppu.vblank = true
  cursor : s.joy.cursor ≤ 8 → t.joy.cursor ≤ 8
  memories : s.MemoriesOk → t.MemoriesOk

theorem WriteEffect.composes : Composes WriteEffect where
  refl s := by constructor <;> first | rfl | exact id
  trans s t u h g := by
    constructor
    case vblank => exact fun e => h.vblank (g.vblank e)
    case cursor => exact fun e => g.cursor (h.cursor e)
    case memories => exact fun e => g.memories (h.memories e)
    all_goals first
      | exact g.a.trans h.a | exact g.x.trans h.x | exact g.y.trans h.y | exact g.sp.trans h.sp
      | exact g.p.trans h.p | exact g.pc.trans h.pc
      | exact g.cycles.trans h.cycles | exact g.fault.trans h.fault | exact g.launch.trans h.launch
      | exact g.frames.trans h.frames | exact g.dot.trans h.dot | exact g.scanline.trans h.scanline
      | exact g.nmiEdge.trans h.nmiEdge | exact g.buttons.trans h.buttons

theorem WriteEffect.cpu {s t : State} (h : WriteEffect s t) : t.cpu = s.cpu := by
  simp only [State.cpu, State.flags, State.flag, h.a, h.x, h.y, h.sp, h.p]

theorem WriteEffect.flag {s t : State} (h : WriteEffect s t) (f : Flag) : t.flag f = s.flag f := by
  simp only [State.flag, h.p]

theorem ReadEffect.write {s t : State} (h : ReadEffect s t) : WriteEffect s t where
  a := h.a
  x := h.x
  y := h.y
  sp := h.sp
  p := h.p
  pc := h.pc
  cycles := h.cycles
  fault := h.fault
  launch := h.launch
  frames := h.frames
  dot := h.dot
  scanline := h.scanline
  nmiEdge := h.nmiEdge
  buttons := h.buttons
  vblank := h.vblank
  cursor := h.cursor
  memories := by
    unfold State.MemoriesOk
    rw [h.ram, h.vram, h.palette, h.oam]
    exact id

theorem oamCopy_ok {m : Memory} (h : Memory.wf m ∧ Memory.within m 256) (c : Byte) (bs : List Byte) :
    Memory.wf (oamCopy c bs m) ∧ Memory.within (oamCopy c bs m) 256 := by
  induction bs generalizing m c with
  | nil => exact h
  | cons b bs ih => exact ih ⟨Memory.wf_write h.1 _ _, Memory.within_write h.2 c.isLt _⟩ _

theorem readRun_keeps (addr : Addr) (n : Nat) : Keeps ReadEffect (readRun addr n) := by
  have hR := ReadEffect.composes
  induction n generalizing addr with
  | zero => exact hR.pure _
  | succ n ih => exact hR.bind (busRead_keeps addr) fun b => hR.bind (ih _) fun bs => hR.pure _

theorem oamDma_keeps (v : Byte) : Keeps WriteEffect (oamDma v) := by
  have hR := WriteEffect.composes
  refine hR.bind ((readRun_keeps _ _).mono fun _ _ h => h.write) fun bytes => keeps_setS fun s => ?_
  constructor <;> first | rfl | exact id | exact fun h => ⟨h.1, h.2.1, h.2.2.1, oamCopy_ok h.2.2.2 _ _⟩

theorem stepAddr_write : Keeps WriteEffect stepAddr := stepAddr_read.mono fun _ _ h => h.write

theorem ppuWrite_keeps (a : VAddr) (v : Byte) : Keeps WriteEffect (ppuWrite a v) := by
  have hR := WriteEffect.composes
  unfold ppuWrite
  split
  · exact hR.accessFault _ _
  · split
    · refine hR.bind_of (ntIndexOrFault_keeps hR a) fun s t i h => ?_
      have hi : i < 2048 := by
        unfold ntIndexOrFault at h
        split at h
        · rename_i j hj
          cases h
          exact ntIndex_lt hj
        · cases h
      refine (?_ : WriteEffect t (t.setPpu _))
      constructor <;> first
        | rfl
        | exact id
        | exact fun h => ⟨h.1, ⟨Memory.wf_write h.2.1.1 _ _, Memory.within_write h.2.1.2 hi _⟩, h.2.2⟩
    · refine keeps_setS fun s => ?_
      constructor <;> first
        | rfl
        | exact id
        | exact fun h =>
            ⟨h.1, h.2.1, ⟨Memory.wf_write h.2.2.1.1 _ _, Memory.within_write h.2.2.1.2 (palIndex_lt a) _⟩, h.2.2.2⟩

theorem ppuRegWrite_keeps (addr : Addr) (v : Byte) : Keeps WriteEffect (ppuRegWrite addr v) := by
  have hR := WriteEffect.composes
  unfold ppuRegWrite
  split
  case h_3 => exact hR.accessFault _ _
  case h_5 =>
    refine keeps_setS fun s => ?_
    constructor <;> first
      | rfl
      | exact id
      | exact fun h =>
          ⟨h.1, h.2.1, h.2.2.1, Memory.wf_write h.2.2.2.1 _ _, Memory.within_write h.2.2.2.2 s.ppu.oamAddr.isLt _⟩
  case h_6 =>
    refine keeps_setS fun s => ?_
    split <;> constructor <;> first | rfl | exact id
  case h_7 =>
    refine keeps_setS fun s => ?_
    split <;> constructor <;> first | rfl | exact id
  case h_8 => exact hR.bind (hR.getS _) fun a => hR.bind (ppuWrite_keeps a v) fun _ => stepAddr_write
  all_goals
    refine keeps_setS fun s => ?_
    constructor <;> first | rfl | exact id

theorem joyWrite_keeps (v : Byte) : Keeps WriteEffect (joyWrite v) := by
  refine keeps_setS fun s => ?_
  split <;> constructor <;> first | rfl | exact id | exact fun _ => Nat.zero_le 8

/-- A bus write, whether it completes or faults. -/
theorem busWrite_keeps (addr : Addr) (v : Byte) : Keeps WriteEffect (busWrite addr v) := by
  have hR := WriteEffect.composes
  unfold busWrite
  split
  case h_1 =>
    refine keeps_setS fun s => ?_
    constructor <;> first
      | rfl
      | exact id
      | exact fun h => ⟨⟨Memory.wf_write h.1.1 _ _, Memory.within_write h.1.2 (ramIndex_lt addr) _⟩, h.2⟩
  case h_2 => exact ppuRegWrite_keeps addr v
  case h_6 => exact oamDma_keeps v
  case h_7 => exact joyWrite_keeps v
  case h_8 => exact hR.accessFault _ _
  all_goals exact hR.pure _

/-! ## Why an access faults -/

/-- What the launch says when a fault of a kind is raised, and where the access went (60_exceptions.md R193,
20_memory.md R79). -/
def FaultKind.Cause (k : FaultKind) (l : Launch) : Prop :=
  match k with
  | .readWriteOnlyPpuRegister addr =>
    l.mode = .strict ∧ region addr = .ppu ∧
      ppuSlot addr ∈ [PpuSlot.control, .mask, .oamAddr, .scroll, .address]
  | .writeReadOnlyPpuRegister addr => l.mode = .strict ∧ region addr = .ppu ∧ ppuSlot addr = .status
  | .writeProgramMemory addr => l.mode = .strict ∧ region addr = .prg
  | .chrWrite a => l.mode = .strict ∧ a ≤ 0x1FFF
  | .fourScreenMirroring a => l.mirroring = .fourScreen ∧ ¬ a ≤ 0x1FFF ∧ a ≤ 0x3EFF
  | .unmappedOpcode op _ => executable l.unstable op = false

/-- An action that leaves the launch alone and faults only for a cause. -/
def Caused {α : Type} (x : Act α) : Prop :=
  ∀ s, match x s with
    | .ok _ t => t.launch = s.launch
    | .error k t => t.launch = s.launch ∧ k.Cause s.launch

theorem Caused.error {α : Type} {x : Act α} (h : Caused x) {s t : State} {k : FaultKind}
    (e : x s = .error k t) : k.Cause s.launch := by
  have := h s
  rw [e] at this
  exact this.2

theorem Caused.pure {α : Type} (a : α) : Caused (pure a : Act α) := fun _ => rfl

theorem Caused.getS {α : Type} (f : State → α) : Caused (getS f) := fun _ => rfl

theorem Caused.setS {f : State → State} (h : ∀ s, (f s).launch = s.launch) : Caused (setS f) := h

theorem Caused.bind {α β : Type} {x : Act α} {f : α → Act β} (hx : Caused x) (hf : ∀ a, Caused (f a)) :
    Caused (x >>= f) := by
  intro s
  have h := hx s
  rw [bind_apply]
  cases e : x s with
  | error k t =>
    rw [e] at h
    exact h
  | ok a t =>
    rw [e] at h
    have g := hf a t
    simp only at h ⊢
    cases e' : f a t with
    | ok b u =>
      rw [e'] at g
      exact g.trans h
    | error k u =>
      rw [e'] at g
      simp only at g ⊢
      exact ⟨g.1.trans h, h ▸ g.2⟩

theorem Caused.accessFault {α : Type} (k : FaultKind) (d : α) (h : ∀ l : Launch, l.mode = .strict → k.Cause l) :
    Caused (accessFault k d) := by
  intro s
  unfold Machine.accessFault
  cases e : s.launch.mode with
  | strict => exact ⟨rfl, h _ e⟩
  | permissive => rfl

theorem ntIndex_isSome {m : Mirroring} {a : VAddr} : ntIndex m a = none ↔ m = .fourScreen := by
  cases m <;> simp [ntIndex]

theorem ntIndexOrFault_caused {a : VAddr} (h1 : ¬ a ≤ 0x1FFF) (h2 : a ≤ 0x3EFF) : Caused (ntIndexOrFault a) := by
  intro s
  unfold ntIndexOrFault
  cases e : ntIndex s.launch.mirroring a with
  | some i => rfl
  | none => exact ⟨rfl, ntIndex_isSome.mp e, h1, h2⟩

theorem ppuMem_caused (a : VAddr) : Caused (ppuMem a) := by
  unfold ppuMem
  split
  · exact Caused.getS _
  · split
    · exact (ntIndexOrFault_caused ‹_› ‹_›).bind fun _ => Caused.getS _
    · exact Caused.getS _

theorem ppuWrite_caused (a : VAddr) (v : Byte) : Caused (ppuWrite a v) := by
  unfold ppuWrite
  split
  · exact Caused.accessFault _ _ fun l h => ⟨h, ‹_›⟩
  · split
    · exact (ntIndexOrFault_caused ‹_› ‹_›).bind fun _ => Caused.setS fun _ => rfl
    · exact Caused.setS fun _ => rfl

theorem stepAddr_caused : Caused stepAddr := Caused.setS fun _ => rfl

theorem ppuRegRead_caused {addr : Addr} (h : region addr = .ppu) : Caused (ppuRegRead addr) := by
  unfold ppuRegRead
  split
  case h_6 =>
    refine Caused.bind (Caused.getS _) fun _ => Caused.bind (Caused.setS fun s => ?_) fun _ => Caused.pure _
    rfl
  case h_7 => exact Caused.getS _
  case h_8 =>
    refine (Caused.getS _).bind fun a => ?_
    split
    · refine Caused.bind (Caused.getS _) fun _ => Caused.bind (ppuMem_caused a) fun _ =>
        Caused.bind (Caused.setS fun s => ?_) fun _ => Caused.bind stepAddr_caused fun _ => Caused.pure _
      rfl
    · exact Caused.bind (Caused.getS _) fun _ => Caused.bind stepAddr_caused fun _ => Caused.pure _
  all_goals
    rename_i e
    exact Caused.accessFault _ _ fun l hl => ⟨hl, h, by simp [e]⟩

theorem joyRead_caused : Caused joyRead := by
  refine (Caused.getS _).bind fun j => ?_
  split
  · exact Caused.pure _
  · refine Caused.bind (Caused.setS fun s => ?_) fun _ => Caused.pure _
    rfl

theorem busRead_caused (addr : Addr) : Caused (busRead addr) := by
  unfold busRead
  split
  case h_1 => exact Caused.getS _
  case h_2 => exact ppuRegRead_caused ‹_›
  case h_7 => exact joyRead_caused
  case h_8 => exact Caused.getS _
  all_goals exact Caused.pure _

theorem ppuRegWrite_caused {addr : Addr} (h : region addr = .ppu) (v : Byte) : Caused (ppuRegWrite addr v) := by
  unfold ppuRegWrite
  split
  case h_3 => exact Caused.accessFault _ _ fun l hl => ⟨hl, h, ‹_›⟩
  case h_8 =>
    exact (Caused.getS _).bind fun a => (ppuWrite_caused a v).bind fun _ => Caused.setS fun _ => rfl
  all_goals exact Caused.setS fun s => rfl

theorem readRun_caused (addr : Addr) (n : Nat) : Caused (readRun addr n) := by
  induction n generalizing addr with
  | zero => exact Caused.pure _
  | succ n ih => exact (busRead_caused addr).bind fun _ => (ih _).bind fun _ => Caused.pure _

theorem busWrite_caused (addr : Addr) (v : Byte) : Caused (busWrite addr v) := by
  unfold busWrite
  split
  case h_1 => exact Caused.setS fun _ => rfl
  case h_2 => exact ppuRegWrite_caused ‹_› v
  case h_6 => exact (readRun_caused _ _).bind fun _ => Caused.setS fun _ => rfl
  case h_7 => exact Caused.setS fun _ => rfl
  case h_8 => exact Caused.accessFault _ _ fun l hl => ⟨hl, ‹_›⟩
  all_goals exact Caused.pure _

/-! ## Plain memory -/

/-- A plain byte reads without a fault or an effect. -/
theorem busRead_of_peek {s : State} {addr : Addr} {v : Byte} (h : s.peek addr = some v) :
    busRead addr s = .ok v s := by
  unfold State.peek at h
  unfold busRead
  split at h <;> rename_i e
  · cases h
    simp only [e]; rfl
  · cases h
    simp only [e]; rfl
  · cases h
    simp only [e]; rfl
  · cases h
    simp only [e]; rfl
  · cases h
    simp only [e]; rfl
  · cases h
    simp only [e]; rfl
  · cases h
  · cases h

theorem busRead_ram {addr : Addr} (h : addr.toNat < 0x2000) (s : State) :
    busRead addr s = .ok (Memory.read s.ram (addr.toNat % 2048)) s := by
  unfold busRead
  simp only [region_eq_ram.mpr h, getS_apply, ramIndex_eq]

theorem busWrite_ram {addr : Addr} (h : addr.toNat < 0x2000) (v : Byte) (s : State) :
    busWrite addr v s = .ok () (s.setRam (addr.toNat % 2048) v) := by
  unfold busWrite
  simp only [region_eq_ram.mpr h, setS_apply, ramIndex_eq]

theorem busRead_prg {addr : Addr} (h : 0x8000 ≤ addr.toNat) (s : State) :
    busRead addr s = .ok (s.launch.prgByte addr) s := by
  unfold busRead
  simp only [region_eq_prg.mpr h, getS_apply]

end Sys2Proof.Machine
end

