-- ==== Sys2Proof/Laws/Flags.lean ====
section
/-! SUPPORT. Flags: each flag is its own bit of P, and the flag computations give the results of 43 and 44. -/

namespace Sys2Proof.Machine

theorem getLsbD_withFlag (f g : Flag) (b : Bool) (p : Byte) :
    (withFlag f b p).getLsbD g.bit = if g = f then b else p.getLsbD g.bit := by
  revert b p
  cases f <;> cases g <;> decide

@[simp] theorem State.flag_setFlag (s : State) (f g : Flag) (b : Bool) :
    (s.setFlag f b).flag g = if g = f then b else s.flag g :=
  getLsbD_withFlag f g b s.p

@[simp] theorem State.flag_setA (s : State) (v : Byte) (f : Flag) : (s.setA v).flag f = s.flag f := rfl
@[simp] theorem State.flag_setX (s : State) (v : Byte) (f : Flag) : (s.setX v).flag f = s.flag f := rfl
@[simp] theorem State.flag_setY (s : State) (v : Byte) (f : Flag) : (s.setY v).flag f = s.flag f := rfl
@[simp] theorem State.flag_setSp (s : State) (v : Byte) (f : Flag) : (s.setSp v).flag f = s.flag f := rfl
@[simp] theorem State.flag_setPc (s : State) (v : Addr) (f : Flag) : (s.setPc v).flag f = s.flag f := rfl
@[simp] theorem State.flag_setRam (s : State) (i : Nat) (v : Byte) (f : Flag) :
    (s.setRam i v).flag f = s.flag f := rfl
@[simp] theorem State.flag_setPpu (s : State) (q : Ppu) (f : Flag) : (s.setPpu q).flag f = s.flag f := rfl
@[simp] theorem State.flag_setJoy (s : State) (j : Joypad) (f : Flag) : (s.setJoy j).flag f = s.flag f := rfl
@[simp] theorem State.flag_setCycles (s : State) (n : Nat) (f : Flag) : (s.setCycles n).flag f = s.flag f := rfl
@[simp] theorem State.flag_setFault (s : State) (k : FaultKind) (f : Flag) :
    (s.setFault k).flag f = s.flag f := rfl
@[simp] theorem State.flag_setFrames (s : State) (n : Nat) (f : Flag) : (s.setFrames n).flag f = s.flag f := rfl

theorem State.flag_setP (s : State) (v : Byte) (f : Flag) : (s.setP v).flag f = v.getLsbD f.bit := rfl

@[simp] theorem State.flag_setNZ (s : State) (v : Byte) (f : Flag) :
    (s.setNZ v).flag f = if f = .n then v.getLsbD 7 else if f = .z then decide (v = 0) else s.flag f := by
  simp only [State.setNZ, State.flag_setFlag, beq_eq_decide]

/-! ## All flags at once -/

@[simp] theorem State.flags_setNZ (s : State) (v : Byte) : (s.setNZ v).flags = s.flags.nz v := by
  simp [State.flags, FlagValues.nz]

@[simp] theorem State.flags_setA (s : State) (v : Byte) : (s.setA v).flags = s.flags := rfl
@[simp] theorem State.flags_setX (s : State) (v : Byte) : (s.setX v).flags = s.flags := rfl
@[simp] theorem State.flags_setY (s : State) (v : Byte) : (s.setY v).flags = s.flags := rfl
@[simp] theorem State.flags_setSp (s : State) (v : Byte) : (s.setSp v).flags = s.flags := rfl
@[simp] theorem State.flags_setPc (s : State) (v : Addr) : (s.setPc v).flags = s.flags := rfl
@[simp] theorem State.flags_setRam (s : State) (i : Nat) (v : Byte) : (s.setRam i v).flags = s.flags := rfl
@[simp] theorem State.flags_setPpu (s : State) (q : Ppu) : (s.setPpu q).flags = s.flags := rfl
@[simp] theorem State.flags_setJoy (s : State) (j : Joypad) : (s.setJoy j).flags = s.flags := rfl
@[simp] theorem State.flags_setCycles (s : State) (n : Nat) : (s.setCycles n).flags = s.flags := rfl
@[simp] theorem State.flags_setFrames (s : State) (n : Nat) : (s.setFrames n).flags = s.flags := rfl

theorem State.flags_setFlag_c (s : State) (b : Bool) : (s.setFlag .c b).flags = { s.flags with c := b } := by
  simp [State.flags]
theorem State.flags_setFlag_z (s : State) (b : Bool) : (s.setFlag .z b).flags = { s.flags with z := b } := by
  simp [State.flags]
theorem State.flags_setFlag_i (s : State) (b : Bool) : (s.setFlag .i b).flags = { s.flags with i := b } := by
  simp [State.flags]
theorem State.flags_setFlag_d (s : State) (b : Bool) : (s.setFlag .d b).flags = { s.flags with d := b } := by
  simp [State.flags]
theorem State.flags_setFlag_v (s : State) (b : Bool) : (s.setFlag .v b).flags = { s.flags with v := b } := by
  simp [State.flags]
theorem State.flags_setFlag_n (s : State) (b : Bool) : (s.setFlag .n b).flags = { s.flags with n := b } := by
  simp [State.flags]

/-! ## The flag computations -/

theorem and_and_sign (x y : Byte) : ((x &&& y &&& 0x80) != 0) = (x.getLsbD 7 && y.getLsbD 7) := by
  have key : ∀ z : Byte, ((z &&& 0x80) != 0) = z.getLsbD 7 := by decide
  rw [key, BitVec.getLsbD_and]

theorem sign_eq (x : Byte) : x.getLsbD 7 = decide (128 ≤ x.toNat) := by
  revert x; decide

theorem toInt_eq (x : Byte) : x.toInt = if 128 ≤ x.toNat then (x.toNat : Int) - 256 else x.toNat := by
  revert x; decide

/-- The XOR test of R126 is signed overflow. -/
theorem overflow_eq (a m : Byte) (c : Bool) :
    (((a ^^^ BitVec.ofNat 8 ((a.toNat + m.toNat) % 256 + c.toNat)) &&&
        (m ^^^ BitVec.ofNat 8 ((a.toNat + m.toNat) % 256 + c.toNat)) &&& 0x80) != 0) =
      decide (a.toInt + m.toInt + (c.toNat : Int) < -128 ∨ 127 < a.toInt + m.toInt + (c.toNat : Int)) := by
  have ha := a.isLt
  have hm := m.isLt
  have hc := Bool.toNat_le c
  rw [and_and_sign, BitVec.getLsbD_xor, BitVec.getLsbD_xor, sign_eq, sign_eq, sign_eq, toInt_eq, toInt_eq,
    Bool.eq_iff_iff, BitVec.toNat_ofNat]
  by_cases h1 : 128 ≤ a.toNat <;> by_cases h2 : 128 ≤ m.toNat <;>
    simp only [h1, h2, decide_true, decide_false, Bool.true_xor, Bool.false_xor, Bool.and_eq_true,
      Bool.not_eq_true', decide_eq_true_eq, decide_eq_false_iff_not, if_true, if_false] <;> omega

/-- `AddC` in integer arithmetic (R126). -/
theorem State.addC_cpu (s : State) (m : Byte) : (s.addC m).cpu = s.cpu.addC m := by
  have h : BitVec.ofNat 8 ((s.a.toNat + m.toNat) % 256 + (s.flag .c).toNat) =
      BitVec.ofNat 8 (s.a.toNat + m.toNat + (s.flag .c).toNat) := by
    apply BitVec.eq_of_toNat_eq; simp only [BitVec.toNat_ofNat]; omega
  have hcar : (decide (256 ≤ s.a.toNat + m.toNat) ||
      decide (256 ≤ (s.a.toNat + m.toNat) % 256 + (s.flag .c).toNat)) =
      decide (255 < s.a.toNat + m.toNat + (s.flag .c).toNat) := by
    have ha := s.a.isLt
    have hm := m.isLt
    have hc := Bool.toNat_le (s.flag .c)
    rw [Bool.eq_iff_iff]
    simp only [Bool.or_eq_true, decide_eq_true_eq]
    omega
  have hv := overflow_eq s.a m (s.flag .c)
  rw [h] at hv
  simp only [State.addC, hcar, h, hv]
  simp [State.cpu, Cpu.addC, Cpu.loadA, FlagValues.nz, State.flags]
  refine ⟨?_, ?_, ?_⟩ <;> rw [Bool.eq_iff_iff] <;>
    simp only [decide_eq_true_eq, Bool.or_eq_true] <;> exact decide_eq_true_iff.symm
theorem State.subC_cpu (s : State) (m : Byte) : (s.subC m).cpu = s.cpu.addC (~~~m) := s.addC_cpu _

/-- `Compare` (R132). -/
theorem State.compare_cpu (s : State) (r m : Byte) : (s.compare r m).cpu = s.cpu.compare r m := by
  simp [State.cpu, State.compare, Cpu.compare, State.flags_setFlag_c, BitVec.le_def, FlagValues.nz]

/-- BIT's flags (R131). -/
theorem State.bitTest_flags (s : State) (m : Byte) :
    (s.bitTest m).flags =
      { s.flags with z := decide (s.a &&& m = 0), n := m.getLsbD 7, v := m.getLsbD 6 } := by
  simp [State.bitTest, State.flags, beq_eq_decide]

/-- The shift helper of a shift (R141 to R144). -/
def Shift.helper : Shift → Byte → Act Byte
  | .asl => aslOf
  | .lsr => lsrOf
  | .rol => rolOf
  | .ror => rorOf

/-- Each helper gives the arithmetic result and leaves the carry out in C. -/
theorem Shift.helper_eq (k : Shift) (m : Byte) (s : State) :
    k.helper m s = .ok (k.result (s.flag .c) m) (s.setFlag .c (k.carryOut m)) := by
  have asl : ∀ m : Byte, m <<< 1 = Shift.asl.result false m ∧ m.getLsbD 7 = Shift.asl.carryOut m := by decide
  have lsr : ∀ m : Byte, m >>> 1 = Shift.lsr.result false m ∧ m.getLsbD 0 = Shift.lsr.carryOut m := by decide
  have rol : ∀ (m : Byte) (c : Bool), (m <<< 1) ||| carryByte c = Shift.rol.result c m := by decide
  have ror : ∀ (m : Byte) (c : Bool), (m >>> 1) ||| (carryByte c <<< 7) = Shift.ror.result c m := by decide
  cases k
  · change EStateM.Result.ok _ _ = _
    rw [(asl m).1, (asl m).2]; rfl
  · change EStateM.Result.ok _ _ = _
    rw [(lsr m).1, (lsr m).2]; rfl
  · change EStateM.Result.ok _ _ = _
    rw [rol, (asl m).2]; rfl
  · change EStateM.Result.ok _ _ = _
    rw [ror, (lsr m).2]; rfl

end Sys2Proof.Machine
end

