-- ==== Sys2Proof/Laws/Clock.lean ====
section
/-! SUPPORT. What the bus tick does: it moves the clock and nothing else, three dots a cycle, and an NMI edge
needs Control bit 7. -/

namespace Sys2Proof.Machine

/-- A position in the frame, in dots. -/
def Ppu.position (q : Ppu) : Nat := q.scanline * 341 + q.dot

/-- What time may change: the clock. -/
structure TimeEffect (s t : State) : Prop where
  a : t.a = s.a
  x : t.x = s.x
  y : t.y = s.y
  sp : t.sp = s.sp
  p : t.p = s.p
  pc : t.pc = s.pc
  ram : t.ram = s.ram
  fault : t.fault = s.fault
  launch : t.launch = s.launch
  ctrl : t.ppu.ctrl = s.ppu.ctrl
  mask : t.ppu.mask = s.ppu.mask
  oamAddr : t.ppu.oamAddr = s.ppu.oamAddr
  scrollX : t.ppu.scrollX = s.ppu.scrollX
  scrollY : t.ppu.scrollY = s.ppu.scrollY
  scrollLatch : t.ppu.scrollLatch = s.ppu.scrollLatch
  addr : t.ppu.addr = s.ppu.addr
  addrLatch : t.ppu.addrLatch = s.ppu.addrLatch
  readBuf : t.ppu.readBuf = s.ppu.readBuf
  vram : t.ppu.vram = s.ppu.vram
  palette : t.ppu.palette = s.ppu.palette
  oam : t.ppu.oam = s.ppu.oam
  strobe : t.joy.strobe = s.joy.strobe
  cursor : t.joy.cursor = s.joy.cursor
  edge : t.ppu.nmiEdge = true → s.ppu.nmiEdge = true ∨ s.ppu.ctrl.getLsbD 7 = true
  edgeKept : s.ppu.nmiEdge = true → t.ppu.nmiEdge = true

theorem TimeEffect.refl (s : State) : TimeEffect s s := by
  constructor <;> first | rfl | exact id | exact .inl

theorem TimeEffect.trans {s t u : State} (h : TimeEffect s t) (g : TimeEffect t u) : TimeEffect s u := by
  constructor
  case edge =>
    intro e
    rcases g.edge e with e | e
    · exact h.edge e
    · exact .inr (h.ctrl ▸ e)
  case edgeKept => exact fun e => g.edgeKept (h.edgeKept e)
  all_goals first
    | exact g.a.trans h.a | exact g.x.trans h.x | exact g.y.trans h.y | exact g.sp.trans h.sp
    | exact g.p.trans h.p | exact g.pc.trans h.pc | exact g.ram.trans h.ram | exact g.fault.trans h.fault
    | exact g.launch.trans h.launch | exact g.ctrl.trans h.ctrl | exact g.mask.trans h.mask
    | exact g.oamAddr.trans h.oamAddr | exact g.scrollX.trans h.scrollX | exact g.scrollY.trans h.scrollY
    | exact g.scrollLatch.trans h.scrollLatch | exact g.addr.trans h.addr
    | exact g.addrLatch.trans h.addrLatch | exact g.readBuf.trans h.readBuf | exact g.vram.trans h.vram
    | exact g.palette.trans h.palette | exact g.oam.trans h.oam | exact g.strobe.trans h.strobe
    | exact g.cursor.trans h.cursor

theorem vblEnter_time (s : State) : TimeEffect s (vblEnter s) := by
  constructor <;> first
    | rfl
    | (intro h; exact Bool.or_eq_true_iff.mp h)
    | (intro h; exact Bool.or_eq_true_iff.mpr (.inl h))

theorem vblLeave_time (s : State) : TimeEffect s (vblLeave s) := by
  constructor <;> first | rfl | exact id | exact .inl

theorem setDot_time (s : State) (d l : Nat) :
    TimeEffect s (s.setPpu { s.ppu with dot := d, scanline := l }) := by
  constructor <;> first | rfl | exact id | exact .inl

theorem nextLine_time (s : State) : TimeEffect s (nextLine s) := by
  unfold nextLine
  simp only
  have h1 := setDot_time s 0 (s.ppu.scanline + 1)
  have h2 : ∀ t : State, TimeEffect t (if t.ppu.scanline = vblankLine then vblEnter t else t) := by
    intro t
    split
    · exact vblEnter_time t
    · exact .refl t
  have h3 : ∀ t : State, TimeEffect t
      (if t.ppu.scanline = linesPerFrame then vblLeave (t.setPpu { t.ppu with scanline := 0 }) else t) := by
    intro t
    split
    · exact (setDot_time t t.ppu.dot 0).trans (vblLeave_time _)
    · exact .refl t
  exact (h1.trans (h2 _)).trans (h3 _)

theorem ppuDot_time (s : State) : TimeEffect s (ppuDot s) := by
  unfold ppuDot
  split
  · exact nextLine_time s
  · exact setDot_time s (s.ppu.dot + 1) s.ppu.scanline

theorem ppuDots_time (n : Nat) (s : State) : TimeEffect s (ppuDots n s) := by
  induction n generalizing s with
  | zero => exact .refl s
  | succ n ih => exact (ppuDot_time s).trans (ih _)

/-- The tick moves only the clock (60_exceptions.md R204). -/
theorem tick_time (n : Nat) (s : State) : TimeEffect s (tick n s) := by
  refine TimeEffect.trans ?_ (ppuDots_time _ _)
  constructor <;> first | rfl | exact id | exact .inl

theorem TimeEffect.cpu {s t : State} (h : TimeEffect s t) : t.cpu = s.cpu := by
  simp only [State.cpu, State.flags, State.flag, h.a, h.x, h.y, h.sp, h.p]

theorem TimeEffect.flag {s t : State} (h : TimeEffect s t) (f : Flag) : t.flag f = s.flag f := by
  simp only [State.flag, h.p]

theorem TimeEffect.devices {s t : State} (h : TimeEffect s t) : t.devices = s.devices := by
  simp only [State.devices, h.ram, h.ctrl, h.mask, h.oamAddr, h.scrollX, h.scrollY, h.scrollLatch, h.addr,
    h.addrLatch, h.readBuf, h.vram, h.palette, h.oam, h.strobe, h.cursor, h.fault, h.launch]

@[simp] theorem tick_cpu (n : Nat) (s : State) : (tick n s).cpu = s.cpu := (tick_time n s).cpu
@[simp] theorem tick_devices (n : Nat) (s : State) : (tick n s).devices = s.devices := (tick_time n s).devices
@[simp] theorem tick_pc (n : Nat) (s : State) : (tick n s).pc = s.pc := (tick_time n s).pc
@[simp] theorem tick_sp (n : Nat) (s : State) : (tick n s).sp = s.sp := (tick_time n s).sp
@[simp] theorem tick_ram (n : Nat) (s : State) : (tick n s).ram = s.ram := (tick_time n s).ram
@[simp] theorem tick_launch (n : Nat) (s : State) : (tick n s).launch = s.launch := (tick_time n s).launch
@[simp] theorem tick_fault (n : Nat) (s : State) : (tick n s).fault = s.fault := (tick_time n s).fault
@[simp] theorem tick_flag (n : Nat) (s : State) (f : Flag) : (tick n s).flag f = s.flag f :=
  (tick_time n s).flag f

/-! ## The counters -/

theorem vblEnter_counters (s : State) : (vblEnter s).cycles = s.cycles ∧ (vblEnter s).ppu.dot = s.ppu.dot ∧
    (vblEnter s).ppu.scanline = s.ppu.scanline := ⟨rfl, rfl, rfl⟩

/-- One dot: the position moves by one and wraps at the end of the frame (R205). -/
theorem ppuDot_counters (s : State) (h : s.ClockOk) :
    (ppuDot s).ClockOk ∧ (ppuDot s).cycles = s.cycles ∧
      (ppuDot s).ppu.position = (s.ppu.position + 1) % 89342 := by
  obtain ⟨hd, hl⟩ := h
  by_cases h1 : s.ppu.dot + 1 = 341
  · have e : ppuDot s = nextLine s := by simp [ppuDot, dotsPerLine, h1]
    rw [e]
    unfold nextLine
    by_cases h2 : s.ppu.scanline + 1 = 241
    · simp [h2, vblankLine, linesPerFrame, vblEnter, hostFrame, State.ClockOk, Ppu.position]
      omega
    · by_cases h3 : s.ppu.scanline + 1 = 262
      · simp [h3, vblankLine, linesPerFrame, vblLeave, State.ClockOk, Ppu.position]
        omega
      · simp [h2, h3, vblankLine, linesPerFrame, State.ClockOk, Ppu.position]
        omega
  · simp [ppuDot, dotsPerLine, h1, State.ClockOk, Ppu.position]
    omega

theorem ppuDots_counters (n : Nat) (s : State) (h : s.ClockOk) :
    (ppuDots n s).ClockOk ∧ (ppuDots n s).cycles = s.cycles ∧
      (ppuDots n s).ppu.position = (s.ppu.position + n) % 89342 := by
  induction n generalizing s with
  | zero =>
    refine ⟨h, rfl, ?_⟩
    change s.ppu.position = (s.ppu.position + 0) % 89342
    obtain ⟨hd, hl⟩ := h
    unfold Ppu.position
    omega
  | succ n ih =>
    obtain ⟨h1, h2, h3⟩ := ppuDot_counters s h
    obtain ⟨g1, g2, g3⟩ := ih _ h1
    refine ⟨g1, g2.trans h2, ?_⟩
    show (ppuDots n (ppuDot s)).ppu.position = _
    rw [g3, h3]
    omega

theorem ppuDots_cycles (n : Nat) (s : State) : (ppuDots n s).cycles = s.cycles := by
  induction n generalizing s with
  | zero => rfl
  | succ n ih =>
    refine (ih _).trans ?_
    unfold ppuDot nextLine
    simp only
    split_ifs <;> simp [vblEnter, vblLeave, hostFrame]

@[simp] theorem tick_cycles (n : Nat) (s : State) : (tick n s).cycles = s.cycles + n :=
  ppuDots_cycles (ppuPerCpu * n) (s.setCycles (s.cycles + n))

/-- The tick advances the position by three dots a cycle (R204, R205). -/
theorem tick_counters (n : Nat) (s : State) (h : s.ClockOk) :
    (tick n s).ClockOk ∧ (tick n s).ppu.position = (s.ppu.position + 3 * n) % 89342 := by
  have h' := ppuDots_counters (ppuPerCpu * n) (s.setCycles (s.cycles + n)) h
  unfold tick
  exact ⟨h'.1, h'.2.2⟩

/-! ## The clock depends on itself and on Control alone -/

theorem ppuDot_clock {s t : State} (h : s.clock = t.clock) (hc : s.ppu.ctrl = t.ppu.ctrl) :
    (ppuDot s).clock = (ppuDot t).clock := by
  simp only [State.clock, Clock.mk.injEq] at h
  obtain ⟨h1, h2, h3, h4, h5, h6, h7⟩ := h
  unfold ppuDot nextLine
  simp only [h2, h3, State.setPpu_ppu]
  split_ifs <;>
    simp_all [State.clock, vblEnter, vblLeave, hostFrame]

theorem ppuDots_clock (n : Nat) {s t : State} (h : s.clock = t.clock) (hc : s.ppu.ctrl = t.ppu.ctrl) :
    (ppuDots n s).clock = (ppuDots n t).clock := by
  induction n generalizing s t with
  | zero => exact h
  | succ n ih =>
    exact ih (ppuDot_clock h hc) ((ppuDot_time s).ctrl.trans (hc.trans (ppuDot_time t).ctrl.symm))

/-- States with the same clock and Control tick alike. -/
theorem tick_clock (n : Nat) {s t : State} (h : s.clock = t.clock) (hc : s.ppu.ctrl = t.ppu.ctrl) :
    (tick n s).clock = (tick n t).clock := by
  refine ppuDots_clock _ ?_ hc
  simp only [State.clock, Clock.mk.injEq] at h ⊢
  simp_all

theorem clock_tick_of_devices (n : Nat) {s t : State} (h : s.clock = t.clock) (hd : s.devices = t.devices) :
    (tick n s).clock = (tick n t).clock := by
  refine tick_clock n h ?_
  simp only [State.devices, Devices.mk.injEq] at hd
  exact hd.2.1

end Sys2Proof.Machine
end

