-- ==== Sys2Proof/Laws/Encoding.lean ====
section
/-! SUPPORT. Words and their bytes; the encoder has an opcode byte for exactly the well-formed instructions, and as
many operand bytes as the form says; every cell of the opcode grid makes an instruction of its own opcode byte. -/

namespace Sys2Proof

/-! ## Words -/

theorem toNat_w16 (h l : Byte) : (w16 h l).toNat = 256 * h.toNat + l.toNat := by
  unfold w16
  rw [BitVec.toNat_append, ← Nat.shiftLeft_add_eq_or_of_lt l.isLt, Nat.shiftLeft_eq]
  omega

theorem toNat_hi (w : Addr) : (hi w).toNat = w.toNat / 256 := by
  have := w.isLt
  simp only [hi, BitVec.extractLsb'_toNat, Nat.shiftRight_eq_div_pow]
  omega

theorem toNat_lo (w : Addr) : (lo w).toNat = w.toNat % 256 := by
  simp only [lo, BitVec.extractLsb'_toNat, Nat.shiftRight_zero]

theorem w16_hi_lo (w : Addr) : w16 (hi w) (lo w) = w := by
  apply BitVec.eq_of_toNat_eq
  rw [toNat_w16, toNat_hi, toNat_lo]
  omega

theorem hi_w16 (h l : Byte) : hi (w16 h l) = h := by
  have := l.isLt
  apply BitVec.eq_of_toNat_eq
  rw [toNat_hi, toNat_w16]
  omega

theorem lo_w16 (h l : Byte) : lo (w16 h l) = l := by
  have := l.isLt
  apply BitVec.eq_of_toNat_eq
  rw [toNat_lo, toNat_w16]
  omega

/-! ## The encoder -/

theorem carried_eq_some {op c : Byte} {bytes : List Byte} : carried op bytes = some c ↔ op ∈ bytes ∧ op = c := by
  unfold carried
  split <;> simp_all

theorem nopMemory_opcode (op : Byte) (o : Operand) :
    WellFormed (.nopMemory op o) ↔ (Instr.nopMemory op o).opcode.isSome = true := by
  revert op
  cases o <;> simp only [WellFormed, Instr.modes, Instr.mode, Instr.opcode, Operand.mode] <;> decide

/-- Exactly the well-formed instructions have an opcode byte. -/
theorem wellFormed_iff (i : Instr) : WellFormed i ↔ ∃ op, i.opcode = some op := by
  rw [← Option.isSome_iff_exists]
  cases i
  case nopMemory op o => exact nopMemory_opcode op o
  all_goals first
    | exact ⟨fun _ => rfl, fun _ => by simp [WellFormed, Instr.modes, Instr.mode]⟩
    | (rename Operand => o
       simp only [WellFormed, Instr.modes, Instr.mode, Instr.opcode]
       generalize Operand.mode o = m
       cases m <;> decide)
    | (rename_i op
       revert op
       decide)
    | (rename_i op v
       revert op
       simp only [WellFormed, Instr.modes, Instr.mode, Instr.opcode]
       decide)

theorem operandBytes_length (i : Instr) : i.operandBytes.length + 1 = i.length := by
  cases i
  all_goals first
    | rfl
    | (rename Operand => o; cases o <;> rfl)

theorem encode_of_opcode {i : Instr} {op : Byte} (h : i.opcode = some op) : encode i = op :: i.operandBytes := by
  unfold encode
  rw [h]

theorem form_of_wellFormed (i : Instr) (h : WellFormed i) :
    ∃ op, i.opcode = some op ∧ encode i = op :: i.operandBytes ∧ (encode i).length = i.length := by
  obtain ⟨op, hop⟩ := (wellFormed_iff i).mp h
  refine ⟨op, hop, encode_of_opcode hop, ?_⟩
  rw [encode_of_opcode hop]
  exact operandBytes_length i

/-! ## The opcode grid -/

/-- Three-byte instructions: the operand word comes back from its bytes. -/
theorem decode_f3 (g : Addr → Instr) (op : Byte) (rest : List Byte) (a : Addr) (e : entryOf op = .f3 g) :
    decode (op :: ([lo a, hi a] ++ rest)) = .ok (g a, rest) := by
  simp only [List.cons_append, List.nil_append, decode, e, w16_hi_lo]

/-- The instructions a cell makes: their opcode byte and operand bytes. -/
def Entry.Makes (op : Byte) : Entry → Prop
  | .f1 i => i.opcode = some op ∧ i.operandBytes = [] ∧ i.length = 1
  | .f2 f => ∀ b, (f b).opcode = some op ∧ (f b).operandBytes = [b] ∧ (f b).length = 2
  | .f3 f => ∀ w, (f w).opcode = some op ∧ (f w).operandBytes = [lo w, hi w] ∧ (f w).length = 3

/-- Every cell makes instructions of its own opcode byte. -/
theorem entryOf_makes (op : Byte) : (entryOf op).Makes op := by
  obtain ⟨n, hn, rfl⟩ : ∃ n < 256, op = BitVec.ofNat 8 n := ⟨op.toNat, op.isLt, by simp⟩
  interval_cases n <;> first
    | (change Entry.Makes _ (.f1 _); exact ⟨rfl, rfl, rfl⟩)
    | (change Entry.Makes _ (.f2 _); exact fun _ => ⟨rfl, rfl, rfl⟩)
    | (change Entry.Makes _ (.f3 _); exact fun _ => ⟨rfl, rfl, rfl⟩)

end Sys2Proof
end

