-- ==== Sys2Proof/Laws/Ops.lean ====
section
/-! SUPPORT. What each named operation gives: the stack, interrupt entry and return, the end of an instruction and
the fetch. -/

namespace Sys2Proof.Machine

/-! ## The stack -/

theorem sub_one_sub (x : Byte) (n : Nat) : x - 1 - BitVec.ofNat 8 n = x - BitVec.ofNat 8 (n + 1) := by
  rw [sub_sub, add_comm, BitVec.ofNat_add]
  rfl

theorem stackAddr_toNat (sp : Byte) : (stackAddr sp).toNat = 0x100 + sp.toNat := by
  have := sp.isLt
  simp [stackAddr, BitVec.toNat_add]
  omega

theorem stackAddr_lt (sp : Byte) : (stackAddr sp).toNat < 0x2000 := by
  have := sp.isLt
  rw [stackAddr_toNat]
  omega

theorem stackAddr_mod (sp : Byte) : (stackAddr sp).toNat % 2048 = 0x100 + sp.toNat := by
  have := sp.isLt
  rw [stackAddr_toNat]
  omega

/-- `Push(v)` always completes (10_state.md R18). -/
theorem push_eq (v : Byte) (s : State) : push v s = .ok () (s.withPushed [v]) := by
  show (getS _ >>= fun sp => busWrite (stackAddr sp) v >>= fun _ => setS _) s = _
  rw [getS_bind, bind_of_ok (busWrite_ram (stackAddr_lt _) v s), stackAddr_mod]
  rfl

/-- `Pop()` always completes (10_state.md R18). -/
theorem pop_eq (s : State) : pop s = .ok (s.stackByte 1) (s.setSp (s.sp + 1)) := by
  show (setS _ >>= fun _ => getS _ >>= fun sp => busRead (stackAddr sp)) s = _
  rw [setS_bind, getS_bind, busRead_ram (stackAddr_lt _), stackAddr_mod]
  rfl

theorem withPushed_append (s : State) (bs cs : List Byte) :
    s.withPushed (bs ++ cs) = (s.withPushed bs).withPushed cs := by
  induction bs generalizing s with
  | nil => rfl
  | cons b bs ih => exact ih _

theorem push16_eq (w : Addr) (s : State) : push16 w s = .ok () (s.withPushed [hi w, lo w]) := by
  unfold push16
  rw [bind_of_ok (push_eq _ _), push_eq]
  rfl

theorem pop16_eq (s : State) :
    pop16 s = .ok (w16 (s.stackByte 2) (s.stackByte 1)) (s.setSp (s.sp + 2)) := by
  have e : s.sp + 1 + 1 = s.sp + 2 := by
    rw [BitVec.add_assoc]; rfl
  unfold pop16
  rw [bind_of_ok (pop_eq _), bind_of_ok (pop_eq _), pure_apply]
  simp only [State.stackByte, State.setSp_sp, State.setSp_ram, e]
  rfl

/-! What pushed bytes leave of a state. -/

section
variable (s : State) (bs : List Byte)

theorem withPushed_frame :
    (s.withPushed bs).a = s.a ∧ (s.withPushed bs).x = s.x ∧ (s.withPushed bs).y = s.y ∧
      (s.withPushed bs).p = s.p ∧ (s.withPushed bs).pc = s.pc ∧ (s.withPushed bs).ppu = s.ppu ∧
      (s.withPushed bs).joy = s.joy ∧ (s.withPushed bs).cycles = s.cycles ∧
      (s.withPushed bs).fault = s.fault ∧ (s.withPushed bs).launch = s.launch ∧
      (s.withPushed bs).frames = s.frames ∧
      (s.withPushed bs).sp = s.sp - BitVec.ofNat 8 bs.length := by
  induction bs generalizing s with
  | nil => simp [State.withPushed]
  | cons b bs ih =>
    obtain ⟨h1, h2, h3, h4, h5, h6, h7, h8, h9, h10, h11, h12⟩ := ih ((s.setRam (0x100 + s.sp.toNat) b).setSp (s.sp - 1))
    refine ⟨h1, h2, h3, h4, h5, h6, h7, h8, h9, h10, h11, h12.trans ?_⟩
    exact sub_one_sub _ _

@[simp] theorem withPushed_a : (s.withPushed bs).a = s.a := (withPushed_frame s bs).1
@[simp] theorem withPushed_x : (s.withPushed bs).x = s.x := (withPushed_frame s bs).2.1
@[simp] theorem withPushed_y : (s.withPushed bs).y = s.y := (withPushed_frame s bs).2.2.1
@[simp] theorem withPushed_p : (s.withPushed bs).p = s.p := (withPushed_frame s bs).2.2.2.1
@[simp] theorem withPushed_pc : (s.withPushed bs).pc = s.pc := (withPushed_frame s bs).2.2.2.2.1
@[simp] theorem withPushed_ppu : (s.withPushed bs).ppu = s.ppu := (withPushed_frame s bs).2.2.2.2.2.1
@[simp] theorem withPushed_joy : (s.withPushed bs).joy = s.joy := (withPushed_frame s bs).2.2.2.2.2.2.1
@[simp] theorem withPushed_cycles : (s.withPushed bs).cycles = s.cycles := (withPushed_frame s bs).2.2.2.2.2.2.2.1
@[simp] theorem withPushed_fault : (s.withPushed bs).fault = s.fault :=
  (withPushed_frame s bs).2.2.2.2.2.2.2.2.1
@[simp] theorem withPushed_launch : (s.withPushed bs).launch = s.launch :=
  (withPushed_frame s bs).2.2.2.2.2.2.2.2.2.1
@[simp] theorem withPushed_frames : (s.withPushed bs).frames = s.frames :=
  (withPushed_frame s bs).2.2.2.2.2.2.2.2.2.2.1
theorem withPushed_sp : (s.withPushed bs).sp = s.sp - BitVec.ofNat 8 bs.length :=
  (withPushed_frame s bs).2.2.2.2.2.2.2.2.2.2.2
@[simp] theorem withPushed_flag (f : Flag) : (s.withPushed bs).flag f = s.flag f := by
  simp only [State.flag, withPushed_p]

/-- A push leaves every byte outside the pushed places. -/
theorem withPushed_read (k : Nat) (h : ∀ j < bs.length, k ≠ 0x100 + (s.sp - BitVec.ofNat 8 j).toNat) :
    Memory.read (s.withPushed bs).ram k = Memory.read s.ram k := by
  induction bs generalizing s with
  | nil => rfl
  | cons b bs ih =>
    refine (ih _ fun j hj => ?_).trans (Memory.read_write_of_ne _ _ ?_)
    · have := h (j + 1) (by simpa using hj)
      rwa [← sub_one_sub] at this
    · simpa using h 0 (by simp)

end

/-! ## Interrupt entry and return -/

theorem read16_prg {addr : Addr} (h : 0x8000 ≤ addr.toNat) (h' : 0x8000 ≤ (addr + 1).toNat) (s : State) :
    read16 addr s = .ok (w16 (s.launch.prgByte (addr + 1)) (s.launch.prgByte addr)) s := by
  unfold read16
  rw [bind_of_ok (busRead_prg h s), bind_of_ok (busRead_prg h' s)]
  rfl

/-- A vector of the three fixed addresses (20_memory.md R58). -/
def State.vector (s : State) (addr : Addr) : Addr := w16 (s.launch.prgByte (addr + 1)) (s.launch.prgByte addr)

/-- Interrupt entry through a vector in PRG (R200). -/
theorem enterInterrupt_eq (ret : Addr) (p : Byte) (n : Nat) {vec : Addr} (h : 0x8000 ≤ vec.toNat)
    (h' : 0x8000 ≤ (vec + 1).toNat) (s : State) :
    enterInterrupt ret p n vec s =
      .ok () ((tick n ((s.withPushed [hi ret, lo ret, p]).setFlag .i true)).setPc (s.vector vec)) := by
  unfold enterInterrupt
  rw [bind_of_ok (push16_eq _ _), bind_of_ok (push_eq _ _), setS_bind, setS_bind, bind_of_ok (read16_prg h h' _),
    setS_apply, ← withPushed_append]
  simp only [State.vector, tick_launch, State.setFlag_launch, withPushed_launch]
  rfl

theorem pullStatus_eq (s : State) :
    pullStatus s = .ok () ((s.setSp (s.sp + 1)).setP (pulledStatus (s.stackByte 1) s.p)) := by
  unfold pullStatus
  rw [bind_of_ok (pop_eq s)]
  rfl

/-- Return from interrupt always completes (R148). -/
theorem returnFromInterrupt_eq (s : State) :
    returnFromInterrupt s =
      .ok () (((s.setSp (s.sp + 3)).setP (pulledStatus (s.stackByte 1) s.p)).setPc
        (w16 (s.stackByte 3) (s.stackByte 2))) := by
  have e1 : s.sp + 1 + 2 = s.sp + 3 := by rw [BitVec.add_assoc]; rfl
  have e2 : s.sp + 1 + 1 = s.sp + 2 := by rw [BitVec.add_assoc]; rfl
  unfold returnFromInterrupt
  rw [bind_of_ok (pullStatus_eq s), bind_of_ok (pop16_eq _), setS_apply]
  simp only [State.stackByte, State.setSp_sp, State.setSp_ram, State.setP_sp, State.setP_ram, e1, e2]
  rfl

/-- A pulled status: U is 1, B is kept, the rest is the popped byte (R125). -/
theorem pulledStatus_flag (v p : Byte) (f : Flag) : (pulledStatus v p).getLsbD f.bit =
    match f with
    | .u => true
    | .b => p.getLsbD 4
    | .c | .z | .i | .d | .v | .n => v.getLsbD f.bit := by
  unfold pulledStatus
  cases f <;> simp [Flag.bit]

/-! ## The NMI -/

theorem pollNmi_none {s : State} (h : s.ppu.nmiEdge = false) : pollNmi s = .ok () s := by
  unfold pollNmi getNmi
  rw [bind_of_ok (a := false) (t := s), if_neg Bool.false_ne_true, pure_apply]
  rw [getS_bind, setS_bind, pure_apply, h]
  congr 1
  obtain ⟨a, x, y, sp, p, pc, ram, ⟨ctrl, mask, vblank, oamAddr, scrollX, scrollY, scrollLatch, addr, addrLatch,
    readBuf, vram, palette, oam, dot, scanline, nmiEdge⟩, joy, cycles, fault, launch, frames⟩ := s
  cases h
  rfl

/-- NMI service (60_exceptions.md R199): what step (a) does when an edge is pending. -/
theorem pollNmi_some {s : State} (h : s.ppu.nmiEdge = true) :
    pollNmi s = .ok ()
      ((tick 7 (((s.setPpu { s.ppu with nmiEdge := false }).withPushed
        [hi s.pc, lo s.pc, (s.p &&& ~~~0x10) ||| 0x20]).setFlag .i true)).setPc (s.vector nmiVector)) := by
  unfold pollNmi getNmi
  rw [bind_of_ok (a := true) (t := s.setPpu { s.ppu with nmiEdge := false }), if_pos rfl]
  · unfold nmiService
    rw [getS_bind, getS_bind, enterInterrupt_eq _ _ _ (by decide) (by decide)]
    rfl
  · rw [getS_bind, setS_bind, pure_apply, h]

end Sys2Proof.Machine
end

