-- ==== Sys2Proof/Laws/Operands.lean ====
section
/-! SUPPORT. What the addressing modes give, and what each instruction shape does with its operand. -/

namespace Sys2Proof.Machine

/-! ## Effective addresses -/

theorem zeroPage_lt (a : Byte) : (zeroPage a).toNat < 0x2000 := by
  have := a.isLt
  simp [zeroPage]
  omega

theorem zeroPage_mod (a : Byte) : (zeroPage a).toNat % 2048 = a.toNat := by
  have := a.isLt
  simp [zeroPage]
  omega

/-- The pointer fetch of (zp,X) and (zp),Y stays in the zero page and has no effect (R99, R100). -/
theorem zeroPagePointer_eq (z : Byte) (s : State) :
    zeroPagePointer z s = .ok (w16 (Memory.read s.ram (z + 1).toNat) (Memory.read s.ram z.toNat)) s := by
  unfold zeroPagePointer
  rw [bind_of_ok (busRead_ram (zeroPage_lt _) s), bind_of_ok (busRead_ram (zeroPage_lt _) s), zeroPage_mod,
    zeroPage_mod]
  rfl

theorem effAddr_indX (a : Byte) (s : State) : effAddr (.indX a) s =
    .ok (w16 (Memory.read s.ram (a + s.x + 1).toNat) (Memory.read s.ram (a + s.x).toNat)) s := by
  show (getS _ >>= fun x => zeroPagePointer (a + x)) s = _
  rw [getS_bind, zeroPagePointer_eq]

theorem effAddr_indY (z : Byte) (s : State) : effAddr (.indY z) s =
    .ok (w16 (Memory.read s.ram (z + 1).toNat) (Memory.read s.ram z.toNat) + s.y.setWidth 16) s := by
  show (zeroPagePointer z >>= fun base => getS fun s => base + s.y.setWidth 16) s = _
  rw [bind_of_ok (zeroPagePointer_eq z s)]
  rfl

/-- The Indirect form reads its second pointer byte on the first byte's page (R98). -/
theorem indirectTarget_eq (ptr : Addr) : indirectTarget ptr =
    busRead ptr >>= fun l => busRead (w16 (hi ptr) (lo (ptr + 1))) >>= fun h => pure (w16 h l) := by
  have e : ∀ p q : Addr, (p &&& 0xFF00) ||| (q &&& 0x00FF) = w16 (hi p) (lo q) := by
    intro p q
    apply BitVec.eq_of_getLsbD_eq
    intro i hh
    simp only [w16, Sys2Proof.hi, lo, BitVec.getLsbD_append, BitVec.getLsbD_extractLsb', BitVec.getLsbD_or,
      BitVec.getLsbD_and]
    interval_cases i <;> simp
  unfold indirectTarget
  rw [e]

/-- Every mode but Indirect gives its address without an effect and without a fault. -/
theorem effAddr_ok {o : Operand} (h : o.mode ≠ .indirect) (s : State) : ∃ ea, effAddr o s = .ok ea s := by
  cases o
  case ind => exact absurd rfl h
  case indX a => exact ⟨_, effAddr_indX a s⟩
  case indY z => exact ⟨_, effAddr_indY z s⟩
  all_goals exact ⟨_, rfl⟩

theorem effAddr_keeps (o : Operand) : Keeps ReadEffect (effAddr o) := by
  have hR := ReadEffect.composes
  cases o
  case ind ptr => exact hR.bind (busRead_keeps _) fun _ => hR.bind (busRead_keeps _) fun _ => hR.pure _
  case indX a =>
    intro s
    rw [effAddr_indX]
    exact hR.refl s
  case indY z =>
    intro s
    rw [effAddr_indY]
    exact hR.refl s
  all_goals exact fun s => hR.refl s

theorem zeroPagePointer_caused (z : Byte) : Caused (zeroPagePointer z) :=
  (busRead_caused _).bind fun _ => (busRead_caused _).bind fun _ => Caused.pure _

theorem effAddr_caused (o : Operand) : Caused (effAddr o) := by
  cases o
  case ind ptr => exact (busRead_caused _).bind fun _ => (busRead_caused _).bind fun _ => Caused.pure _
  case indX a => exact (Caused.getS _).bind fun x => zeroPagePointer_caused (a + x)
  case indY z => exact (zeroPagePointer_caused z).bind fun _ => Caused.getS _
  all_goals exact fun s => rfl

/-! ## Reading the operand -/

/-- An operand in memory is the byte read at its effective address. -/
theorem readOperand_mem {o : Operand} (h : o ≠ .acc) (h' : ∀ v, o ≠ .imm v) :
    readOperand o = effAddr o >>= fun ea => busRead ea := by
  cases o
  case acc => exact absurd rfl h
  case imm v => exact absurd rfl (h' v)
  all_goals rfl

theorem readOperand_keeps (o : Operand) : Keeps ReadEffect (readOperand o) := by
  have hR := ReadEffect.composes
  by_cases h : o = .acc
  · subst h; exact hR.getS _
  · by_cases h' : ∃ v, o = .imm v
    · obtain ⟨v, rfl⟩ := h'; exact hR.pure _
    · rw [readOperand_mem h fun v e => h' ⟨v, e⟩]
      exact hR.bind (effAddr_keeps o) fun ea => busRead_keeps ea

theorem readOperand_caused (o : Operand) : Caused (readOperand o) := by
  by_cases h : o = .acc
  · subst h; exact Caused.getS _
  · by_cases h' : ∃ v, o = .imm v
    · obtain ⟨v, rfl⟩ := h'; exact Caused.pure _
    · rw [readOperand_mem h fun v e => h' ⟨v, e⟩]
      exact (effAddr_caused o).bind fun ea => busRead_caused ea

/-- An operand at a plain byte reads without a fault or an effect. -/
theorem readOperand_of_peek {o : Operand} {s : State} {ea : Addr} {v : Byte} (h : o ≠ .acc) (h' : ∀ v, o ≠ .imm v)
    (he : effAddr o s = .ok ea s) (hv : s.peek ea = some v) : readOperand o s = .ok v s := by
  rw [readOperand_mem h h', bind_of_ok he]
  exact busRead_of_peek hv

/-! ## The instruction shapes -/

theorem readThen_eq {o : Operand} {f : Byte → State → State} {s mid : State} {m : Byte}
    (h : readOperand o s = .ok m mid) : readThen o f s = .ok .next (f m mid) := by
  unfold readThen
  rw [bind_of_ok h]
  rfl

theorem store_eq {o : Operand} {v : State → Byte} {s mid u : State} {ea : Addr} (h : effAddr o s = .ok ea mid)
    (hw : busWrite ea (v mid) mid = .ok () u) : store o v s = .ok .next u := by
  unfold store
  rw [bind_of_ok h, getS_bind, bind_of_ok hw]
  rfl

theorem modify_eq {o : Operand} {f : Byte → Act Byte} {g : Byte → State → State} {s s1 s2 s3 u : State}
    {ea : Addr} {m r : Byte} (h : effAddr o s = .ok ea s1) (hr : busRead ea s1 = .ok m s2)
    (hf : f m s2 = .ok r s3) (hw : busWrite ea r s3 = .ok () u) : modify o f g s = .ok .next (g r u) := by
  unfold modify
  rw [bind_of_ok h, bind_of_ok hr, bind_of_ok hf, bind_of_ok hw]
  rfl

theorem shift_mem {o : Operand} (h : o ≠ .acc) (f : Byte → Act Byte) :
    shift o f = modify o f fun r s => s.setNZ r := by
  cases o
  case acc => exact absurd rfl h
  all_goals rfl

theorem shift_acc {f : Byte → Act Byte} {s t : State} {r : Byte} (h : f s.a s = .ok r t) :
    shift .acc f s = .ok .next ((t.setA r).setNZ r) := by
  show (getS _ >>= fun a => f a >>= fun r => setS _ >>= fun _ => pure Flow.next) s = _
  rw [getS_bind, bind_of_ok h]
  rfl

/-! A fault of an access is the fault of the shape (60_exceptions.md R192). -/

theorem readThen_error {o : Operand} {f : Byte → State → State} {s u : State} {k : FaultKind}
    (h : readOperand o s = .error k u) : readThen o f s = .error k u := bind_of_error h

theorem store_error {o : Operand} {v : State → Byte} {s mid u : State} {ea : Addr} {k : FaultKind}
    (h : effAddr o s = .ok ea mid) (hw : busWrite ea (v mid) mid = .error k u) : store o v s = .error k u := by
  unfold store
  rw [bind_of_ok h, getS_bind, bind_of_error hw]

theorem modify_read_error {o : Operand} {f : Byte → Act Byte} {g : Byte → State → State} {s mid u : State}
    {ea : Addr} {k : FaultKind} (h : effAddr o s = .ok ea mid) (hr : busRead ea mid = .error k u) :
    modify o f g s = .error k u := by
  unfold modify
  rw [bind_of_ok h, bind_of_error hr]

theorem modify_write_error {o : Operand} {f : Byte → Act Byte} {g : Byte → State → State} {s s1 s2 s3 u : State}
    {ea : Addr} {m r : Byte} {k : FaultKind} (h : effAddr o s = .ok ea s1) (hr : busRead ea s1 = .ok m s2)
    (hf : f m s2 = .ok r s3) (hw : busWrite ea r s3 = .error k u) : modify o f g s = .error k u := by
  unfold modify
  rw [bind_of_ok h, bind_of_ok hr, bind_of_ok hf, bind_of_error hw]

/-- The target of a branch from the state with PC at its displacement byte (R150). -/
def branchTarget (s : State) (d : Byte) : Addr := s.pc + 1 + sext16 d

theorem branch_taken {cond : State → Bool} {s : State} (d : Byte) (h : cond s = true) :
    branch cond d s = .ok (.jump (1 + if hi (branchTarget s d) ≠ hi (s.pc + 1) then 1 else 0))
      (s.setPc (branchTarget s d)) := by
  unfold branch
  rw [getS_bind, getS_bind, h, if_pos rfl]
  rfl

theorem branch_not_taken {cond : State → Bool} {s : State} (d : Byte) (h : cond s = false) :
    branch cond d s = .ok .next s := by
  unfold branch
  rw [getS_bind, getS_bind, h, if_neg Bool.false_ne_true]
  rfl

/-! ## The end of an instruction -/

variable {i : Instr} {s : State}

theorem performOp_eq {op : Byte} (h : i.opcode = some op) (body : Byte → Act Flow) (s : State) :
    performOp i body s = finish op i.length (body op s) := by
  unfold performOp
  rw [h]

theorem performOp_illFormed (h : ¬ WellFormed i) (body : Byte → Act Flow) (s : State) :
    performOp i body s = .refused .noEncoding := by
  unfold performOp
  cases e : i.opcode with
  | none => rfl
  | some op => exact absurd ((wellFormed_iff i).mpr ⟨op, e⟩) h

theorem cycles_eq {op : Byte} (h : i.opcode = some op) : i.cycles = cyclesOf op := by
  unfold Instr.cycles
  rw [h]

/-- A performed instruction goes on, faults, or is a term without an encoding; nothing else. -/
theorem performOp_cases (i : Instr) (body : Byte → Act Flow) (s : State) :
    (¬ WellFormed i ∧ performOp i body s = .refused .noEncoding) ∨
      ∃ op, i.opcode = some op ∧
        ((∃ f u, body op s = .ok f u ∧
            performOp i body s = .next (advance f i.length (tick (i.cycles + f.extra) u))) ∨
          ∃ k u, body op s = .error k u ∧ performOp i body s = .fault (.fatal k (u.setFault k))) := by
  by_cases h : WellFormed i
  · obtain ⟨op, hop⟩ := (wellFormed_iff i).mp h
    refine .inr ⟨op, hop, ?_⟩
    rw [performOp_eq hop, cycles_eq hop]
    cases e : body op s with
    | ok f u => exact .inl ⟨f, u, rfl, rfl⟩
    | error k u => exact .inr ⟨k, u, rfl, rfl⟩
  · exact .inl ⟨h, performOp_illFormed h body s⟩

/-- An instruction whose rule completes without a redirect. -/
theorem perform_next {body : Act Flow} {u : State} (hi : WellFormed i) (h : body s = .ok .next u) :
    perform i body s = .next ((tick i.cycles u).setPc ((tick i.cycles u).pc + BitVec.ofNat 16 (i.length - 1))) := by
  obtain ⟨op, hop⟩ := (wellFormed_iff i).mp hi
  unfold perform
  rw [performOp_eq hop, h, cycles_eq hop]
  rfl

/-- An instruction whose rule redirects PC. -/
theorem perform_jump {body : Act Flow} {u : State} {n : Nat} (hi : WellFormed i) (h : body s = .ok (.jump n) u) :
    perform i body s = .next (tick (i.cycles + n) u) := by
  obtain ⟨op, hop⟩ := (wellFormed_iff i).mp hi
  unfold perform
  rw [performOp_eq hop, h, cycles_eq hop]
  rfl

/-- An instruction whose rule faults. -/
theorem perform_fault {body : Act Flow} {u : State} {k : FaultKind} (hi : WellFormed i) (h : body s = .error k u) :
    perform i body s = .fault (.fatal k (u.setFault k)) := by
  obtain ⟨op, hop⟩ := (wellFormed_iff i).mp hi
  unfold perform
  rw [performOp_eq hop, h]
  rfl

theorem devices_setPc (t : State) (v : Addr) : (t.setPc v).devices = t.devices := rfl
theorem clock_setPc (t : State) (v : Addr) : (t.setPc v).clock = t.clock := rfl
theorem cpu_setPc (t : State) (v : Addr) : (t.setPc v).cpu = t.cpu := rfl

/-- `Completed`, from what the rule's action leaves. -/
theorem perform_completed {body : Act Flow} {u mid : State} {c : Cpu} (hi : WellFormed i)
    (h : body s = .ok .next u) (hc : u.cpu = c) (hp : u.pc = s.pc) (hd : u.devices = mid.devices)
    (hk : u.clock = mid.clock) : ∃ t, perform i body s = .next t ∧ t.Completed i s mid c := by
  refine ⟨_, perform_next hi h, ?_, ?_, ?_, ?_⟩
  · rw [cpu_setPc, tick_cpu, hc]
  · rw [State.setPc_pc, tick_pc, hp]
  · rw [devices_setPc, tick_devices, hd]
  · rw [clock_setPc, clock_tick_of_devices _ hk hd]

/-- `Jumped`, from what the rule's action leaves. -/
theorem perform_jumped {body : Act Flow} {u mid : State} {c : Cpu} {target : Addr} {n : Nat} (hi : WellFormed i)
    (h : body s = .ok (.jump n) u) (hc : u.cpu = c) (hp : u.pc = target) (hd : u.devices = mid.devices)
    (hk : u.clock = mid.clock) : ∃ t, perform i body s = .next t ∧ t.Jumped i mid c target n := by
  refine ⟨_, perform_jump hi h, ?_, ?_, ?_, ?_⟩
  · rw [tick_cpu, hc]
  · rw [tick_pc, hp]
  · rw [tick_devices, hd]
  · rw [clock_tick_of_devices _ hk hd]

end Sys2Proof.Machine
end

