-- ==== Sys2Proof/Laws/Exec.lean ====
section
/-! SUPPORT. What an instruction can do, said once for all of them: `exec_cases`. -/

namespace Sys2Proof.Machine

/-! ## Relations kept by the instruction shapes -/

section
variable {R : State → State → Prop} (hR : Composes R)
include hR

theorem readThen_keeps (hr : ∀ s t, ReadEffect s t → R s t) (o : Operand) {f : Byte → State → State}
    (hf : ∀ m s, R s (f m s)) : Keeps R (readThen o f) :=
  hR.bind ((readOperand_keeps o).mono hr) fun m => hR.bind (keeps_setS (hf m)) fun _ => hR.pure _

theorem registers_keeps {f : State → State} (hf : ∀ s, R s (f s)) : Keeps R (registers f) :=
  hR.bind (keeps_setS hf) fun _ => hR.pure _

theorem store_keeps (hw : ∀ s t, WriteEffect s t → R s t) (o : Operand) (v : State → Byte) :
    Keeps R (store o v) :=
  hR.bind ((effAddr_keeps o).mono fun _ _ h => hw _ _ h.write) fun _ => hR.bind (hR.getS _) fun _ =>
    hR.bind ((busWrite_keeps _ _).mono hw) fun _ => hR.pure _

theorem modify_keeps (hw : ∀ s t, WriteEffect s t → R s t) (o : Operand) {f : Byte → Act Byte}
    {g : Byte → State → State} (hf : ∀ m, Keeps R (f m)) (hg : ∀ r s, R s (g r s)) : Keeps R (modify o f g) :=
  hR.bind ((effAddr_keeps o).mono fun _ _ h => hw _ _ h.write) fun _ =>
    hR.bind ((busRead_keeps _).mono fun _ _ h => hw _ _ h.write) fun m => hR.bind (hf m) fun r =>
      hR.bind ((busWrite_keeps _ _).mono hw) fun _ => hR.bind (keeps_setS (hg r)) fun _ => hR.pure _

omit hR in
theorem helper_keeps (k : Shift) (hf : ∀ s b, R s (s.setFlag .c b)) (m : Byte) : Keeps R (k.helper m) := by
  intro s
  rw [Shift.helper_eq]
  exact hf s _

theorem shift_keeps (hw : ∀ s t, WriteEffect s t → R s t) (o : Operand) (k : Shift)
    (hf : ∀ s b, R s (s.setFlag .c b)) (hn : ∀ s r, R s (s.setNZ r))
    (ha : o = .acc → ∀ s r, R s ((s.setA r).setNZ r)) : Keeps R (shift o k.helper) := by
  by_cases h : o = .acc
  · subst h
    exact hR.bind (hR.getS _) fun a => hR.bind (helper_keeps k hf a) fun r =>
      hR.bind (keeps_setS fun s => ha rfl s r) fun _ => hR.pure _
  · rw [shift_mem h]
    exact modify_keeps hR hw o (helper_keeps k hf) fun r s => hn s r

theorem push_keeps (hw : ∀ s t, WriteEffect s t → R s t) (hs : ∀ s v, R s (s.setSp v)) (v : Byte) :
    Keeps R (push v) :=
  hR.bind (hR.getS _) fun _ => hR.bind ((busWrite_keeps _ _).mono hw) fun _ => keeps_setS fun s => hs s _

theorem push16_keeps (hw : ∀ s t, WriteEffect s t → R s t) (hs : ∀ s v, R s (s.setSp v)) (w : Addr) :
    Keeps R (push16 w) :=
  hR.bind (push_keeps hR hw hs _) fun _ => push_keeps hR hw hs _

omit hR in
theorem pop_keeps (hs : ∀ s v, R s (s.setSp v)) : Keeps R pop := by
  intro s
  rw [pop_eq]
  exact hs s _

theorem pop16_keeps (hs : ∀ s v, R s (s.setSp v)) : Keeps R pop16 :=
  hR.bind (pop_keeps hs) fun _ => hR.bind (pop_keeps hs) fun _ => hR.pure _

theorem pullStatus_keeps (hs : ∀ s v, R s (s.setSp v)) (hp : ∀ s v, R s (s.setP (pulledStatus v s.p))) :
    Keeps R pullStatus :=
  hR.bind (pop_keeps hs) fun v => keeps_setS fun s => hp s v

theorem jump_keeps (hpc : ∀ s v, R s (s.setPc v)) (target : Addr) (n : Nat) : Keeps R (jump target n) :=
  hR.bind (keeps_setS fun s => hpc s _) fun _ => hR.pure _

theorem branch_keeps (hpc : ∀ s v, R s (s.setPc v)) (cond : State → Bool) (d : Byte) : Keeps R (branch cond d) := by
  refine hR.bind (hR.getS _) fun taken => hR.bind (hR.getS _) fun next => ?_
  dsimp only
  split
  · exact jump_keeps hR hpc _ _
  · exact hR.pure _

theorem requireExecutable_keeps (op : Byte) : Keeps R (requireExecutable op) := by
  intro s
  unfold requireExecutable
  split <;> exact hR.refl s

omit hR in
theorem highAndStore_keeps (hw : ∀ s t, WriteEffect s t → R s t) (v : Byte) (base : Addr) (i : Byte) :
    Keeps R (highAndStore v base i) := (busWrite_keeps _ _).mono hw

theorem shaBase_keeps (o : Operand) : Keeps R (shaBase o) := by
  cases o
  case indY z =>
    intro s
    show R s (final (zeroPagePointer z s))
    rw [zeroPagePointer_eq]
    exact hR.refl s
  all_goals exact fun s => hR.refl s

end

/-! ## What a rule's action may do -/

/-- What instruction `i` may have changed before its tick: the registers and flags its rule names, PC, the devices
and RAM. The clock stands (the vblank flag can only go down). -/
structure BodyEffect (i : Instr) (s t : State) : Prop where
  regs : ∀ r, r ∉ i.registersWritten → t.reg r = s.reg r
  flags : ∀ f, f ∉ i.flagsWritten → t.flag f = s.flag f
  pulled : s.StatusOk → t.StatusOk
  cycles : t.cycles = s.cycles
  fault : t.fault = s.fault
  launch : t.launch = s.launch
  frames : t.frames = s.frames
  dot : t.ppu.dot = s.ppu.dot
  scanline : t.ppu.scanline = s.ppu.scanline
  nmiEdge : t.ppu.nmiEdge = s.ppu.nmiEdge
  buttons : t.joy.buttons = s.joy.buttons
  vblank : t.ppu.vblank = true → s.ppu.vblank = true
  cursor : s.joy.cursor ≤ 8 → t.joy.cursor ≤ 8
  memories : s.MemoriesOk → t.MemoriesOk

theorem BodyEffect.composes (i : Instr) : Composes (BodyEffect i) where
  refl s := by constructor <;> intros <;> first | rfl | assumption
  trans s t u h g := by
    constructor
    case regs => exact fun r e => (g.regs r e).trans (h.regs r e)
    case flags => exact fun f e => (g.flags f e).trans (h.flags f e)
    case pulled => exact fun e => g.pulled (h.pulled e)
    case vblank => exact fun e => h.vblank (g.vblank e)
    case cursor => exact fun e => g.cursor (h.cursor e)
    case memories => exact fun e => g.memories (h.memories e)
    all_goals first
      | exact g.cycles.trans h.cycles | exact g.fault.trans h.fault | exact g.launch.trans h.launch
      | exact g.frames.trans h.frames | exact g.dot.trans h.dot | exact g.scanline.trans h.scanline
      | exact g.nmiEdge.trans h.nmiEdge | exact g.buttons.trans h.buttons

theorem WriteEffect.body {s t : State} (h : WriteEffect s t) (i : Instr) : BodyEffect i s t where
  regs r _ := by cases r <;> first | exact h.a | exact h.x | exact h.y | exact h.sp
  flags f _ := h.flag f
  pulled e := ⟨(h.flag .b).trans e.1, (h.flag .u).trans e.2⟩
  cycles := h.cycles
  fault := h.fault
  launch := h.launch
  frames := h.frames
  dot := h.dot
  scanline := h.scanline
  nmiEdge := h.nmiEdge
  buttons := h.buttons
  vblank := h.vblank
  cursor := h.cursor
  memories := h.memories

/-- A change of registers and flags only. -/
theorem BodyEffect.of_registers {i : Instr} {s t : State}
    (hregs : ∀ r, r ∉ i.registersWritten → t.reg r = s.reg r)
    (hflags : ∀ f, f ∉ i.flagsWritten → t.flag f = s.flag f) (hb : t.flag .b = s.flag .b)
    (hu : s.flag .u = true → t.flag .u = true)
    (hrest : t.ram = s.ram ∧ t.ppu = s.ppu ∧ t.joy = s.joy ∧ t.cycles = s.cycles ∧ t.fault = s.fault ∧
      t.launch = s.launch ∧ t.frames = s.frames) : BodyEffect i s t where
  regs := hregs
  flags := hflags
  pulled e := ⟨hb.trans e.1, hu e.2⟩
  cycles := hrest.2.2.2.1
  fault := hrest.2.2.2.2.1
  launch := hrest.2.2.2.2.2.1
  frames := hrest.2.2.2.2.2.2
  dot := by rw [hrest.2.1]
  scanline := by rw [hrest.2.1]
  nmiEdge := by rw [hrest.2.1]
  buttons := by rw [hrest.2.2.1]
  vblank := by rw [hrest.2.1]; exact id
  cursor := by rw [hrest.2.2.1]; exact id
  memories := by
    unfold State.MemoriesOk
    rw [hrest.1, hrest.2.1]
    exact id

section
variable {i : Instr} (s : State)

theorem body_setNZ (h : .z ∈ i.flagsWritten ∧ .n ∈ i.flagsWritten) (v : Byte) : BodyEffect i s (s.setNZ v) := by
  refine .of_registers (fun r _ => by cases r <;> rfl) (fun f hf => ?_) (by simp) (by simp) ⟨rfl, rfl, rfl, rfl, rfl, rfl, rfl⟩
  rw [State.flag_setNZ, if_neg (by rintro rfl; exact hf h.2), if_neg (by rintro rfl; exact hf h.1)]

theorem body_setFlag {f : Flag} (h : f ∈ i.flagsWritten) (hb : f ≠ .b) (hu : f ≠ .u) (b : Bool) :
    BodyEffect i s (s.setFlag f b) := by
  refine .of_registers (fun r _ => by cases r <;> rfl) (fun g hg => ?_) (by simp [hb.symm]) (by simp [hu.symm])
    ⟨rfl, rfl, rfl, rfl, rfl, rfl, rfl⟩
  rw [State.flag_setFlag, if_neg (by rintro rfl; exact hg h)]

theorem body_setA (h : .a ∈ i.registersWritten) (v : Byte) : BodyEffect i s (s.setA v) := by
  refine .of_registers (fun r hr => ?_) (fun f _ => rfl) rfl id ⟨rfl, rfl, rfl, rfl, rfl, rfl, rfl⟩
  cases r <;> first | rfl | exact absurd h hr

theorem body_setX (h : .x ∈ i.registersWritten) (v : Byte) : BodyEffect i s (s.setX v) := by
  refine .of_registers (fun r hr => ?_) (fun f _ => rfl) rfl id ⟨rfl, rfl, rfl, rfl, rfl, rfl, rfl⟩
  cases r <;> first | rfl | exact absurd h hr

theorem body_setY (h : .y ∈ i.registersWritten) (v : Byte) : BodyEffect i s (s.setY v) := by
  refine .of_registers (fun r hr => ?_) (fun f _ => rfl) rfl id ⟨rfl, rfl, rfl, rfl, rfl, rfl, rfl⟩
  cases r <;> first | rfl | exact absurd h hr

theorem body_setSp (h : .sp ∈ i.registersWritten) (v : Byte) : BodyEffect i s (s.setSp v) := by
  refine .of_registers (fun r hr => ?_) (fun f _ => rfl) rfl id ⟨rfl, rfl, rfl, rfl, rfl, rfl, rfl⟩
  cases r <;> first | rfl | exact absurd h hr

theorem body_setPc (v : Addr) : BodyEffect i s (s.setPc v) :=
  .of_registers (fun r _ => by cases r <;> rfl) (fun _ _ => rfl) rfl id ⟨rfl, rfl, rfl, rfl, rfl, rfl, rfl⟩

theorem body_pulled (h : ∀ f, f ∈ i.flagsWritten ∨ f = .b) (v : Byte) :
    BodyEffect i s (s.setP (pulledStatus v s.p)) := by
  refine .of_registers (fun r _ => by cases r <;> rfl) (fun f hf => ?_) ?_ ?_ ⟨rfl, rfl, rfl, rfl, rfl, rfl, rfl⟩
  · rcases h f with h | rfl
    · exact absurd h hf
    · exact pulledStatus_flag v s.p .b
  · exact pulledStatus_flag v s.p .b
  · exact fun _ => pulledStatus_flag v s.p .u

theorem body_addC (ha : .a ∈ i.registersWritten) (hc : .c ∈ i.flagsWritten) (hv : .v ∈ i.flagsWritten)
    (h : .z ∈ i.flagsWritten ∧ .n ∈ i.flagsWritten) (m : Byte) : BodyEffect i s (s.addC m) := by
  have t := (BodyEffect.composes i).trans
  exact t _ _ _ (body_setFlag s hc (by decide) (by decide) _) (t _ _ _ (body_setFlag _ hv (by decide) (by decide) _)
    (t _ _ _ (body_setA _ ha _) (body_setNZ _ h _)))

theorem body_compare (hc : .c ∈ i.flagsWritten) (h : .z ∈ i.flagsWritten ∧ .n ∈ i.flagsWritten) (r m : Byte) :
    BodyEffect i s (s.compare r m) :=
  (BodyEffect.composes i).trans _ _ _ (body_setFlag s hc (by decide) (by decide) _) (body_setNZ _ h _)

end

/-! ## Every instruction is tame -/

/-- An action whose faults leave PC where it was. -/
def FaultKeepsPc {α : Type} (x : Act α) : Prop := ∀ s k t, x s = .error k t → t.pc = s.pc

theorem pc_composes : Composes fun s t : State => t.pc = s.pc where
  refl _ := rfl
  trans _ _ _ h g := g.trans h

theorem FaultKeepsPc.of_keeps {α : Type} {x : Act α} (h : Keeps (fun s t : State => t.pc = s.pc) x) :
    FaultKeepsPc x := fun _ _ _ e => h.error e

theorem FaultKeepsPc.of_ok {α : Type} {x : Act α} (h : ∀ s, ∃ a t, x s = .ok a t) : FaultKeepsPc x := by
  intro s k t e
  obtain ⟨a, u, h⟩ := h s
  rw [h] at e
  cases e

theorem FaultKeepsPc.bind {α β : Type} {x : Act α} {f : α → Act β}
    (hx : Keeps (fun s t : State => t.pc = s.pc) x) (hf : ∀ a, FaultKeepsPc (f a)) : FaultKeepsPc (x >>= f) := by
  intro s k u e
  rcases bind_eq_error.mp e with e | ⟨a, t, e, e'⟩
  · exact hx.error e
  · exact (hf a t k u e').trans (hx.ok e)

/-- What holds of every instruction's rule: it has the effects of its own lists, it faults for a cause and then leaves
PC, and it costs 2 to 8 cycles. -/
structure Tame (i : Instr) (body : Byte → Act Flow) : Prop where
  keeps : ∀ op, Keeps (BodyEffect i) (body op)
  caused : ∀ op, i.opcode = some op → Caused (body op)
  faultPc : ∀ op, FaultKeepsPc (body op)
  cost : ∀ op s f u, i.opcode = some op → body op s = .ok f u → 2 ≤ cyclesOf op + f.extra ∧ cyclesOf op + f.extra ≤ 8

/-- The base costs: 2 to 8 cycles, and 2 for a branch. -/
theorem cyclesOf_bounds : ∀ op : Byte, op ∉ jamBytes → 2 ≤ cyclesOf op ∧ cyclesOf op ≤ 8 := by decide

/-- A JAM byte belongs to JAM alone. -/
theorem opcode_jam {i : Instr} {op : Byte} (h : i.opcode = some op) (hi : ∀ o, i ≠ .jam o) : op ∉ jamBytes := by
  have carriedCase : ∀ {bytes : List Byte} {op' : Byte}, carried op' bytes = some op → (∀ x ∈ bytes, x ∉ jamBytes) →
      op ∉ jamBytes := by
    intro bytes op' e hb
    obtain ⟨hm, rfl⟩ := carried_eq_some.mp e
    exact hb _ hm
  cases i
  case jam o => exact absurd rfl (hi o)
  case nopMemory op' o => cases o <;> first | exact carriedCase h (by decide) | cases h
  case anc op' v => exact carriedCase h (by decide)
  case nopImmediate op' v => exact carriedCase h (by decide)
  case nopImplied op' => exact carriedCase h (by decide)
  all_goals first
    | (cases h; decide)
    | (rename Operand => o
       cases o <;> cases h <;> decide)

theorem cost_of_next {i : Instr} {op : Byte} {f : Flow} (h : i.opcode = some op) (hi : ∀ o, i ≠ .jam o)
    (hf : f.extra = 0) : 2 ≤ cyclesOf op + f.extra ∧ cyclesOf op + f.extra ≤ 8 := by
  rw [hf]
  exact cyclesOf_bounds op (opcode_jam h hi)

section
variable {i : Instr} (hi : ∀ o, i ≠ .jam o)
include hi

theorem tame_of {x : Act Flow} (hk : Keeps (BodyEffect i) x) (hc : Caused x) (hp : FaultKeepsPc x)
    (hf : ∀ s f u, x s = .ok f u → f.extra = 0) : Tame i fun _ => x where
  keeps _ := hk
  caused _ _ := hc
  faultPc _ := hp
  cost _ s f u ho h := cost_of_next ho hi (hf s f u h)

theorem tame_readThen (o : Operand) {f : Byte → State → State} (hf : ∀ m s, BodyEffect i s (f m s))
    (hpc : ∀ m s, (f m s).pc = s.pc) : Tame i fun _ => readThen o f := by
  refine tame_of hi (readThen_keeps (BodyEffect.composes i) (fun _ _ h => h.write.body i) o hf) ?_
    (.of_keeps (readThen_keeps pc_composes (fun _ _ h => h.pc) o hpc)) ?_
  · exact (readOperand_caused o).bind fun m => (Caused.setS fun s => (hf m s).launch).bind fun _ => Caused.pure _
  · intro s g u h
    obtain ⟨m, t, -, h⟩ := bind_eq_ok.mp h
    cases h
    rfl

theorem tame_registers {f : State → State} (hf : ∀ s, BodyEffect i s (f s)) (hpc : ∀ s, (f s).pc = s.pc) :
    Tame i fun _ => registers f := by
  refine tame_of hi (registers_keeps (BodyEffect.composes i) hf) ?_ (.of_keeps (registers_keeps pc_composes hpc)) ?_
  · exact (Caused.setS fun s => (hf s).launch).bind fun _ => Caused.pure _
  · intro s g u h
    cases h
    rfl

theorem tame_store (o : Operand) (v : State → Byte) : Tame i fun _ => store o v := by
  refine tame_of hi (store_keeps (BodyEffect.composes i) (fun _ _ h => h.body i) o v) ?_
    (.of_keeps (store_keeps pc_composes (fun _ _ h => h.pc) o v)) ?_
  · exact (effAddr_caused o).bind fun _ => (Caused.getS _).bind fun _ => (busWrite_caused _ _).bind fun _ => Caused.pure _
  · intro s g u h
    obtain ⟨ea, t, -, h⟩ := bind_eq_ok.mp h
    obtain ⟨v, t, -, h⟩ := bind_eq_ok.mp h
    obtain ⟨_, t, -, h⟩ := bind_eq_ok.mp h
    cases h
    rfl

theorem tame_modify (o : Operand) {f : Byte → Act Byte} {g : Byte → State → State}
    (hf : ∀ m s, ∃ r t, f m s = .ok r t ∧ BodyEffect i s t ∧ t.pc = s.pc) (hg : ∀ r s, BodyEffect i s (g r s))
    (hpc : ∀ r s, (g r s).pc = s.pc) : Tame i fun _ => modify o f g := by
  have hk : ∀ m, Keeps (BodyEffect i) (f m) := fun m s => by
    obtain ⟨r, t, e, h, -⟩ := hf m s
    rw [e]
    exact h
  have hp : ∀ m, Keeps (fun s t : State => t.pc = s.pc) (f m) := fun m s => by
    obtain ⟨r, t, e, -, h⟩ := hf m s
    rw [e]
    exact h
  have hc : ∀ m, Caused (f m) := fun m s => by
    obtain ⟨r, t, e, h, -⟩ := hf m s
    rw [e]
    exact h.launch
  refine tame_of hi (modify_keeps (BodyEffect.composes i) (fun _ _ h => h.body i) o hk hg) ?_
    (.of_keeps (modify_keeps pc_composes (fun _ _ h => h.pc) o hp hpc)) ?_
  · exact (effAddr_caused o).bind fun _ => (busRead_caused _).bind fun m => (hc m).bind fun r =>
      (busWrite_caused _ _).bind fun _ => (Caused.setS fun s => (hg r s).launch).bind fun _ => Caused.pure _
  · intro s q u h
    obtain ⟨ea, t, -, h⟩ := bind_eq_ok.mp h
    obtain ⟨m, t, -, h⟩ := bind_eq_ok.mp h
    obtain ⟨r, t, -, h⟩ := bind_eq_ok.mp h
    obtain ⟨_, t, -, h⟩ := bind_eq_ok.mp h
    cases h
    rfl

theorem tame_modify_helper (k : Shift) (o : Operand) {g : Byte → State → State} (hc : .c ∈ i.flagsWritten)
    (hg : ∀ r s, BodyEffect i s (g r s)) (hpc : ∀ r s, (g r s).pc = s.pc) : Tame i fun _ => modify o k.helper g :=
  tame_modify hi o (fun m s => ⟨_, _, k.helper_eq m s, body_setFlag s hc (by decide) (by decide) _, rfl⟩) hg hpc

theorem tame_shift (k : Shift) (o : Operand) (hc : .c ∈ i.flagsWritten)
    (hn : .z ∈ i.flagsWritten ∧ .n ∈ i.flagsWritten) (ha : o = .acc → .a ∈ i.registersWritten) :
    Tame i fun _ => shift o k.helper := by
  by_cases h : o = .acc
  · subst h
    have e : (fun _ : Byte => shift .acc k.helper) = fun _ => registers fun s =>
        (((s.setFlag .c (k.carryOut s.a)).setA (k.result (s.flag .c) s.a)).setNZ (k.result (s.flag .c) s.a)) := by
      funext _ s
      exact shift_acc (k.helper_eq s.a s)
    rw [e]
    refine tame_registers hi (fun s => ?_) fun s => rfl
    have t := (BodyEffect.composes i).trans
    exact t _ _ _ (body_setFlag s hc (by decide) (by decide) _) (t _ _ _ (body_setA _ (ha rfl) _) (body_setNZ _ hn _))
  · rw [shift_mem h]
    exact tame_modify_helper hi k o hc (fun r s => body_setNZ s hn r) fun r s => rfl

/-- A rule that always completes, with no extra cost. -/
theorem tame_total {x : Act Flow} (h : ∀ s, ∃ f u, x s = .ok f u ∧ f.extra = 0 ∧ BodyEffect i s u) :
    Tame i fun _ => x := by
  refine tame_of hi (fun s => ?_) (fun s => ?_) (.of_ok fun s => ?_) fun s f u e => ?_
  all_goals obtain ⟨f', u', e', h1, h2⟩ := h s
  · rw [e']; exact h2
  · rw [e']; exact h2.launch
  · exact ⟨f', u', e'⟩
  · rw [e'] at e; cases e; exact h1

omit hi in
theorem tame_branch (hcost : ∀ op, i.opcode = some op → cyclesOf op = 2) (cond : State → Bool) (d : Byte) :
    Tame i fun _ => branch cond d := by
  have h : ∀ s, ∃ f u, branch cond d s = .ok f u ∧ f.extra ≤ 2 ∧ BodyEffect i s u := by
    intro s
    cases e : cond s with
    | true =>
      refine ⟨_, _, branch_taken d e, ?_, body_setPc s _⟩
      simp only [Flow.jump]
      split <;> decide
    | false => exact ⟨_, _, branch_not_taken d e, by decide, (BodyEffect.composes i).refl s⟩
  refine ⟨fun _ s => ?_, fun _ _ s => ?_, fun _ => .of_ok fun s => ?_, fun op s f u ho e => ?_⟩
  all_goals obtain ⟨f', u', e', h1, h2⟩ := h s
  · rw [e']; exact h2
  · rw [e']; exact h2.launch
  · exact ⟨f', u', e'⟩
  · rw [e'] at e; cases e; rw [hcost op ho]; omega

omit hi in
theorem tame_unstable {x : Act Flow} (h : Tame i fun _ => x) :
    Tame i fun op => requireExecutable op >>= fun _ => x where
  keeps op := (BodyEffect.composes i).bind (requireExecutable_keeps (BodyEffect.composes i) op) fun _ => h.keeps op
  caused op ho := by
    refine Caused.bind (fun s => ?_) fun _ => h.caused op ho
    unfold requireExecutable
    cases e : executable s.launch.unstable op with
    | true => rfl
    | false => exact ⟨rfl, e⟩
  faultPc op := .bind (requireExecutable_keeps pc_composes op) fun _ => h.faultPc op
  cost op s f u ho e := by
    obtain ⟨_, t, -, e⟩ := bind_eq_ok.mp e
    exact h.cost op t f u ho e

end

theorem tame_jam (op : Byte) : Tame (.jam op) raiseUnmapped where
  keeps _ := (BodyEffect.composes _).refl
  caused op' ho s := by
    obtain ⟨hm, rfl⟩ := carried_eq_some.mp ho
    refine ⟨rfl, ?_⟩
    have : ∀ x ∈ jamBytes, ∀ u, executable u x = false := by
      intro x hx u
      cases u <;> revert x <;> decide
    exact this _ hm _
  faultPc _ s k t e := by cases e; rfl
  cost _ s f u _ e := by cases e

theorem pha_body (s : State) : (getS (·.a) >>= fun a => push a >>= fun _ => (pure Flow.next : Act Flow)) s =
    .ok .next (s.withPushed [s.a]) := by
  rw [getS_bind, bind_of_ok (push_eq _ _)]
  rfl

theorem php_body (s : State) :
    (getS (·.p) >>= fun p => push (p ||| 0x30) >>= fun _ => (pure Flow.next : Act Flow)) s =
      .ok .next (s.withPushed [s.p ||| 0x30]) := by
  rw [getS_bind, bind_of_ok (push_eq _ _)]
  rfl

theorem pla_body (s : State) :
    (pop >>= fun v => setS (fun s => (s.setA v).setNZ v) >>= fun _ => (pure Flow.next : Act Flow)) s =
      .ok .next (((s.setSp (s.sp + 1)).setA (s.stackByte 1)).setNZ (s.stackByte 1)) := by
  rw [bind_of_ok (pop_eq s)]
  rfl

theorem plp_body (s : State) : (pullStatus >>= fun _ => (pure Flow.next : Act Flow)) s =
    .ok .next ((s.setSp (s.sp + 1)).setP (pulledStatus (s.stackByte 1) s.p)) := by
  rw [bind_of_ok (pullStatus_eq s)]
  rfl

theorem jsr_body (target : Addr) (s : State) :
    (getS (fun s => s.pc + 1) >>= fun ret => push16 ret >>= fun _ => jump target 0) s =
      .ok (.jump 0) ((s.withPushed [hi (s.pc + 1), lo (s.pc + 1)]).setPc target) := by
  rw [getS_bind, bind_of_ok (push16_eq _ _)]
  rfl

theorem rts_body (s : State) : (pop16 >>= fun ret => jump (ret + 1) 0) s =
    .ok (.jump 0) ((s.setSp (s.sp + 2)).setPc (w16 (s.stackByte 2) (s.stackByte 1) + 1)) := by
  rw [bind_of_ok (pop16_eq s)]
  rfl

theorem rti_body (s : State) : (returnFromInterrupt >>= fun _ => (pure (Flow.jump 0) : Act Flow)) s =
    .ok (.jump 0) (((s.setSp (s.sp + 3)).setP (pulledStatus (s.stackByte 1) s.p)).setPc
      (w16 (s.stackByte 3) (s.stackByte 2))) := by
  rw [bind_of_ok (returnFromInterrupt_eq s)]
  rfl

theorem brk_body (s : State) :
    (getS (fun s => s.pc + 1) >>= fun ret => getS (·.p) >>= fun p =>
      enterInterrupt ret (p ||| 0x30) 0 brkVector >>= fun _ => (pure (Flow.jump 0) : Act Flow)) s =
      .ok (.jump 0) (((s.withPushed [hi (s.pc + 1), lo (s.pc + 1), s.p ||| 0x30]).setFlag .i true).setPc
        (s.vector brkVector)) := by
  rw [getS_bind, getS_bind, bind_of_ok (enterInterrupt_eq _ _ _ (by decide) (by decide) s)]
  rfl

theorem withPushed_body (s : State) (bs : List Byte) : s.MemoriesOk → (s.withPushed bs).MemoriesOk := by
  induction bs generalizing s with
  | nil => exact id
  | cons b bs ih =>
    refine fun h => ih _ ⟨⟨Memory.wf_write h.1.1 _ _, Memory.within_write h.1.2 ?_ _⟩, h.2⟩
    have := s.sp.isLt
    omega

theorem body_pushed {i : Instr} (h : .sp ∈ i.registersWritten) (s : State) (bs : List Byte) :
    BodyEffect i s (s.withPushed bs) where
  regs r hr := by
    cases r <;> first
      | exact withPushed_a s bs | exact withPushed_x s bs | exact withPushed_y s bs | exact absurd h hr
  flags f _ := withPushed_flag s bs f
  pulled e := ⟨(withPushed_flag s bs .b).trans e.1, (withPushed_flag s bs .u).trans e.2⟩
  cycles := withPushed_cycles s bs
  fault := withPushed_fault s bs
  launch := withPushed_launch s bs
  frames := withPushed_frames s bs
  dot := by rw [withPushed_ppu]
  scanline := by rw [withPushed_ppu]
  nmiEdge := by rw [withPushed_ppu]
  buttons := by rw [withPushed_joy]
  vblank := by rw [withPushed_ppu]; exact id
  cursor := by rw [withPushed_joy]; exact id
  memories := withPushed_body s bs

theorem shaBase_caused (o : Operand) : Caused (shaBase o) := by
  cases o
  case indY z => exact zeroPagePointer_caused z
  all_goals exact fun _ => rfl

theorem tame_highAnd {i : Instr} {b : Act Addr} (hi : ∀ o, i ≠ .jam o) (hb : Keeps (BodyEffect i) b)
    (hc : Caused b) (hp : Keeps (fun s t : State => t.pc = s.pc) b) (v x : State → Byte) :
    Tame i fun _ => b >>= fun base => getS v >>= fun value => getS x >>= fun index =>
      highAndStore value base index >>= fun _ => (pure Flow.next : Act Flow) := by
  have hR := BodyEffect.composes i
  refine tame_of hi (hR.bind hb fun _ => hR.bind (hR.getS _) fun _ => hR.bind (hR.getS _) fun _ =>
      hR.bind (highAndStore_keeps (fun _ _ h => h.body i) _ _ _) fun _ => hR.pure _)
    (hc.bind fun _ => (Caused.getS _).bind fun _ => (Caused.getS _).bind fun _ => (busWrite_caused _ _).bind fun _ =>
      Caused.pure _)
    (.of_keeps (pc_composes.bind hp fun _ => pc_composes.bind (pc_composes.getS _) fun _ =>
      pc_composes.bind (pc_composes.getS _) fun _ =>
        pc_composes.bind (highAndStore_keeps (fun _ _ h => h.pc) _ _ _) fun _ => pc_composes.pure _)) ?_
  intro s f u h
  obtain ⟨_, _, -, h⟩ := bind_eq_ok.mp h
  obtain ⟨_, _, -, h⟩ := bind_eq_ok.mp h
  obtain ⟨_, _, -, h⟩ := bind_eq_ok.mp h
  obtain ⟨_, _, -, h⟩ := bind_eq_ok.mp h
  cases h
  rfl

theorem tame_highAndAt {i : Instr} (hi : ∀ o, i ≠ .jam o) (base : Addr) (v x : State → Byte) :
    Tame i fun _ => getS v >>= fun value => getS x >>= fun index =>
      highAndStore value base index >>= fun _ => (pure Flow.next : Act Flow) := by
  have h := tame_highAnd (b := pure base) hi ((BodyEffect.composes i).pure base) (Caused.pure base)
    (pc_composes.pure base) v x
  have e : ∀ k : Addr → Act Flow, (pure base >>= k) = k base := fun _ => rfl
  rw [e] at h
  exact h

theorem jump_caused (target : Addr) (n : Nat) : Caused (jump target n) :=
  Caused.bind (Caused.setS fun _ => rfl) fun _ => Caused.pure _

theorem tame_tas (a : Addr) : Tame (.tas a) fun _ =>
    setS (fun s => s.setSp (s.a &&& s.x)) >>= fun _ => getS (·.sp) >>= fun sp => getS (·.y) >>= fun y =>
      highAndStore sp a y >>= fun _ => (pure Flow.next : Act Flow) := by
  have hR := BodyEffect.composes (.tas a)
  refine tame_of (fun _ h => by cases h)
    (hR.bind (keeps_setS fun s => body_setSp s (by simp [Instr.registersWritten]) _) fun _ =>
      hR.bind (hR.getS _) fun _ => hR.bind (hR.getS _) fun _ =>
        hR.bind (highAndStore_keeps (fun _ _ h => h.body _) _ _ _) fun _ => hR.pure _)
    (Caused.bind (Caused.setS fun s => ?_) fun _ => (Caused.getS _).bind fun _ => (Caused.getS _).bind fun _ =>
      (busWrite_caused _ _).bind fun _ => Caused.pure _)
    (.of_keeps (pc_composes.bind (keeps_setS fun s => ?_) fun _ => pc_composes.bind (pc_composes.getS _) fun _ =>
      pc_composes.bind (pc_composes.getS _) fun _ =>
        pc_composes.bind (highAndStore_keeps (fun _ _ h => h.pc) _ _ _) fun _ => pc_composes.pure _)) ?_
  · rfl
  · rfl
  · intro s f u h
    obtain ⟨_, _, -, h⟩ := bind_eq_ok.mp h
    obtain ⟨_, _, -, h⟩ := bind_eq_ok.mp h
    obtain ⟨_, _, -, h⟩ := bind_eq_ok.mp h
    obtain ⟨_, _, -, h⟩ := bind_eq_ok.mp h
    cases h
    rfl

/-- An instruction is one performed rule, and the rule is tame. -/
def IsTame (i : Instr) : Prop := ∃ body : Byte → Act Flow, (∀ s, exec i s = performOp i body s) ∧ Tame i body

theorem tame_lda (o : Operand) : IsTame (.lda o) := by
  have t := (BodyEffect.composes (.lda o)).trans
  refine ⟨?body, fun s => ?eq, ?tame⟩
  case eq =>
    show execLda o s = _
    unfold execLda perform
    exact rfl
  case tame =>
    exact tame_readThen (fun _ h => by cases h) o (fun m s => t _ _ _ (body_setA s (by simp [Instr.registersWritten]) _) (body_setNZ _ (by simp [Instr.flagsWritten]) _)) fun _ _ => rfl

theorem tame_ldx (o : Operand) : IsTame (.ldx o) := by
  have t := (BodyEffect.composes (.ldx o)).trans
  refine ⟨?body, fun s => ?eq, ?tame⟩
  case eq =>
    show execLdx o s = _
    unfold execLdx perform
    exact rfl
  case tame =>
    exact tame_readThen (fun _ h => by cases h) o (fun m s => t _ _ _ (body_setX s (by simp [Instr.registersWritten]) _) (body_setNZ _ (by simp [Instr.flagsWritten]) _)) fun _ _ => rfl

theorem tame_ldy (o : Operand) : IsTame (.ldy o) := by
  have t := (BodyEffect.composes (.ldy o)).trans
  refine ⟨?body, fun s => ?eq, ?tame⟩
  case eq =>
    show execLdy o s = _
    unfold execLdy perform
    exact rfl
  case tame =>
    exact tame_readThen (fun _ h => by cases h) o (fun m s => t _ _ _ (body_setY s (by simp [Instr.registersWritten]) _) (body_setNZ _ (by simp [Instr.flagsWritten]) _)) fun _ _ => rfl

theorem tame_sta (o : Operand) : IsTame (.sta o) := by
  refine ⟨?body, fun s => ?eq, ?tame⟩
  case eq =>
    show execSta o s = _
    unfold execSta perform
    exact rfl
  case tame =>
    exact tame_store (fun _ h => by cases h) o _

theorem tame_stx (o : Operand) : IsTame (.stx o) := by
  refine ⟨?body, fun s => ?eq, ?tame⟩
  case eq =>
    show execStx o s = _
    unfold execStx perform
    exact rfl
  case tame =>
    exact tame_store (fun _ h => by cases h) o _

theorem tame_sty (o : Operand) : IsTame (.sty o) := by
  refine ⟨?body, fun s => ?eq, ?tame⟩
  case eq =>
    show execSty o s = _
    unfold execSty perform
    exact rfl
  case tame =>
    exact tame_store (fun _ h => by cases h) o _

theorem tame_sax (o : Operand) : IsTame (.sax o) := by
  refine ⟨?body, fun s => ?eq, ?tame⟩
  case eq =>
    show execSax o s = _
    unfold execSax perform
    exact rfl
  case tame =>
    exact tame_store (fun _ h => by cases h) o _

theorem tame_tax : IsTame .tax := by
  have t := (BodyEffect.composes .tax).trans
  refine ⟨?body, fun s => ?eq, ?tame⟩
  case eq =>
    show execTax s = _
    unfold execTax perform
    exact rfl
  case tame =>
    exact tame_registers (fun _ h => by cases h) (fun s => t _ _ _ (body_setX s (by simp [Instr.registersWritten]) _) (body_setNZ _ (by simp [Instr.flagsWritten]) _)) fun _ => rfl

theorem tame_tay : IsTame .tay := by
  have t := (BodyEffect.composes .tay).trans
  refine ⟨?body, fun s => ?eq, ?tame⟩
  case eq =>
    show execTay s = _
    unfold execTay perform
    exact rfl
  case tame =>
    exact tame_registers (fun _ h => by cases h) (fun s => t _ _ _ (body_setY s (by simp [Instr.registersWritten]) _) (body_setNZ _ (by simp [Instr.flagsWritten]) _)) fun _ => rfl

theorem tame_txa : IsTame .txa := by
  have t := (BodyEffect.composes .txa).trans
  refine ⟨?body, fun s => ?eq, ?tame⟩
  case eq =>
    show execTxa s = _
    unfold execTxa perform
    exact rfl
  case tame =>
    exact tame_registers (fun _ h => by cases h) (fun s => t _ _ _ (body_setA s (by simp [Instr.registersWritten]) _) (body_setNZ _ (by simp [Instr.flagsWritten]) _)) fun _ => rfl

theorem tame_tya : IsTame .tya := by
  have t := (BodyEffect.composes .tya).trans
  refine ⟨?body, fun s => ?eq, ?tame⟩
  case eq =>
    show execTya s = _
    unfold execTya perform
    exact rfl
  case tame =>
    exact tame_registers (fun _ h => by cases h) (fun s => t _ _ _ (body_setA s (by simp [Instr.registersWritten]) _) (body_setNZ _ (by simp [Instr.flagsWritten]) _)) fun _ => rfl

theorem tame_tsx : IsTame .tsx := by
  have t := (BodyEffect.composes .tsx).trans
  refine ⟨?body, fun s => ?eq, ?tame⟩
  case eq =>
    show execTsx s = _
    unfold execTsx perform
    exact rfl
  case tame =>
    exact tame_registers (fun _ h => by cases h) (fun s => t _ _ _ (body_setX s (by simp [Instr.registersWritten]) _) (body_setNZ _ (by simp [Instr.flagsWritten]) _)) fun _ => rfl

theorem tame_inx : IsTame .inx := by
  have t := (BodyEffect.composes .inx).trans
  refine ⟨?body, fun s => ?eq, ?tame⟩
  case eq =>
    show execInx s = _
    unfold execInx perform
    exact rfl
  case tame =>
    exact tame_registers (fun _ h => by cases h) (fun s => t _ _ _ (body_setX s (by simp [Instr.registersWritten]) _) (body_setNZ _ (by simp [Instr.flagsWritten]) _)) fun _ => rfl

theorem tame_dex : IsTame .dex := by
  have t := (BodyEffect.composes .dex).trans
  refine ⟨?body, fun s => ?eq, ?tame⟩
  case eq =>
    show execDex s = _
    unfold execDex perform
    exact rfl
  case tame =>
    exact tame_registers (fun _ h => by cases h) (fun s => t _ _ _ (body_setX s (by simp [Instr.registersWritten]) _) (body_setNZ _ (by simp [Instr.flagsWritten]) _)) fun _ => rfl

theorem tame_iny : IsTame .iny := by
  have t := (BodyEffect.composes .iny).trans
  refine ⟨?body, fun s => ?eq, ?tame⟩
  case eq =>
    show execIny s = _
    unfold execIny perform
    exact rfl
  case tame =>
    exact tame_registers (fun _ h => by cases h) (fun s => t _ _ _ (body_setY s (by simp [Instr.registersWritten]) _) (body_setNZ _ (by simp [Instr.flagsWritten]) _)) fun _ => rfl

theorem tame_dey : IsTame .dey := by
  have t := (BodyEffect.composes .dey).trans
  refine ⟨?body, fun s => ?eq, ?tame⟩
  case eq =>
    show execDey s = _
    unfold execDey perform
    exact rfl
  case tame =>
    exact tame_registers (fun _ h => by cases h) (fun s => t _ _ _ (body_setY s (by simp [Instr.registersWritten]) _) (body_setNZ _ (by simp [Instr.flagsWritten]) _)) fun _ => rfl

theorem tame_txs : IsTame .txs := by
  refine ⟨?body, fun s => ?eq, ?tame⟩
  case eq =>
    show execTxs s = _
    unfold execTxs perform
    exact rfl
  case tame =>
    exact tame_registers (fun _ h => by cases h) (fun s => (body_setSp s (by simp [Instr.registersWritten]) _)) fun _ => rfl

theorem tame_adc (o : Operand) : IsTame (.adc o) := by
  refine ⟨?body, fun s => ?eq, ?tame⟩
  case eq =>
    show execAdc o s = _
    unfold execAdc perform
    exact rfl
  case tame =>
    exact tame_readThen (fun _ h => by cases h) o (fun m s => body_addC s (by simp [Instr.registersWritten]) (by simp [Instr.flagsWritten]) (by simp [Instr.flagsWritten]) (by simp [Instr.flagsWritten]) _) fun _ _ => rfl

theorem tame_sbc (o : Operand) : IsTame (.sbc o) := by
  refine ⟨?body, fun s => ?eq, ?tame⟩
  case eq =>
    show execSbc o s = _
    unfold execSbc perform
    exact rfl
  case tame =>
    exact tame_readThen (fun _ h => by cases h) o (fun m s => body_addC s (by simp [Instr.registersWritten]) (by simp [Instr.flagsWritten]) (by simp [Instr.flagsWritten]) (by simp [Instr.flagsWritten]) _) fun _ _ => rfl

theorem tame_and (o : Operand) : IsTame (.and o) := by
  have t := (BodyEffect.composes (.and o)).trans
  refine ⟨?body, fun s => ?eq, ?tame⟩
  case eq =>
    show execAnd o s = _
    unfold execAnd perform
    exact rfl
  case tame =>
    exact tame_readThen (fun _ h => by cases h) o (fun m s => t _ _ _ (body_setA s (by simp [Instr.registersWritten]) _) (body_setNZ _ (by simp [Instr.flagsWritten]) _)) fun _ _ => rfl

theorem tame_ora (o : Operand) : IsTame (.ora o) := by
  have t := (BodyEffect.composes (.ora o)).trans
  refine ⟨?body, fun s => ?eq, ?tame⟩
  case eq =>
    show execOra o s = _
    unfold execOra perform
    exact rfl
  case tame =>
    exact tame_readThen (fun _ h => by cases h) o (fun m s => t _ _ _ (body_setA s (by simp [Instr.registersWritten]) _) (body_setNZ _ (by simp [Instr.flagsWritten]) _)) fun _ _ => rfl

theorem tame_eor (o : Operand) : IsTame (.eor o) := by
  have t := (BodyEffect.composes (.eor o)).trans
  refine ⟨?body, fun s => ?eq, ?tame⟩
  case eq =>
    show execEor o s = _
    unfold execEor perform
    exact rfl
  case tame =>
    exact tame_readThen (fun _ h => by cases h) o (fun m s => t _ _ _ (body_setA s (by simp [Instr.registersWritten]) _) (body_setNZ _ (by simp [Instr.flagsWritten]) _)) fun _ _ => rfl

theorem tame_bit (o : Operand) : IsTame (.bit o) := by
  have t := (BodyEffect.composes (.bit o)).trans
  refine ⟨?body, fun s => ?eq, ?tame⟩
  case eq =>
    show execBit o s = _
    unfold execBit perform
    exact rfl
  case tame =>
    exact tame_readThen (fun _ h => by cases h) o (fun m s => t _ _ _ (body_setFlag s (f := .z) (by simp [Instr.flagsWritten]) (by decide) (by decide) _) (t _ _ _ (body_setFlag _ (f := .n) (by simp [Instr.flagsWritten]) (by decide) (by decide) _) ((body_setFlag _ (f := .v) (by simp [Instr.flagsWritten]) (by decide) (by decide) _)))) fun _ _ => rfl

theorem tame_cmp (o : Operand) : IsTame (.cmp o) := by
  refine ⟨?body, fun s => ?eq, ?tame⟩
  case eq =>
    show execCmp o s = _
    unfold execCmp perform
    exact rfl
  case tame =>
    exact tame_readThen (fun _ h => by cases h) o (fun m s => body_compare s (by simp [Instr.flagsWritten]) (by simp [Instr.flagsWritten]) _ _) fun _ _ => rfl

theorem tame_cpx (o : Operand) : IsTame (.cpx o) := by
  refine ⟨?body, fun s => ?eq, ?tame⟩
  case eq =>
    show execCpx o s = _
    unfold execCpx perform
    exact rfl
  case tame =>
    exact tame_readThen (fun _ h => by cases h) o (fun m s => body_compare s (by simp [Instr.flagsWritten]) (by simp [Instr.flagsWritten]) _ _) fun _ _ => rfl

theorem tame_cpy (o : Operand) : IsTame (.cpy o) := by
  refine ⟨?body, fun s => ?eq, ?tame⟩
  case eq =>
    show execCpy o s = _
    unfold execCpy perform
    exact rfl
  case tame =>
    exact tame_readThen (fun _ h => by cases h) o (fun m s => body_compare s (by simp [Instr.flagsWritten]) (by simp [Instr.flagsWritten]) _ _) fun _ _ => rfl

theorem tame_inc (o : Operand) : IsTame (.inc o) := by
  refine ⟨?body, fun s => ?eq, ?tame⟩
  case eq =>
    show execInc o s = _
    unfold execInc perform
    exact rfl
  case tame =>
    exact tame_modify (fun _ h => by cases h) o (fun m s => ⟨_, s, rfl, (BodyEffect.composes _).refl s, rfl⟩) (fun r s => body_setNZ s (by simp [Instr.flagsWritten]) _) fun _ _ => rfl

theorem tame_dec (o : Operand) : IsTame (.dec o) := by
  refine ⟨?body, fun s => ?eq, ?tame⟩
  case eq =>
    show execDec o s = _
    unfold execDec perform
    exact rfl
  case tame =>
    exact tame_modify (fun _ h => by cases h) o (fun m s => ⟨_, s, rfl, (BodyEffect.composes _).refl s, rfl⟩) (fun r s => body_setNZ s (by simp [Instr.flagsWritten]) _) fun _ _ => rfl

theorem tame_dcp (o : Operand) : IsTame (.dcp o) := by
  refine ⟨?body, fun s => ?eq, ?tame⟩
  case eq =>
    show execDcp o s = _
    unfold execDcp perform
    exact rfl
  case tame =>
    exact tame_modify (fun _ h => by cases h) o (fun m s => ⟨_, s, rfl, (BodyEffect.composes _).refl s, rfl⟩) (fun r s => body_compare s (by simp [Instr.flagsWritten]) (by simp [Instr.flagsWritten]) _ _) fun _ _ => rfl

theorem tame_isb (o : Operand) : IsTame (.isb o) := by
  refine ⟨?body, fun s => ?eq, ?tame⟩
  case eq =>
    show execIsb o s = _
    unfold execIsb perform
    exact rfl
  case tame =>
    exact tame_modify (fun _ h => by cases h) o (fun m s => ⟨_, s, rfl, (BodyEffect.composes _).refl s, rfl⟩) (fun r s => body_addC s (by simp [Instr.registersWritten]) (by simp [Instr.flagsWritten]) (by simp [Instr.flagsWritten]) (by simp [Instr.flagsWritten]) _) fun _ _ => rfl

theorem tame_asl (o : Operand) : IsTame (.asl o) := by
  refine ⟨?body, fun s => ?eq, ?tame⟩
  case eq =>
    show execAsl o s = _
    unfold execAsl perform
    exact rfl
  case tame =>
    exact tame_shift (fun _ h => by cases h) .asl o (by simp [Instr.flagsWritten]) (by simp [Instr.flagsWritten]) (fun h => by simp [Instr.registersWritten, h])

theorem tame_lsr (o : Operand) : IsTame (.lsr o) := by
  refine ⟨?body, fun s => ?eq, ?tame⟩
  case eq =>
    show execLsr o s = _
    unfold execLsr perform
    exact rfl
  case tame =>
    exact tame_shift (fun _ h => by cases h) .lsr o (by simp [Instr.flagsWritten]) (by simp [Instr.flagsWritten]) (fun h => by simp [Instr.registersWritten, h])

theorem tame_rol (o : Operand) : IsTame (.rol o) := by
  refine ⟨?body, fun s => ?eq, ?tame⟩
  case eq =>
    show execRol o s = _
    unfold execRol perform
    exact rfl
  case tame =>
    exact tame_shift (fun _ h => by cases h) .rol o (by simp [Instr.flagsWritten]) (by simp [Instr.flagsWritten]) (fun h => by simp [Instr.registersWritten, h])

theorem tame_ror (o : Operand) : IsTame (.ror o) := by
  refine ⟨?body, fun s => ?eq, ?tame⟩
  case eq =>
    show execRor o s = _
    unfold execRor perform
    exact rfl
  case tame =>
    exact tame_shift (fun _ h => by cases h) .ror o (by simp [Instr.flagsWritten]) (by simp [Instr.flagsWritten]) (fun h => by simp [Instr.registersWritten, h])

theorem tame_slo (o : Operand) : IsTame (.slo o) := by
  have t := (BodyEffect.composes (.slo o)).trans
  refine ⟨?body, fun s => ?eq, ?tame⟩
  case eq =>
    show execSlo o s = _
    unfold execSlo perform
    exact rfl
  case tame =>
    exact tame_modify_helper (fun _ h => by cases h) .asl o (by simp [Instr.flagsWritten]) (fun r s => t _ _ _ (body_setA s (by simp [Instr.registersWritten]) _) (body_setNZ _ (by simp [Instr.flagsWritten]) _)) fun _ _ => rfl

theorem tame_rla (o : Operand) : IsTame (.rla o) := by
  have t := (BodyEffect.composes (.rla o)).trans
  refine ⟨?body, fun s => ?eq, ?tame⟩
  case eq =>
    show execRla o s = _
    unfold execRla perform
    exact rfl
  case tame =>
    exact tame_modify_helper (fun _ h => by cases h) .rol o (by simp [Instr.flagsWritten]) (fun r s => t _ _ _ (body_setA s (by simp [Instr.registersWritten]) _) (body_setNZ _ (by simp [Instr.flagsWritten]) _)) fun _ _ => rfl

theorem tame_sre (o : Operand) : IsTame (.sre o) := by
  have t := (BodyEffect.composes (.sre o)).trans
  refine ⟨?body, fun s => ?eq, ?tame⟩
  case eq =>
    show execSre o s = _
    unfold execSre perform
    exact rfl
  case tame =>
    exact tame_modify_helper (fun _ h => by cases h) .lsr o (by simp [Instr.flagsWritten]) (fun r s => t _ _ _ (body_setA s (by simp [Instr.registersWritten]) _) (body_setNZ _ (by simp [Instr.flagsWritten]) _)) fun _ _ => rfl

theorem tame_rra (o : Operand) : IsTame (.rra o) := by
  refine ⟨?body, fun s => ?eq, ?tame⟩
  case eq =>
    show execRra o s = _
    unfold execRra perform
    exact rfl
  case tame =>
    exact tame_modify_helper (fun _ h => by cases h) .ror o (by simp [Instr.flagsWritten]) (fun r s => body_addC s (by simp [Instr.registersWritten]) (by simp [Instr.flagsWritten]) (by simp [Instr.flagsWritten]) (by simp [Instr.flagsWritten]) _) fun _ _ => rfl

theorem tame_lax (o : Operand) : IsTame (.lax o) := by
  have t := (BodyEffect.composes (.lax o)).trans
  refine ⟨?body, fun s => ?eq, ?tame⟩
  case eq =>
    show execLax o s = _
    unfold execLax perform
    exact rfl
  case tame =>
    exact tame_readThen (fun _ h => by cases h) o (fun m s => t _ _ _ (body_setA s (by simp [Instr.registersWritten]) _) (t _ _ _ (body_setX _ (by simp [Instr.registersWritten]) _) (body_setNZ _ (by simp [Instr.flagsWritten]) _))) fun _ _ => rfl

theorem tame_sbcEB (v : Byte) : IsTame (.sbcEB v) := by
  refine ⟨?body, fun s => ?eq, ?tame⟩
  case eq =>
    show execSbcEB v s = _
    unfold execSbcEB perform
    exact rfl
  case tame =>
    exact tame_registers (fun _ h => by cases h) (fun s => body_addC s (by simp [Instr.registersWritten]) (by simp [Instr.flagsWritten]) (by simp [Instr.flagsWritten]) (by simp [Instr.flagsWritten]) _) fun _ => rfl

theorem tame_anc (op : Byte) (v : Byte) : IsTame (.anc op v) := by
  have t := (BodyEffect.composes (.anc op v)).trans
  refine ⟨?body, fun s => ?eq, ?tame⟩
  case eq =>
    show execAnc op v s = _
    unfold execAnc perform
    exact rfl
  case tame =>
    exact tame_registers (fun _ h => by cases h) (fun s => t _ _ _ (body_setA s (by simp [Instr.registersWritten]) _) (t _ _ _ (body_setNZ _ (by simp [Instr.flagsWritten]) _) ((body_setFlag _ (f := .c) (by simp [Instr.flagsWritten]) (by decide) (by decide) _)))) fun _ => rfl

theorem tame_arr (v : Byte) : IsTame (.arr v) := by
  have t := (BodyEffect.composes (.arr v)).trans
  refine ⟨?body, fun s => ?eq, ?tame⟩
  case eq =>
    show execArr v s = _
    unfold execArr perform
    exact rfl
  case tame =>
    exact tame_registers (fun _ h => by cases h) (fun s => t _ _ _ (body_setA s (by simp [Instr.registersWritten]) _) (t _ _ _ (body_setNZ _ (by simp [Instr.flagsWritten]) _) (t _ _ _ (body_setFlag _ (f := .c) (by simp [Instr.flagsWritten]) (by decide) (by decide) _) ((body_setFlag _ (f := .v) (by simp [Instr.flagsWritten]) (by decide) (by decide) _))))) fun _ => rfl

theorem tame_sbx (v : Byte) : IsTame (.sbx v) := by
  have t := (BodyEffect.composes (.sbx v)).trans
  refine ⟨?body, fun s => ?eq, ?tame⟩
  case eq =>
    show execSbx v s = _
    unfold execSbx perform
    exact rfl
  case tame =>
    exact tame_registers (fun _ h => by cases h) (fun s => t _ _ _ (body_setFlag s (f := .c) (by simp [Instr.flagsWritten]) (by decide) (by decide) _) (t _ _ _ (body_setX _ (by simp [Instr.registersWritten]) _) (body_setNZ _ (by simp [Instr.flagsWritten]) _))) fun _ => rfl

theorem tame_alr (v : Byte) : IsTame (.alr v) := by
  have t := (BodyEffect.composes (.alr v)).trans
  refine ⟨?body, fun s => ?eq, ?tame⟩
  case eq =>
    show execAlr v s = _
    unfold execAlr perform
    exact rfl
  case tame =>
    exact tame_total (fun _ h => by cases h) fun s => ⟨_, _, rfl, rfl, t _ _ _ (body_setFlag s (f := .c) (by simp [Instr.flagsWritten]) (by decide) (by decide) _) (t _ _ _ (body_setA _ (by simp [Instr.registersWritten]) _) (body_setNZ _ (by simp [Instr.flagsWritten]) _))⟩

theorem tame_las (a : Addr) : IsTame (.las a) := by
  have t := (BodyEffect.composes (.las a)).trans
  refine ⟨?body, fun s => ?eq, ?tame⟩
  case eq =>
    show execLas a s = _
    unfold execLas perform
    exact rfl
  case tame =>
    exact tame_readThen (fun _ h => by cases h) (.absY a) (fun m s => t _ _ _ (body_setA s (by simp [Instr.registersWritten]) _) (t _ _ _ (body_setX _ (by simp [Instr.registersWritten]) _) (t _ _ _ (body_setSp _ (by simp [Instr.registersWritten]) _) (body_setNZ _ (by simp [Instr.flagsWritten]) _)))) fun _ _ => rfl

theorem tame_clc : IsTame .clc := by
  refine ⟨?body, fun s => ?eq, ?tame⟩
  case eq =>
    show execClc s = _
    unfold execClc perform
    exact rfl
  case tame =>
    exact tame_registers (fun _ h => by cases h) (fun s => (body_setFlag s (f := .c) (by simp [Instr.flagsWritten]) (by decide) (by decide) _)) fun _ => rfl

theorem tame_sec : IsTame .sec := by
  refine ⟨?body, fun s => ?eq, ?tame⟩
  case eq =>
    show execSec s = _
    unfold execSec perform
    exact rfl
  case tame =>
    exact tame_registers (fun _ h => by cases h) (fun s => (body_setFlag s (f := .c) (by simp [Instr.flagsWritten]) (by decide) (by decide) _)) fun _ => rfl

theorem tame_cli : IsTame .cli := by
  refine ⟨?body, fun s => ?eq, ?tame⟩
  case eq =>
    show execCli s = _
    unfold execCli perform
    exact rfl
  case tame =>
    exact tame_registers (fun _ h => by cases h) (fun s => (body_setFlag s (f := .i) (by simp [Instr.flagsWritten]) (by decide) (by decide) _)) fun _ => rfl

theorem tame_sei : IsTame .sei := by
  refine ⟨?body, fun s => ?eq, ?tame⟩
  case eq =>
    show execSei s = _
    unfold execSei perform
    exact rfl
  case tame =>
    exact tame_registers (fun _ h => by cases h) (fun s => (body_setFlag s (f := .i) (by simp [Instr.flagsWritten]) (by decide) (by decide) _)) fun _ => rfl

theorem tame_cld : IsTame .cld := by
  refine ⟨?body, fun s => ?eq, ?tame⟩
  case eq =>
    show execCld s = _
    unfold execCld perform
    exact rfl
  case tame =>
    exact tame_registers (fun _ h => by cases h) (fun s => (body_setFlag s (f := .d) (by simp [Instr.flagsWritten]) (by decide) (by decide) _)) fun _ => rfl

theorem tame_sed : IsTame .sed := by
  refine ⟨?body, fun s => ?eq, ?tame⟩
  case eq =>
    show execSed s = _
    unfold execSed perform
    exact rfl
  case tame =>
    exact tame_registers (fun _ h => by cases h) (fun s => (body_setFlag s (f := .d) (by simp [Instr.flagsWritten]) (by decide) (by decide) _)) fun _ => rfl

theorem tame_clv : IsTame .clv := by
  refine ⟨?body, fun s => ?eq, ?tame⟩
  case eq =>
    show execClv s = _
    unfold execClv perform
    exact rfl
  case tame =>
    exact tame_registers (fun _ h => by cases h) (fun s => (body_setFlag s (f := .v) (by simp [Instr.flagsWritten]) (by decide) (by decide) _)) fun _ => rfl

theorem tame_nop : IsTame .nop := by
  refine ⟨?body, fun s => ?eq, ?tame⟩
  case eq =>
    show execNop s = _
    unfold execNop perform
    exact rfl
  case tame =>
    exact tame_total (fun _ h => by cases h) fun s => ⟨_, s, rfl, rfl, (BodyEffect.composes _).refl s⟩

theorem tame_nopImplied (op : Byte) : IsTame (.nopImplied op) := by
  refine ⟨?body, fun s => ?eq, ?tame⟩
  case eq =>
    show execNopImplied op s = _
    unfold execNopImplied perform
    exact rfl
  case tame =>
    exact tame_total (fun _ h => by cases h) fun s => ⟨_, s, rfl, rfl, (BodyEffect.composes _).refl s⟩

theorem tame_nopImmediate (op : Byte) (v : Byte) : IsTame (.nopImmediate op v) := by
  refine ⟨?body, fun s => ?eq, ?tame⟩
  case eq =>
    show execNopImmediate op v s = _
    unfold execNopImmediate perform
    exact rfl
  case tame =>
    exact tame_total (fun _ h => by cases h) fun s => ⟨_, s, rfl, rfl, (BodyEffect.composes _).refl s⟩

theorem tame_nopMemory (op : Byte) (o : Operand) : IsTame (.nopMemory op o) := by
  refine ⟨?body, fun s => ?eq, ?tame⟩
  case eq =>
    show execNopMemory op o s = _
    unfold execNopMemory perform
    exact rfl
  case tame =>
    exact tame_readThen (fun _ h => by cases h) o (fun m s => (BodyEffect.composes _).refl s) fun _ _ => rfl

theorem tame_jam_rule (op : Byte) : IsTame (.jam op) := by
  refine ⟨?body, fun s => ?eq, ?tame⟩
  case eq =>
    show execJam op s = _
    unfold execJam
    exact rfl
  case tame =>
    exact tame_jam op

theorem tame_bpl (d : Byte) : IsTame (.bpl d) := by
  refine ⟨?body, fun s => ?eq, ?tame⟩
  case eq =>
    show execBpl d s = _
    unfold execBpl perform
    exact rfl
  case tame =>
    exact tame_branch (fun op h => by cases h; decide) _ d

theorem tame_bmi (d : Byte) : IsTame (.bmi d) := by
  refine ⟨?body, fun s => ?eq, ?tame⟩
  case eq =>
    show execBmi d s = _
    unfold execBmi perform
    exact rfl
  case tame =>
    exact tame_branch (fun op h => by cases h; decide) _ d

theorem tame_bvc (d : Byte) : IsTame (.bvc d) := by
  refine ⟨?body, fun s => ?eq, ?tame⟩
  case eq =>
    show execBvc d s = _
    unfold execBvc perform
    exact rfl
  case tame =>
    exact tame_branch (fun op h => by cases h; decide) _ d

theorem tame_bvs (d : Byte) : IsTame (.bvs d) := by
  refine ⟨?body, fun s => ?eq, ?tame⟩
  case eq =>
    show execBvs d s = _
    unfold execBvs perform
    exact rfl
  case tame =>
    exact tame_branch (fun op h => by cases h; decide) _ d

theorem tame_bcc (d : Byte) : IsTame (.bcc d) := by
  refine ⟨?body, fun s => ?eq, ?tame⟩
  case eq =>
    show execBcc d s = _
    unfold execBcc perform
    exact rfl
  case tame =>
    exact tame_branch (fun op h => by cases h; decide) _ d

theorem tame_bcs (d : Byte) : IsTame (.bcs d) := by
  refine ⟨?body, fun s => ?eq, ?tame⟩
  case eq =>
    show execBcs d s = _
    unfold execBcs perform
    exact rfl
  case tame =>
    exact tame_branch (fun op h => by cases h; decide) _ d

theorem tame_bne (d : Byte) : IsTame (.bne d) := by
  refine ⟨?body, fun s => ?eq, ?tame⟩
  case eq =>
    show execBne d s = _
    unfold execBne perform
    exact rfl
  case tame =>
    exact tame_branch (fun op h => by cases h; decide) _ d

theorem tame_beq (d : Byte) : IsTame (.beq d) := by
  refine ⟨?body, fun s => ?eq, ?tame⟩
  case eq =>
    show execBeq d s = _
    unfold execBeq perform
    exact rfl
  case tame =>
    exact tame_branch (fun op h => by cases h; decide) _ d

theorem tame_pha : IsTame .pha := by
  refine ⟨?body, fun s => ?eq, ?tame⟩
  case eq =>
    show execPha s = _
    unfold execPha perform
    exact rfl
  case tame =>
    exact tame_total (fun _ h => by cases h) fun s => ⟨.next, _, pha_body s, rfl, body_pushed (by simp [Instr.registersWritten]) s _⟩

theorem tame_php : IsTame .php := by
  refine ⟨?body, fun s => ?eq, ?tame⟩
  case eq =>
    show execPhp s = _
    unfold execPhp perform
    exact rfl
  case tame =>
    exact tame_total (fun _ h => by cases h) fun s => ⟨.next, _, php_body s, rfl, body_pushed (by simp [Instr.registersWritten]) s _⟩

theorem tame_pla : IsTame .pla := by
  have t := (BodyEffect.composes .pla).trans
  refine ⟨?body, fun s => ?eq, ?tame⟩
  case eq =>
    show execPla s = _
    unfold execPla perform
    exact rfl
  case tame =>
    exact tame_total (fun _ h => by cases h) fun s => ⟨.next, _, pla_body s, rfl, t _ _ _ (body_setSp s (by simp [Instr.registersWritten]) _) (t _ _ _ (body_setA _ (by simp [Instr.registersWritten]) _) (body_setNZ _ (by simp [Instr.flagsWritten]) _))⟩

theorem tame_plp : IsTame .plp := by
  have t := (BodyEffect.composes .plp).trans
  refine ⟨?body, fun s => ?eq, ?tame⟩
  case eq =>
    show execPlp s = _
    unfold execPlp perform
    exact rfl
  case tame =>
    exact tame_total (fun _ h => by cases h) fun s => ⟨.next, _, plp_body s, rfl,
    t _ _ _ (body_setSp s (by simp [Instr.registersWritten]) _) (body_pulled _ (fun f => by cases f <;> simp [Instr.flagsWritten]) _)⟩

theorem tame_jmp (o : Operand) : IsTame (.jmp o) := by
  refine ⟨?body, fun s => ?eq, ?tame⟩
  case eq =>
    show execJmp o s = _
    unfold execJmp perform
    exact rfl
  case tame =>
    refine tame_of (fun _ h => by cases h) ((BodyEffect.composes _).bind ((effAddr_keeps o).mono fun _ _ h => h.write.body _)
      fun ea => jump_keeps (BodyEffect.composes _) (fun s v => body_setPc s v) ea 0)
      ((effAddr_caused o).bind fun ea => jump_caused ea 0)
      (.bind ((effAddr_keeps o).mono fun _ _ h => h.pc) fun ea => .of_ok fun s => ⟨_, _, rfl⟩) ?_
    intro s f u h
    obtain ⟨ea, v, -, h⟩ := bind_eq_ok.mp h
    cases h
    rfl

theorem tame_jsr (a : Addr) : IsTame (.jsr a) := by
  have t := (BodyEffect.composes (.jsr a)).trans
  refine ⟨?body, fun s => ?eq, ?tame⟩
  case eq =>
    show execJsr a s = _
    unfold execJsr perform
    exact rfl
  case tame =>
    exact tame_total (fun _ h => by cases h) fun s => ⟨.jump 0, _, jsr_body a s, rfl,
    t _ _ _ (body_pushed (by simp [Instr.registersWritten]) s _) (body_setPc _ _)⟩

theorem tame_rts : IsTame .rts := by
  have t := (BodyEffect.composes .rts).trans
  refine ⟨?body, fun s => ?eq, ?tame⟩
  case eq =>
    show execRts s = _
    unfold execRts perform
    exact rfl
  case tame =>
    exact tame_total (fun _ h => by cases h) fun s => ⟨.jump 0, _, rts_body s, rfl,
    t _ _ _ (body_setSp s (by simp [Instr.registersWritten]) _) (body_setPc _ _)⟩

theorem tame_rti : IsTame .rti := by
  have t := (BodyEffect.composes .rti).trans
  refine ⟨?body, fun s => ?eq, ?tame⟩
  case eq =>
    show execRti s = _
    unfold execRti perform
    exact rfl
  case tame =>
    exact tame_total (fun _ h => by cases h) fun s => ⟨.jump 0, _, rti_body s, rfl,
    t _ _ _ (body_setSp s (by simp [Instr.registersWritten]) _) (t _ _ _ (body_pulled _ (fun f => by cases f <;> simp [Instr.flagsWritten]) _) (body_setPc _ _))⟩

theorem tame_brk : IsTame .brk := by
  have t := (BodyEffect.composes .brk).trans
  refine ⟨?body, fun s => ?eq, ?tame⟩
  case eq =>
    show execBrk s = _
    unfold execBrk perform
    exact rfl
  case tame =>
    exact tame_total (fun _ h => by cases h) fun s => ⟨.jump 0, _, brk_body s, rfl,
    t _ _ _ (body_pushed (by simp [Instr.registersWritten]) s _) (t _ _ _ (body_setFlag _ (f := .i) (by simp [Instr.flagsWritten]) (by decide) (by decide) _) (body_setPc _ _))⟩

theorem tame_ane (v : Byte) : IsTame (.ane v) := by
  have t := (BodyEffect.composes (.ane v)).trans
  refine ⟨?body, fun s => ?eq, ?tame⟩
  case eq =>
    show execAne v s = _
    unfold execAne performUnstable
    exact rfl
  case tame =>
    exact tame_unstable (tame_total (fun _ h => by cases h) fun s => ⟨_, _, rfl, rfl, t _ _ _ (body_setA s (by simp [Instr.registersWritten]) _) (body_setNZ _ (by simp [Instr.flagsWritten]) _)⟩)

theorem tame_lxa (v : Byte) : IsTame (.lxa v) := by
  have t := (BodyEffect.composes (.lxa v)).trans
  refine ⟨?body, fun s => ?eq, ?tame⟩
  case eq =>
    show execLxa v s = _
    unfold execLxa performUnstable
    exact rfl
  case tame =>
    exact tame_unstable (tame_total (fun _ h => by cases h) fun s => ⟨_, _, rfl, rfl, t _ _ _ (body_setA s (by simp [Instr.registersWritten]) _) (t _ _ _ (body_setX _ (by simp [Instr.registersWritten]) _) (body_setNZ _ (by simp [Instr.flagsWritten]) _))⟩)

theorem tame_sha (o : Operand) : IsTame (.sha o) := by
  refine ⟨?body, fun s => ?eq, ?tame⟩
  case eq =>
    show execSha o s = _
    unfold execSha performUnstable
    exact rfl
  case tame =>
    exact tame_unstable (tame_highAnd (fun _ h => by cases h) (shaBase_keeps (BodyEffect.composes _) o) (shaBase_caused o) (shaBase_keeps pc_composes o) _ _)

theorem tame_shx (a : Addr) : IsTame (.shx a) := by
  refine ⟨?body, fun s => ?eq, ?tame⟩
  case eq =>
    show execShx a s = _
    unfold execShx performUnstable
    exact rfl
  case tame =>
    exact tame_unstable (tame_highAndAt (fun _ h => by cases h) a _ _)

theorem tame_shy (a : Addr) : IsTame (.shy a) := by
  refine ⟨?body, fun s => ?eq, ?tame⟩
  case eq =>
    show execShy a s = _
    unfold execShy performUnstable
    exact rfl
  case tame =>
    exact tame_unstable (tame_highAndAt (fun _ h => by cases h) a _ _)

theorem tame_tas_rule (a : Addr) : IsTame (.tas a) := by
  refine ⟨?body, fun s => ?eq, ?tame⟩
  case eq =>
    show execTas a s = _
    unfold execTas performUnstable
    exact rfl
  case tame =>
    exact tame_unstable (tame_tas a)

/-- Every instruction is one performed rule, and the rule is tame. -/
theorem exec_tame (i : Instr) : IsTame i := by
  cases i
  case lda o => exact tame_lda o
  case ldx o => exact tame_ldx o
  case ldy o => exact tame_ldy o
  case sta o => exact tame_sta o
  case stx o => exact tame_stx o
  case sty o => exact tame_sty o
  case sax o => exact tame_sax o
  case tax => exact tame_tax
  case tay => exact tame_tay
  case txa => exact tame_txa
  case tya => exact tame_tya
  case tsx => exact tame_tsx
  case inx => exact tame_inx
  case dex => exact tame_dex
  case iny => exact tame_iny
  case dey => exact tame_dey
  case txs => exact tame_txs
  case adc o => exact tame_adc o
  case sbc o => exact tame_sbc o
  case and o => exact tame_and o
  case ora o => exact tame_ora o
  case eor o => exact tame_eor o
  case bit o => exact tame_bit o
  case cmp o => exact tame_cmp o
  case cpx o => exact tame_cpx o
  case cpy o => exact tame_cpy o
  case inc o => exact tame_inc o
  case dec o => exact tame_dec o
  case dcp o => exact tame_dcp o
  case isb o => exact tame_isb o
  case asl o => exact tame_asl o
  case lsr o => exact tame_lsr o
  case rol o => exact tame_rol o
  case ror o => exact tame_ror o
  case slo o => exact tame_slo o
  case rla o => exact tame_rla o
  case sre o => exact tame_sre o
  case rra o => exact tame_rra o
  case lax o => exact tame_lax o
  case sbcEB v => exact tame_sbcEB v
  case anc op v => exact tame_anc op v
  case arr v => exact tame_arr v
  case sbx v => exact tame_sbx v
  case alr v => exact tame_alr v
  case las a => exact tame_las a
  case clc => exact tame_clc
  case sec => exact tame_sec
  case cli => exact tame_cli
  case sei => exact tame_sei
  case cld => exact tame_cld
  case sed => exact tame_sed
  case clv => exact tame_clv
  case nop => exact tame_nop
  case nopImplied op => exact tame_nopImplied op
  case nopImmediate op v => exact tame_nopImmediate op v
  case nopMemory op o => exact tame_nopMemory op o
  case jam op => exact tame_jam_rule op
  case bpl d => exact tame_bpl d
  case bmi d => exact tame_bmi d
  case bvc d => exact tame_bvc d
  case bvs d => exact tame_bvs d
  case bcc d => exact tame_bcc d
  case bcs d => exact tame_bcs d
  case bne d => exact tame_bne d
  case beq d => exact tame_beq d
  case pha => exact tame_pha
  case php => exact tame_php
  case pla => exact tame_pla
  case plp => exact tame_plp
  case jmp o => exact tame_jmp o
  case jsr a => exact tame_jsr a
  case rts => exact tame_rts
  case rti => exact tame_rti
  case brk => exact tame_brk
  case ane v => exact tame_ane v
  case lxa v => exact tame_lxa v
  case sha o => exact tame_sha o
  case shx a => exact tame_shx a
  case shy a => exact tame_shy a
  case tas a => exact tame_tas_rule a

/-- Everything `exec` can answer. -/
theorem exec_cases (i : Instr) (s : State) :
    (¬ WellFormed i ∧ exec i s = .refused .noEncoding) ∨
      (∃ f u, WellFormed i ∧ BodyEffect i s u ∧ 2 ≤ i.cycles + f.extra ∧ i.cycles + f.extra ≤ 8 ∧
        exec i s = .next (advance f i.length (tick (i.cycles + f.extra) u))) ∨
      ∃ k u, WellFormed i ∧ BodyEffect i s u ∧ u.pc = s.pc ∧ k.Cause s.launch ∧
        exec i s = .fault (.fatal k (u.setFault k)) := by
  obtain ⟨body, e, h⟩ := exec_tame i
  rw [e]
  rcases performOp_cases i body s with h1 | ⟨op, ho, ⟨f, u, eb, ep⟩ | ⟨k, u, eb, ep⟩⟩
  · exact .inl h1
  · have hc := h.cost op s f u ho eb
    rw [← cycles_eq ho] at hc
    exact .inr (.inl ⟨f, u, (wellFormed_iff i).mpr ⟨op, ho⟩, (h.keeps op).ok eb, hc.1, hc.2, ep⟩)
  · exact .inr (.inr ⟨k, u, (wellFormed_iff i).mpr ⟨op, ho⟩, (h.keeps op).error eb, h.faultPc op s k u eb,
      (h.caused op ho).error eb, ep⟩)

end Sys2Proof.Machine
end

