-- ==== Sys2Proof/Laws/Step.lean ====
section
/-! SUPPORT. The fetch, and everything a step can answer: `step_cases`. -/

namespace Sys2Proof.Machine

/-! ## The fetch -/

theorem read16_keeps (addr : Addr) : Keeps ReadEffect (read16 addr) :=
  ReadEffect.composes.bind (busRead_keeps _) fun _ => ReadEffect.composes.bind (busRead_keeps _) fun _ =>
    ReadEffect.composes.pure _

theorem read16_caused (addr : Addr) : Caused (read16 addr) :=
  (busRead_caused _).bind fun _ => (busRead_caused _).bind fun _ => Caused.pure _

theorem requireExecutable_caused (op : Byte) : Caused (requireExecutable op) := by
  intro s
  unfold requireExecutable
  cases e : executable s.launch.unstable op with
  | true => rfl
  | false => exact ⟨rfl, e⟩

theorem fetch_caused : Caused fetch := by
  refine (Caused.getS _).bind fun opaddr => (busRead_caused _).bind fun op =>
    (Caused.setS (f := fun s => s.setPc (opaddr + 1)) fun _ => rfl).bind fun _ => (requireExecutable_caused op).bind fun _ => ?_
  split
  · exact Caused.pure _
  · exact (busRead_caused _).bind fun _ => Caused.pure _
  · exact (read16_caused _).bind fun _ => Caused.pure _

/-- A fetch that answers gives a well-formed instruction and leaves PC one past the opcode; beyond that it has the
effects of its reads (60_exceptions.md R196). -/
theorem fetch_ok {s t : State} {i : Instr} (h : fetch s = .ok i t) :
    WellFormed i ∧ ReadEffect (s.setPc (s.pc + 1)) t := by
  have hR := ReadEffect.composes
  unfold fetch at h
  rw [getS_bind] at h
  obtain ⟨op, u, h1, h⟩ := bind_eq_ok.mp h
  rw [setS_bind] at h
  have hu : ReadEffect (s.setPc (s.pc + 1)) (u.setPc (s.pc + 1)) := by
    have k := (busRead_keeps s.pc).ok h1
    exact { k with pc := rfl }
  obtain ⟨_, v, h2, h⟩ := bind_eq_ok.mp h
  have hv : ReadEffect (s.setPc (s.pc + 1)) v := hR.trans _ _ _ hu ((requireExecutable_keeps hR op).ok h2)
  have hm := entryOf_makes op
  cases e : entryOf op with
  | f1 j =>
    rw [e] at h hm
    cases h
    exact ⟨(wellFormed_iff _).mpr ⟨op, hm.1⟩, hv⟩
  | f2 f =>
    rw [e] at h hm
    obtain ⟨b, w, h3, h⟩ := bind_eq_ok.mp h
    cases h
    exact ⟨(wellFormed_iff _).mpr ⟨op, (hm b).1⟩, hR.trans _ _ _ hv ((busRead_keeps _).ok h3)⟩
  | f3 f =>
    rw [e] at h hm
    obtain ⟨b, w, h3, h⟩ := bind_eq_ok.mp h
    cases h
    exact ⟨(wellFormed_iff _).mpr ⟨op, (hm b).1⟩, hR.trans _ _ _ hv ((read16_keeps _).ok h3)⟩

/-! ## Everything a step can answer -/

/-- A step polls the NMI, fetches and executes; it answers `next` only through `exec` of a well-formed
instruction. -/
theorem step_cases (s : State) :
    (∃ k, s.fault = some k ∧ step s = .fault (.halted k)) ∨
      (s.fault = none ∧ ∃ s0, pollNmi s = .ok () s0 ∧
        ((∃ i t, fetch s0 = .ok i t ∧ step s = exec i t) ∨
          ∃ k t, fetch s0 = .error k t ∧ step s = .fault (.fatal k (t.setFault k)))) := by
  have hp : ∃ s0, pollNmi s = .ok () s0 := by
    cases e : s.ppu.nmiEdge with
    | false => exact ⟨_, pollNmi_none e⟩
    | true => exact ⟨_, pollNmi_some e⟩
  cases hf : s.fault with
  | some k => exact .inl ⟨k, rfl, by unfold step; rw [hf]⟩
  | none =>
    obtain ⟨s0, h0⟩ := hp
    refine .inr ⟨rfl, s0, h0, ?_⟩
    have e : (do pollNmi; fetch : Act Instr) s = fetch s0 := bind_of_ok h0
    unfold step
    rw [hf, e]
    cases fetch s0 with
    | ok i t => exact .inl ⟨i, t, rfl, rfl⟩
    | error k t => exact .inr ⟨k, t, rfl, rfl⟩

/-! ## What a step does to the invariants -/

/-- From `s` to `t`, `n` cycles pass; the launch and the fault stay, the invariants of the other fields are kept. -/
structure StepEffect (n : Nat) (s t : State) : Prop where
  launch : t.launch = s.launch
  fault : t.fault = s.fault
  status : s.StatusOk → t.StatusOk
  cursor : s.CursorOk → t.CursorOk
  memories : s.MemoriesOk → t.MemoriesOk
  cycles : t.cycles = s.cycles + n
  clock : s.ClockOk → t.ClockOk ∧ t.ppu.position = (s.ppu.position + 3 * n) % 89342

theorem StepEffect.trans {n m : Nat} {s t u : State} (h : StepEffect n s t) (g : StepEffect m t u) :
    StepEffect (n + m) s u where
  launch := g.launch.trans h.launch
  fault := g.fault.trans h.fault
  status e := g.status (h.status e)
  cursor e := g.cursor (h.cursor e)
  memories e := g.memories (h.memories e)
  cycles := by rw [g.cycles, h.cycles]; omega
  clock e := by
    obtain ⟨h1, h2⟩ := h.clock e
    obtain ⟨g1, g2⟩ := g.clock h1
    refine ⟨g1, ?_⟩
    rw [g2, h2]
    omega

/-- A change that leaves the counters. -/
theorem StepEffect.of_same {s t : State} (hl : t.launch = s.launch) (hf : t.fault = s.fault)
    (hs : s.StatusOk → t.StatusOk) (hj : s.CursorOk → t.CursorOk) (hm : s.MemoriesOk → t.MemoriesOk)
    (hc : t.cycles = s.cycles) (hd : t.ppu.dot = s.ppu.dot) (hn : t.ppu.scanline = s.ppu.scanline) :
    StepEffect 0 s t where
  launch := hl
  fault := hf
  status := hs
  cursor := hj
  memories := hm
  cycles := hc
  clock e := by
    unfold State.ClockOk Ppu.position at *
    rw [hd, hn]
    omega

theorem WriteEffect.step {s t : State} (h : WriteEffect s t) : StepEffect 0 s t :=
  .of_same h.launch h.fault (fun e => ⟨(h.flag .b).trans e.1, (h.flag .u).trans e.2⟩) h.cursor h.memories h.cycles
    h.dot h.scanline

theorem BodyEffect.step {i : Instr} {s t : State} (h : BodyEffect i s t) : StepEffect 0 s t :=
  .of_same h.launch h.fault h.pulled h.cursor h.memories h.cycles h.dot h.scanline

theorem tick_step (n : Nat) (s : State) : StepEffect n s (tick n s) where
  launch := tick_launch n s
  fault := tick_fault n s
  status e := ⟨(tick_flag n s .b).trans e.1, (tick_flag n s .u).trans e.2⟩
  cursor e := by
    unfold State.CursorOk
    rw [(tick_time n s).cursor]
    exact e
  memories := by
    unfold State.MemoriesOk
    rw [tick_ram, (tick_time n s).vram, (tick_time n s).palette, (tick_time n s).oam]
    exact id
  cycles := tick_cycles n s
  clock := tick_counters n s

theorem setPc_step (s : State) (v : Addr) : StepEffect 0 s (s.setPc v) :=
  .of_same rfl rfl id id id rfl rfl rfl

theorem advance_step (f : Flow) (len : Nat) (s : State) : StepEffect 0 s (advance f len s) := by
  unfold advance
  split
  · exact .of_same rfl rfl id id id rfl rfl rfl
  · exact setPc_step s _

theorem pushed_step (s : State) (bs : List Byte) :
    StepEffect 0 s (((s.setPpu { s.ppu with nmiEdge := false }).withPushed bs).setFlag .i true) := by
  refine .of_same ?_ ?_ ?_ ?_ ?_ ?_ ?_ ?_
  · simp
  · simp
  · exact fun e => ⟨by simpa using e.1, by simpa using e.2⟩
  · intro e
    unfold State.CursorOk at *
    simpa using e
  · exact fun e => withPushed_body (s.setPpu { s.ppu with nmiEdge := false }) bs e
  · simp
  · simp
  · simp

/-- NMI service takes 7 cycles, no service none (60_exceptions.md R198, R199). -/
theorem pollNmi_step {s t : State} (h : pollNmi s = .ok () t) :
    StepEffect (if s.ppu.nmiEdge then 7 else 0) s t := by
  cases e : s.ppu.nmiEdge with
  | false =>
    rw [pollNmi_none e] at h
    cases h
    exact .of_same rfl rfl id id id rfl rfl rfl
  | true =>
    rw [pollNmi_some e] at h
    injection h with _ h
    rw [← h]
    exact StepEffect.trans (n := 7) (m := 0)
      (StepEffect.trans (n := 0) (m := 7) (pushed_step s _) (tick_step 7 _)) (setPc_step _ _)

/-- A step that answers `next`: its cycles, and what it keeps. -/
theorem step_next {s t : State} (h : step s = .next t) :
    ∃ n, 2 ≤ n ∧ n ≤ 8 ∧ StepEffect ((if s.ppu.nmiEdge then 7 else 0) + n) s t := by
  rcases step_cases s with ⟨k, -, e⟩ | ⟨-, s0, h0, ⟨i, u, hf, e⟩ | ⟨k, u, -, e⟩⟩
  · rw [e] at h; cases h
  · rw [e] at h
    rcases exec_cases i u with ⟨-, e'⟩ | ⟨f, v, -, hv, h2, h8, e'⟩ | ⟨k, v, -, -, -, -, e'⟩
    · rw [e'] at h; cases h
    · rw [e'] at h
      cases h
      refine ⟨_, h2, h8, (pollNmi_step h0).trans ?_⟩
      have h1 := (setPc_step s0 (s0.pc + 1)).trans (fetch_ok hf).2.write.step
      have h3 := ((h1.trans hv.step).trans (tick_step (i.cycles + f.extra) v)).trans (advance_step f i.length _)
      simpa using h3
    · rw [e'] at h; cases h
  · rw [e] at h; cases h

end Sys2Proof.Machine
end

