-- ==== Sys2Proof/Laws/Frame.lean ====
section
/-! SUPPORT. Where a bus write stores, and the storing instructions as their shared shapes. -/

namespace Sys2Proof.Machine

/-! ## Where a bus write stores -/

/-- From `s` to `t`, a write at CPU address `ea` stored nowhere but in the cell that address selects. -/
structure StoreEffect (ea : Addr) (s t : State) : Prop where
  ram : ∀ k, ¬ (ea.toNat < 0x2000 ∧ k = ea.toNat % 2048) → Memory.read t.ram k = Memory.read s.ram k
  oam : ∀ k, ¬ ((0x2000 ≤ ea.toNat ∧ ea.toNat < 0x4000 ∧ ea.toNat % 8 = 4) ∧ k = s.ppu.oamAddr.toNat) →
    ea.toNat ≠ 0x4014 → Memory.read t.ppu.oam k = Memory.read s.ppu.oam k
  vram : ∀ k, ¬ ((0x2000 ≤ ea.toNat ∧ ea.toNat < 0x4000 ∧ ea.toNat % 8 = 7) ∧ 0x2000 ≤ s.ppu.addr.toNat ∧
      s.ppu.addr.toNat < 0x3F00 ∧ ntIndex s.launch.mirroring s.ppu.addr = some k) →
    Memory.read t.ppu.vram k = Memory.read s.ppu.vram k
  palette : ∀ k, ¬ ((0x2000 ≤ ea.toNat ∧ ea.toNat < 0x4000 ∧ ea.toNat % 8 = 7) ∧ 0x3F00 ≤ s.ppu.addr.toNat ∧
      palIndex s.ppu.addr = k) → Memory.read t.ppu.palette k = Memory.read s.ppu.palette k
  devices : (ea.toNat < 0x2000 ∨ 0x4000 ≤ ea.toNat) → ea.toNat ≠ 0x4014 → ea.toNat ≠ 0x4016 →
    t.devices = { s.devices with ram := t.ram }

/-- A change that stores no byte. -/
theorem StoreEffect.of_same {ea : Addr} {s t : State} (hr : t.ram = s.ram) (ho : t.ppu.oam = s.ppu.oam)
    (hv : t.ppu.vram = s.ppu.vram) (hp : t.ppu.palette = s.ppu.palette)
    (hd : ¬ (0x2000 ≤ ea.toNat ∧ ea.toNat < 0x4000) → ea.toNat ≠ 0x4014 → ea.toNat ≠ 0x4016 →
      t.devices = { s.devices with ram := t.ram }) : StoreEffect ea s t where
  ram k _ := by rw [hr]
  oam k _ _ := by rw [ho]
  vram k _ := by rw [hv]
  palette k _ := by rw [hp]
  devices h := hd (by omega)

theorem StoreEffect.of_eq {ea : Addr} (s : State) : StoreEffect ea s s := .of_same rfl rfl rfl rfl fun _ _ _ => rfl

theorem accessFault_ok {α : Type} {k : FaultKind} {d a : α} {s t : State} (h : accessFault k d s = .ok a t) :
    a = d ∧ t = s := by
  unfold accessFault at h
  split at h <;> cases h
  exact ⟨rfl, rfl⟩

theorem ntIndexOrFault_ok {a : VAddr} {i : Nat} {s t : State} (h : ntIndexOrFault a s = .ok i t) :
    ntIndex s.launch.mirroring a = some i ∧ t = s := by
  unfold ntIndexOrFault at h
  split at h <;> cases h
  exact ⟨‹_›, rfl⟩

theorem vaddr_le_chr {a : VAddr} : a ≤ 0x1FFF ↔ a.toNat < 0x2000 := by
  rw [BitVec.le_def]
  exact Nat.lt_succ_iff.symm

theorem vaddr_le_nt {a : VAddr} : a ≤ 0x3EFF ↔ a.toNat < 0x3F00 := by
  rw [BitVec.le_def]
  exact Nat.lt_succ_iff.symm

theorem writeData_stores {ea : Addr} (h : 0x2000 ≤ ea.toNat ∧ ea.toNat < 0x4000 ∧ ea.toNat % 8 = 7) {v : Byte}
    {s t : State} (e : writeData v s = .ok () t) : StoreEffect ea s t := by
  unfold writeData at e
  rw [getS_bind] at e
  obtain ⟨_, u, e1, e'⟩ := bind_eq_ok.mp e
  cases e'
  clear e
  rename' e1 => e
  unfold ppuWrite at e
  split at e
  · obtain ⟨-, rfl⟩ := accessFault_ok e
    exact .of_same rfl rfl rfl rfl fun n _ _ => absurd ⟨h.1, h.2.1⟩ n
  · rename_i h1
    rw [vaddr_le_chr] at h1
    split at e
    · rename_i h2
      rw [vaddr_le_nt] at h2
      obtain ⟨i, w, e1, e'⟩ := bind_eq_ok.mp e
      cases e'
      obtain ⟨hi, rfl⟩ := ntIndexOrFault_ok e1
      refine ⟨fun _ _ => rfl, fun _ _ _ => rfl, fun k hk => ?_, fun _ _ => rfl, fun n => absurd n (by omega)⟩
      refine Memory.read_write_of_ne _ _ ?_
      rintro rfl
      exact hk ⟨h, by omega, h2, hi⟩
    · rename_i h2
      rw [vaddr_le_nt] at h2
      cases e
      refine ⟨fun _ _ => rfl, fun _ _ _ => rfl, fun _ _ => rfl, fun k hk => ?_, fun n => absurd n (by omega)⟩
      refine Memory.read_write_of_ne _ _ ?_
      rintro rfl
      exact hk ⟨h, by omega, rfl⟩

theorem ppuRegWrite_stores {ea : Addr} (h : 0x2000 ≤ ea.toNat ∧ ea.toNat < 0x4000) {v : Byte} {s t : State}
    (e : ppuRegWrite ea v s = .ok () t) : StoreEffect ea s t := by
  have hs := ppuSlot_eq ea
  have hlt : ea.toNat % 8 < 8 := Nat.mod_lt _ (by decide)
  have hn : ∀ {P : Prop}, ¬ (0x2000 ≤ ea.toNat ∧ ea.toNat < 0x4000) → P := fun n => absurd h n
  unfold ppuRegWrite at e
  cases hp : ppuSlot ea <;> rw [hp] at e <;> dsimp only at e
  case status =>
    obtain ⟨-, rfl⟩ := accessFault_ok e
    exact .of_eq _
  case oamData =>
    cases e
    have h4 : ea.toNat % 8 = 4 := by
      rw [hs] at hp
      generalize ea.toNat % 8 = n at hp hlt
      interval_cases n <;> first | rfl | cases hp
    refine ⟨fun _ _ => rfl, fun k hk _ => ?_, fun _ _ => rfl, fun _ _ => rfl, fun n => absurd n (by omega)⟩
    refine Memory.read_write_of_ne _ _ ?_
    rintro rfl
    exact hk ⟨⟨h.1, h.2, h4⟩, rfl⟩
  case scroll =>
    cases e
    beta_reduce
    split <;> exact .of_same rfl rfl rfl rfl fun n => hn n
  case address =>
    cases e
    beta_reduce
    split <;> exact .of_same rfl rfl rfl rfl fun n => hn n
  case data =>
    have h7 : ea.toNat % 8 = 7 := by
      rw [hs] at hp
      generalize ea.toNat % 8 = n at hp hlt
      interval_cases n <;> first | rfl | cases hp
    exact writeData_stores ⟨h.1, h.2, h7⟩ e
  all_goals
    cases e
    exact .of_same rfl rfl rfl rfl fun n => hn n

/-- A bus write that completes stores nowhere but in the cell its address selects. -/
theorem busWrite_stores {ea : Addr} {v : Byte} {s t : State} (e : busWrite ea v s = .ok () t) :
    StoreEffect ea s t := by
  have hr := region_toNat ea
  unfold busWrite at e
  cases hp : region ea <;> rw [hp] at e hr <;> dsimp only at e
  case ram =>
    cases e
    have h := region_eq_ram.mp hp
    refine ⟨fun k hk => ?_, fun _ _ _ => rfl, fun _ _ => rfl, fun _ _ => rfl, fun _ _ _ => rfl⟩
    refine Memory.read_write_of_ne _ _ ?_
    rw [ramIndex_eq]
    rintro rfl
    exact hk ⟨h, rfl⟩
  case ppu => exact ppuRegWrite_stores (region_eq_ppu.mp hp) e
  case oamDma =>
    have h14 : ea.toNat = 0x4014 := by
      split_ifs at hr
      assumption
    obtain ⟨bytes, u, h1, h2⟩ := bind_eq_ok.mp e
    cases h2
    have h := (readRun_keeps _ _).ok h1
    refine ⟨fun k _ => ?_, fun _ _ n => absurd h14 n, fun k _ => ?_, fun k _ => ?_, fun _ n => absurd h14 n⟩
    · exact congrArg (Memory.read · k) h.ram
    · exact congrArg (Memory.read · k) h.vram
    · exact congrArg (Memory.read · k) h.palette
  case joypad =>
    have h16 : ea.toNat = 0x4016 := by
      split_ifs at hr
      assumption
    cases e
    exact .of_same rfl rfl rfl rfl fun _ _ n => absurd h16 n
  case prg =>
    obtain ⟨-, rfl⟩ := accessFault_ok e
    exact .of_eq _
  all_goals
    cases e
    exact .of_eq _

/-! ## What a faulting bus write leaves -/

theorem ppuWrite_error {a : VAddr} {v : Byte} {s t : State} {k : FaultKind} (e : ppuWrite a v s = .error k t) :
    t = s := by
  unfold ppuWrite at e
  split at e
  · unfold accessFault at e
    split at e <;> cases e
    rfl
  · split at e
    · rcases bind_eq_error.mp e with e | ⟨i, u, -, e⟩
      · exact (congrArg final e).symm.trans (ntIndexOrFault_state a s)
      · cases e
    · cases e

/-- A bus write that faults stores nothing: beyond the source reads of OAM DMA nothing has changed (R76, R192). -/
theorem busWrite_error {ea : Addr} {v : Byte} {s t : State} {k : FaultKind} (e : busWrite ea v s = .error k t) :
    ReadEffect s t := by
  have access : ∀ k', (accessFault k' () : Act Unit) s = .error k t → t = s := by
    intro k' e
    unfold accessFault at e
    split at e <;> cases e
    rfl
  have same : t = s → ReadEffect s t := by
    rintro rfl
    exact ReadEffect.composes.refl _
  unfold busWrite at e
  cases hp : region ea <;> rw [hp] at e <;> dsimp only at e
  case ppu =>
    unfold ppuRegWrite at e
    cases hq : ppuSlot ea <;> rw [hq] at e <;> dsimp only at e
    case status => exact same (access _ e)
    case data =>
      unfold writeData at e
      rw [getS_bind] at e
      rcases bind_eq_error.mp e with e | ⟨_, u, -, e⟩
      · exact same (ppuWrite_error e)
      · cases e
    all_goals cases e
  case oamDma =>
    unfold oamDma at e
    rcases bind_eq_error.mp e with e | ⟨bytes, u, -, e⟩
    · exact (readRun_keeps _ _).error e
    · cases e
  case prg => exact same (access _ e)
  all_goals cases e

/-! ## The storing instructions -/

/-- The tick and the PC advance leave the devices and every memory. -/
theorem advance_tick_devices (f : Flow) (len n : Nat) (u : State) :
    (advance f len (tick n u)).devices = u.devices := by
  unfold advance
  split
  · exact (tick_time n u).devices
  · exact (tick_time n u).devices

/-- Where an instruction goes on, its rule's action completed. -/
theorem body_of_next {i : Instr} {s t : State} {body : Byte → Act Flow} (he : exec i s = performOp i body s)
    (h : exec i s = .next t) :
    ∃ op f u, i.opcode = some op ∧ body op s = .ok f u ∧ t = advance f i.length (tick (i.cycles + f.extra) u) := by
  rw [he] at h
  rcases performOp_cases i body s with ⟨-, e⟩ | ⟨op, ho, ⟨f, u, e1, e2⟩ | ⟨k, u, e1, e2⟩⟩
  · rw [e] at h; cases h
  · rw [e2] at h; injection h with h; exact ⟨op, f, u, ho, e1, h.symm⟩
  · rw [e2] at h; cases h

/-- A write instruction is one `store` at its operand (R101). -/
theorem exec_of_write {i : Instr} {o : Operand} (h : i.store = .write o) : ∃ v, ∀ s, exec i s = perform i (store o v) s := by
  cases i <;> simp only [Instr.store, reduceCtorEq] at h <;> first
    | (cases h; exact ⟨_, fun _ => rfl⟩)
    | (split at h <;> cases h)

/-- A read-modify-write instruction is one `modify` of its operand, whose computations leave the devices (R101). -/
theorem exec_of_modify {i : Instr} {o : Operand} (h : i.store = .modify o) :
    ∃ (f : Byte → Act Byte) (g : Byte → State → State), (∀ s, exec i s = perform i (modify o f g) s) ∧
      (∀ m s, ∃ r t, f m s = .ok r t ∧ t.devices = s.devices ∧ t.ppu = s.ppu) ∧
        ∀ r s, (g r s).devices = s.devices ∧ (g r s).ppu = s.ppu := by
  have H : ∀ (k : Shift) (m : Byte) (s : State), ∃ r t, k.helper m s = .ok r t ∧ t.devices = s.devices ∧ t.ppu = s.ppu :=
    fun k m s => ⟨_, _, k.helper_eq m s, rfl, rfl⟩
  cases i <;> simp only [Instr.store, reduceCtorEq] at h
  case inc o' =>
    cases h
    exact ⟨_, _, fun s => rfl, fun m s => ⟨_, _, rfl, rfl, rfl⟩, fun r s => ⟨rfl, rfl⟩⟩
  case dec o' =>
    cases h
    exact ⟨_, _, fun s => rfl, fun m s => ⟨_, _, rfl, rfl, rfl⟩, fun r s => ⟨rfl, rfl⟩⟩
  case dcp o' =>
    cases h
    exact ⟨_, _, fun s => rfl, fun m s => ⟨_, _, rfl, rfl, rfl⟩, fun r s => ⟨rfl, rfl⟩⟩
  case isb o' =>
    cases h
    exact ⟨_, _, fun s => rfl, fun m s => ⟨_, _, rfl, rfl, rfl⟩, fun r s => ⟨rfl, rfl⟩⟩
  case slo o' =>
    cases h
    exact ⟨_, _, fun s => rfl, H .asl, fun r s => ⟨rfl, rfl⟩⟩
  case rla o' =>
    cases h
    exact ⟨_, _, fun s => rfl, H .rol, fun r s => ⟨rfl, rfl⟩⟩
  case sre o' =>
    cases h
    exact ⟨_, _, fun s => rfl, H .lsr, fun r s => ⟨rfl, rfl⟩⟩
  case rra o' =>
    cases h
    exact ⟨_, _, fun s => rfl, H .ror, fun r s => ⟨rfl, rfl⟩⟩
  case asl o' =>
    split at h <;> cases h
    exact ⟨_, _, fun s => congrFun (congrArg (perform _) (shift_mem ‹_› _)) s, H .asl, fun r s => ⟨rfl, rfl⟩⟩
  case lsr o' =>
    split at h <;> cases h
    exact ⟨_, _, fun s => congrFun (congrArg (perform _) (shift_mem ‹_› _)) s, H .lsr, fun r s => ⟨rfl, rfl⟩⟩
  case rol o' =>
    split at h <;> cases h
    exact ⟨_, _, fun s => congrFun (congrArg (perform _) (shift_mem ‹_› _)) s, H .rol, fun r s => ⟨rfl, rfl⟩⟩
  case ror o' =>
    split at h <;> cases h
    exact ⟨_, _, fun s => congrFun (congrArg (perform _) (shift_mem ‹_› _)) s, H .ror, fun r s => ⟨rfl, rfl⟩⟩

/-! ## What a bus read moves -/

/-- A read outside the PPU window and the joypad has no effect (20_memory.md R48). -/
theorem busRead_same {ea : Addr} {v : Byte} {s t : State} (h : ea.toNat < 0x2000 ∨ 0x4000 ≤ ea.toNat)
    (h' : ea.toNat ≠ 0x4016) (e : busRead ea s = .ok v t) : t = s := by
  have hr := region_toNat ea
  unfold busRead at e
  cases hp : region ea <;> rw [hp] at e hr <;> dsimp only at e
  case ppu =>
    have := region_eq_ppu.mp hp
    omega
  case joypad => split_ifs at hr
  all_goals
    cases e
    rfl

/-- A read moves the Address pointer by one step at Data and leaves it elsewhere (R69, R70). -/
theorem busRead_pointer {ea : Addr} {v : Byte} {s t : State} (e : busRead ea s = .ok v t) :
    t.ppu.addr =
      if 0x2000 ≤ ea.toNat ∧ ea.toNat < 0x4000 ∧ ea.toNat % 8 = 7 then s.ppu.addr + addrStep s.ppu.ctrl
      else s.ppu.addr := by
  have hs := ppuSlot_eq ea
  have hlt : ea.toNat % 8 < 8 := Nat.mod_lt _ (by decide)
  have hw := region_eq_ppu (addr := ea)
  unfold busRead at e
  cases hp : region ea <;> rw [hp] at e hw <;> dsimp only at e
  case ppu =>
    have hw := hw.mp rfl
    unfold ppuRegRead at e
    cases hq : ppuSlot ea <;> rw [hq] at e hs <;> dsimp only at e
    case data =>
      have h7 : ea.toNat % 8 = 7 := by
        generalize ea.toNat % 8 = n at hs hlt
        interval_cases n <;> first | rfl | cases hs
      rw [if_pos ⟨hw.1, hw.2, h7⟩]
      unfold readData at e
      rw [getS_bind] at e
      split at e
      · rw [getS_bind] at e
        obtain ⟨b, u, e1, e⟩ := bind_eq_ok.mp e
        cases e
        have hu : u = s :=
          (ppuMem_keeps (R := fun s t => t = s) ⟨fun _ => rfl, fun _ _ _ h g => g.trans h⟩ s.ppu.addr).ok e1
        subst hu
        rfl
      · rw [getS_bind] at e
        cases e
        rfl
    all_goals
      have h7 : ea.toNat % 8 ≠ 7 := by
        intro h
        rw [h] at hs
        cases hs
      rw [if_neg fun h => h7 h.2.2]
      first
        | (obtain ⟨-, rfl⟩ := accessFault_ok e; rfl)
        | (cases e; rfl)
  all_goals
    have hn : ¬ (0x2000 ≤ ea.toNat ∧ ea.toNat < 0x4000) := fun h => by cases hw.mpr h
    rw [if_neg fun h => hn ⟨h.1, h.2.1⟩]
  case joypad =>
    unfold joyRead at e
    rw [getS_bind] at e
    split at e <;> cases e <;> rfl
  all_goals
    cases e
    rfl

end Sys2Proof.Machine
end

