-- ==== Sys2Proof/Laws/Fault.lean ====
section
/-! SUPPORT. What a faulting action leaves, shape by shape: beyond the effects of its reads, only what its rule wrote
before the access that faulted (60_exceptions.md R192). -/

namespace Sys2Proof.Machine

/-- Where the action faults, `R` relates the state before it to the state the fault leaves. -/
def FaultLeaves {α : Type} (R : State → State → Prop) (x : Act α) : Prop := ∀ s k u, x s = .error k u → R s u

variable {R : State → State → Prop}

theorem FaultLeaves.of_keeps {α : Type} {x : Act α} (h : Keeps R x) : FaultLeaves R x := fun _ _ _ e => h.error e

/-- An action that always completes. -/
theorem FaultLeaves.of_ok {α : Type} {x : Act α} (h : ∀ s, ∃ a u, x s = .ok a u) : FaultLeaves R x := by
  intro s k u e
  obtain ⟨a, v, h⟩ := h s
  rw [h] at e
  cases e

theorem FaultLeaves.bind (hR : Composes R) {α β : Type} {x : Act α} {f : α → Act β} (hx : Keeps R x)
    (hf : ∀ a, FaultLeaves R (f a)) : FaultLeaves R (x >>= f) := by
  intro s k u e
  rcases bind_eq_error.mp e with e | ⟨a, t, e, e'⟩
  · exact hx.error e
  · exact hR.trans _ _ _ (hx.ok e) (hf a t k u e')

/-- A last access, after which the rule only updates registers. -/
theorem FaultLeaves.then {α β : Type} {x : Act α} {f : α → Act β} (hx : FaultLeaves R x)
    (hf : ∀ a s, ∃ b u, f a s = .ok b u) : FaultLeaves R (x >>= f) := by
  intro s k u e
  rcases bind_eq_error.mp e with e | ⟨a, t, -, e⟩
  · exact hx s k u e
  · obtain ⟨b, v, h⟩ := hf a t
    rw [h] at e
    cases e

theorem busWrite_faultLeaves (ea : Addr) (v : Byte) : FaultLeaves ReadEffect (busWrite ea v) :=
  fun _ _ _ => busWrite_error

theorem readThen_faultLeaves (o : Operand) (f : Byte → State → State) : FaultLeaves ReadEffect (readThen o f) :=
  .then (.of_keeps (readOperand_keeps o)) fun _ _ => ⟨_, _, rfl⟩

theorem store_faultLeaves (o : Operand) (v : State → Byte) : FaultLeaves ReadEffect (store o v) :=
  .bind ReadEffect.composes (effAddr_keeps o) fun ea => .bind ReadEffect.composes (ReadEffect.composes.getS _)
    fun b => .then (busWrite_faultLeaves ea b) fun _ _ => ⟨_, _, rfl⟩

/-- A read-modify-write that faults has at most run its computation. -/
theorem modify_faultLeaves (hR : Composes R) (hr : ∀ s t, ReadEffect s t → R s t) (o : Operand)
    {f : Byte → Act Byte} (hf : ∀ m, Keeps R (f m)) (g : Byte → State → State) : FaultLeaves R (modify o f g) :=
  .bind hR ((effAddr_keeps o).mono hr) fun ea => .bind hR ((busRead_keeps ea).mono hr) fun m => .bind hR (hf m)
    fun r => .then (fun s k u e => hr s u (busWrite_faultLeaves ea r s k u e)) fun _ _ => ⟨_, _, rfl⟩

/-- A shift that faults has at most written its carry. -/
theorem shift_faultLeaves (hR : Composes R) (hr : ∀ s t, ReadEffect s t → R s t)
    (hc : ∀ s b, R s (s.setFlag .c b)) (k : Shift) (o : Operand) : FaultLeaves R (shift o k.helper) := by
  by_cases h : o = .acc
  · subst h
    exact .of_ok fun s => ⟨_, _, shift_acc (k.helper_eq s.a s)⟩
  · rw [shift_mem h]
    exact modify_faultLeaves hR hr o (helper_keeps k hc) _

theorem highAndStore_faultLeaves (v : Byte) (base : Addr) (index : Byte) :
    FaultLeaves ReadEffect (highAndStore v base index) := busWrite_faultLeaves _ _

theorem requireExecutable_faultLeaves (hR : Composes R) (op : Byte) {x : Act Flow} (h : FaultLeaves R x) :
    FaultLeaves R (requireExecutable op >>= fun _ => x) :=
  .bind hR (requireExecutable_keeps hR op) fun _ => h

/-- A fault of `exec` is the fault of its rule's action, recorded. -/
theorem fault_of_body {i : Instr} {s t : State} {k : FaultKind} {body : Byte → Act Flow}
    (he : exec i s = performOp i body s) (hb : ∀ op, FaultLeaves R (body op)) (h : exec i s = .fault (.fatal k t)) :
    ∃ u, t = u.setFault k ∧ R s u := by
  rw [he] at h
  rcases performOp_cases i body s with ⟨-, e⟩ | ⟨op, -, ⟨f, u, -, e⟩ | ⟨k', u, e1, e⟩⟩
  · rw [e] at h; cases h
  · rw [e] at h; cases h
  · rw [e] at h
    cases h
    exact ⟨u, rfl, hb op _ _ _ e1⟩

end Sys2Proof.Machine
end

