-- ==== Sys2Proof/Laws/PerInstr.lean ====
section
/-! SUPPORT. Statements about every instruction as syntax, one lemma per constructor. -/

namespace Sys2Proof.Laws.OpcodeForm

open Sys2Proof

/-- A well-formed instruction is one opcode byte and its operand bytes, as many as its form has (R85). -/
def Statement (i : Instr) : Prop :=
  WellFormed i →
    ∃ op, i.opcode = some op ∧ encode i = op :: i.operandBytes ∧ (encode i).length = i.length

theorem lda (o : Operand) : Statement (.lda o) := form_of_wellFormed _
theorem ldx (o : Operand) : Statement (.ldx o) := form_of_wellFormed _
theorem ldy (o : Operand) : Statement (.ldy o) := form_of_wellFormed _
theorem sta (o : Operand) : Statement (.sta o) := form_of_wellFormed _
theorem stx (o : Operand) : Statement (.stx o) := form_of_wellFormed _
theorem sty (o : Operand) : Statement (.sty o) := form_of_wellFormed _
theorem tax : Statement .tax := form_of_wellFormed _
theorem tay : Statement .tay := form_of_wellFormed _
theorem txa : Statement .txa := form_of_wellFormed _
theorem tya : Statement .tya := form_of_wellFormed _
theorem tsx : Statement .tsx := form_of_wellFormed _
theorem txs : Statement .txs := form_of_wellFormed _
theorem pha : Statement .pha := form_of_wellFormed _
theorem php : Statement .php := form_of_wellFormed _
theorem pla : Statement .pla := form_of_wellFormed _
theorem plp : Statement .plp := form_of_wellFormed _
theorem adc (o : Operand) : Statement (.adc o) := form_of_wellFormed _
theorem sbc (o : Operand) : Statement (.sbc o) := form_of_wellFormed _
theorem and (o : Operand) : Statement (.and o) := form_of_wellFormed _
theorem ora (o : Operand) : Statement (.ora o) := form_of_wellFormed _
theorem eor (o : Operand) : Statement (.eor o) := form_of_wellFormed _
theorem bit (o : Operand) : Statement (.bit o) := form_of_wellFormed _
theorem cmp (o : Operand) : Statement (.cmp o) := form_of_wellFormed _
theorem cpx (o : Operand) : Statement (.cpx o) := form_of_wellFormed _
theorem cpy (o : Operand) : Statement (.cpy o) := form_of_wellFormed _
theorem inc (o : Operand) : Statement (.inc o) := form_of_wellFormed _
theorem dec (o : Operand) : Statement (.dec o) := form_of_wellFormed _
theorem inx : Statement .inx := form_of_wellFormed _
theorem iny : Statement .iny := form_of_wellFormed _
theorem dex : Statement .dex := form_of_wellFormed _
theorem dey : Statement .dey := form_of_wellFormed _
theorem asl (o : Operand) : Statement (.asl o) := form_of_wellFormed _
theorem lsr (o : Operand) : Statement (.lsr o) := form_of_wellFormed _
theorem rol (o : Operand) : Statement (.rol o) := form_of_wellFormed _
theorem ror (o : Operand) : Statement (.ror o) := form_of_wellFormed _
theorem jmp (o : Operand) : Statement (.jmp o) := form_of_wellFormed _
theorem jsr (target : Addr) : Statement (.jsr target) := form_of_wellFormed _
theorem rts : Statement .rts := form_of_wellFormed _
theorem rti : Statement .rti := form_of_wellFormed _
theorem brk : Statement .brk := form_of_wellFormed _
theorem bpl (d : Byte) : Statement (.bpl d) := form_of_wellFormed _
theorem bmi (d : Byte) : Statement (.bmi d) := form_of_wellFormed _
theorem bvc (d : Byte) : Statement (.bvc d) := form_of_wellFormed _
theorem bvs (d : Byte) : Statement (.bvs d) := form_of_wellFormed _
theorem bcc (d : Byte) : Statement (.bcc d) := form_of_wellFormed _
theorem bcs (d : Byte) : Statement (.bcs d) := form_of_wellFormed _
theorem bne (d : Byte) : Statement (.bne d) := form_of_wellFormed _
theorem beq (d : Byte) : Statement (.beq d) := form_of_wellFormed _
theorem clc : Statement .clc := form_of_wellFormed _
theorem sec : Statement .sec := form_of_wellFormed _
theorem cli : Statement .cli := form_of_wellFormed _
theorem sei : Statement .sei := form_of_wellFormed _
theorem cld : Statement .cld := form_of_wellFormed _
theorem sed : Statement .sed := form_of_wellFormed _
theorem clv : Statement .clv := form_of_wellFormed _
theorem nop : Statement .nop := form_of_wellFormed _
theorem lax (o : Operand) : Statement (.lax o) := form_of_wellFormed _
theorem sax (o : Operand) : Statement (.sax o) := form_of_wellFormed _
theorem dcp (o : Operand) : Statement (.dcp o) := form_of_wellFormed _
theorem isb (o : Operand) : Statement (.isb o) := form_of_wellFormed _
theorem slo (o : Operand) : Statement (.slo o) := form_of_wellFormed _
theorem rla (o : Operand) : Statement (.rla o) := form_of_wellFormed _
theorem sre (o : Operand) : Statement (.sre o) := form_of_wellFormed _
theorem rra (o : Operand) : Statement (.rra o) := form_of_wellFormed _
theorem sbcEB (v : Byte) : Statement (.sbcEB v) := form_of_wellFormed _
theorem anc (op : Byte) (v : Byte) : Statement (.anc op v) := form_of_wellFormed _
theorem alr (v : Byte) : Statement (.alr v) := form_of_wellFormed _
theorem arr (v : Byte) : Statement (.arr v) := form_of_wellFormed _
theorem sbx (v : Byte) : Statement (.sbx v) := form_of_wellFormed _
theorem las (a : Addr) : Statement (.las a) := form_of_wellFormed _
theorem nopImplied (op : Byte) : Statement (.nopImplied op) := form_of_wellFormed _
theorem nopImmediate (op : Byte) (v : Byte) : Statement (.nopImmediate op v) := form_of_wellFormed _
theorem nopMemory (op : Byte) (o : Operand) : Statement (.nopMemory op o) := form_of_wellFormed _
theorem jam (op : Byte) : Statement (.jam op) := form_of_wellFormed _
theorem ane (v : Byte) : Statement (.ane v) := form_of_wellFormed _
theorem lxa (v : Byte) : Statement (.lxa v) := form_of_wellFormed _
theorem sha (o : Operand) : Statement (.sha o) := form_of_wellFormed _
theorem shx (a : Addr) : Statement (.shx a) := form_of_wellFormed _
theorem shy (a : Addr) : Statement (.shy a) := form_of_wellFormed _
theorem tas (a : Addr) : Statement (.tas a) := form_of_wellFormed _

end Sys2Proof.Laws.OpcodeForm
end

