-- ==== Sys2Proof/Tests/Slice0.lean ====
section
/-! SUPPORT. Tests: the well-formedness smoke test, words written out from the spec's encodings, one-step vectors of
95_test_vectors.md and of the rules' own examples, and the witnesses of the statements' hypotheses. -/

open Sys2Proof Sys2Proof.Machine

namespace Sys2Proof.Tests

/-! ## Well-formedness: one ill-formed term for each check -/

/-- A form the rule does not list is refused: an immediate store, an indirect load, `STX zp,X`, and so on through
every form list of `Instr.modes`. -/
theorem test_wellFormed_refuses_forms :
    ∀ i ∈ [Instr.lda .acc, .lda (.zpY 0), .ldx (.zpX 0), .ldx .acc, .ldy (.zpY 0), .sta (.imm 0), .stx (.zpX 0),
        .sty (.zpY 0), .bit (.imm 0), .cpx (.zpX 0), .cpy (.absX 0), .inc .acc, .dec (.imm 0), .asl (.absY 0),
        .jmp (.zp 0), .lax (.imm 0), .sax (.zpX 0), .dcp (.ind 0), .slo .acc, .sha (.zp 0),
        .nopMemory 0x04 (.abs 0)], ¬ WellFormed i := by decide

/-- An opcode byte that is not the rule's is refused, for each rule that carries its byte. -/
theorem test_wellFormed_refuses_bytes :
    ∀ i ∈ [Instr.nopMemory 0x0D (.abs 0), .nopMemory 0x15 (.zpX 0), .nopMemory 0x1D (.absX 0),
        .nopMemory 0x05 (.zp 0), .nopImplied 0xEA, .nopImmediate 0xA9 0, .anc 0x4B 0, .jam 0x03],
      ¬ WellFormed i := by decide

/-- The forms at the ends of the lists are accepted. -/
theorem test_wellFormed_accepts :
    ∀ i ∈ [Instr.lda (.imm 0), .lda (.indY 0xFF), .stx (.zpY 0), .asl .acc, .jmp (.ind 0xFFFF), .anc 0x2B 0,
        .nopMemory 0xFC (.absX 0), .jam 0xF2, .sha (.indY 0)], WellFormed i := by decide

/-- An ill-formed term is refused by name. -/
theorem test_exec_refuses_illFormed : exec (.sta (.imm 0)) State.reset = .refused .noEncoding := rfl

/-! ## The opcode map -/

/-- The grid of 30_encoding.md R103 has 16 rows of 16 cells. -/
theorem test_grid_is_full : opcodeGrid.length = 16 ∧ ∀ row ∈ opcodeGrid, row.length = 16 := by decide

/-- The class counts of 30_encoding.md R87. -/
theorem test_class_counts :
    ([OpClass.documented, .undocumented, .unstable, .jam].map fun c =>
      ((List.range 256).filter fun n => opClass (BitVec.ofNat 8 n) = c).length) = [151, 86, 7, 12] := by
  decide +kernel

/-- Base costs read off the grid of R102 at its corners and at its irregular cells. -/
theorem test_cycles : [0x00, 0x0F, 0xF0, 0xFF, 0x9D, 0x1E, 0x6C, 0x20, 0x68, 0x93, 0x9F].map cyclesOf =
    [7, 6, 2, 7, 5, 7, 5, 6, 4, 6, 5] := by decide

/-! ## Words written out from the Encodings lines and the examples of 30_encoding.md -/

theorem test_decode_loads_and_stores :
    decode [0xA9, 0x05] = .ok (.lda (.imm 0x05), []) ∧ decode [0xA1, 0x40] = .ok (.lda (.indX 0x40), []) ∧
    decode [0xB9, 0x34, 0x12] = .ok (.lda (.absY 0x1234), []) ∧ decode [0xB6, 0x80] = .ok (.ldx (.zpY 0x80), []) ∧
    decode [0xBC, 0x34, 0x12] = .ok (.ldy (.absX 0x1234), []) ∧ decode [0x91, 0x40] = .ok (.sta (.indY 0x40), []) ∧
    decode [0x96, 0xFF] = .ok (.stx (.zpY 0xFF), []) ∧ decode [0x94, 0x10] = .ok (.sty (.zpX 0x10), []) :=
  ⟨rfl, rfl, rfl, rfl, rfl, rfl, rfl, rfl⟩

theorem test_decode_transfers_and_stack :
    decode [0xAA] = .ok (.tax, []) ∧ decode [0xA8] = .ok (.tay, []) ∧ decode [0x8A] = .ok (.txa, []) ∧
    decode [0x98] = .ok (.tya, []) ∧ decode [0xBA] = .ok (.tsx, []) ∧ decode [0x9A] = .ok (.txs, []) ∧
    decode [0x48] = .ok (.pha, []) ∧ decode [0x08] = .ok (.php, []) ∧ decode [0x68] = .ok (.pla, []) ∧
    decode [0x28] = .ok (.plp, []) :=
  ⟨rfl, rfl, rfl, rfl, rfl, rfl, rfl, rfl, rfl, rfl⟩

theorem test_decode_arithmetic :
    decode [0x69, 0x10] = .ok (.adc (.imm 0x10), []) ∧ decode [0xF1, 0x20] = .ok (.sbc (.indY 0x20), []) ∧
    decode [0x2D, 0x34, 0x12] = .ok (.and (.abs 0x1234), []) ∧ decode [0x05, 0x10] = .ok (.ora (.zp 0x10), []) ∧
    decode [0x5D, 0x34, 0x12] = .ok (.eor (.absX 0x1234), []) ∧ decode [0x24, 0x10] = .ok (.bit (.zp 0x10), []) ∧
    decode [0xD5, 0x10] = .ok (.cmp (.zpX 0x10), []) ∧ decode [0xE0, 0x80] = .ok (.cpx (.imm 0x80), []) ∧
    decode [0xC4, 0x10] = .ok (.cpy (.zp 0x10), []) ∧ decode [0xE6, 0x10] = .ok (.inc (.zp 0x10), []) ∧
    decode [0xDE, 0x00, 0x03] = .ok (.dec (.absX 0x0300), []) ∧ decode [0xE8] = .ok (.inx, []) ∧
    decode [0xC8] = .ok (.iny, []) ∧ decode [0xCA] = .ok (.dex, []) ∧ decode [0x88] = .ok (.dey, []) :=
  ⟨rfl, rfl, rfl, rfl, rfl, rfl, rfl, rfl, rfl, rfl, rfl, rfl, rfl, rfl, rfl⟩

theorem test_decode_shifts :
    decode [0x0A] = .ok (.asl .acc, []) ∧ decode [0x5E, 0x00, 0x02] = .ok (.lsr (.absX 0x0200), []) ∧
    decode [0x36, 0x10] = .ok (.rol (.zpX 0x10), []) ∧ decode [0x6E, 0x00, 0x02] = .ok (.ror (.abs 0x0200), []) :=
  ⟨rfl, rfl, rfl, rfl⟩

theorem test_decode_control_flow :
    decode [0x4C, 0x00, 0x90] = .ok (.jmp (.abs 0x9000), []) ∧
    decode [0x6C, 0xFF, 0x01] = .ok (.jmp (.ind 0x01FF), []) ∧
    decode [0x20, 0x00, 0x90] = .ok (.jsr 0x9000, []) ∧ decode [0x60] = .ok (.rts, []) ∧
    decode [0x40] = .ok (.rti, []) ∧ decode [0x00] = .ok (.brk, []) ∧ decode [0x10, 0x7F] = .ok (.bpl 0x7F, []) ∧
    decode [0x30, 0x80] = .ok (.bmi 0x80, []) ∧ decode [0x50, 0x05] = .ok (.bvc 0x05, []) ∧
    decode [0x70, 0x05] = .ok (.bvs 0x05, []) ∧ decode [0x90, 0xFE] = .ok (.bcc 0xFE, []) ∧
    decode [0xB0, 0x00] = .ok (.bcs 0x00, []) ∧ decode [0xD0, 0x10] = .ok (.bne 0x10, []) ∧
    decode [0xF0, 0xFC] = .ok (.beq 0xFC, []) :=
  ⟨rfl, rfl, rfl, rfl, rfl, rfl, rfl, rfl, rfl, rfl, rfl, rfl, rfl, rfl⟩

theorem test_decode_flags :
    decode [0x18] = .ok (.clc, []) ∧ decode [0x38] = .ok (.sec, []) ∧ decode [0x58] = .ok (.cli, []) ∧
    decode [0x78] = .ok (.sei, []) ∧ decode [0xD8] = .ok (.cld, []) ∧ decode [0xF8] = .ok (.sed, []) ∧
    decode [0xB8] = .ok (.clv, []) ∧ decode [0xEA] = .ok (.nop, []) :=
  ⟨rfl, rfl, rfl, rfl, rfl, rfl, rfl, rfl⟩

theorem test_decode_undocumented :
    decode [0xB7, 0x10] = .ok (.lax (.zpY 0x10), []) ∧ decode [0x83, 0x10] = .ok (.sax (.indX 0x10), []) ∧
    decode [0xC7, 0x10] = .ok (.dcp (.zp 0x10), []) ∧ decode [0xFB, 0x00, 0x02] = .ok (.isb (.absY 0x0200), []) ∧
    decode [0x13, 0x10] = .ok (.slo (.indY 0x10), []) ∧ decode [0x37, 0x10] = .ok (.rla (.zpX 0x10), []) ∧
    decode [0x4F, 0x00, 0x02] = .ok (.sre (.abs 0x0200), []) ∧
    decode [0x7F, 0x00, 0x02] = .ok (.rra (.absX 0x0200), []) ∧ decode [0xEB, 0x01] = .ok (.sbcEB 0x01, []) ∧
    decode [0x2B, 0x80] = .ok (.anc 0x2B 0x80, []) ∧ decode [0x4B, 0x03] = .ok (.alr 0x03, []) ∧
    decode [0x6B, 0x40] = .ok (.arr 0x40, []) ∧ decode [0xCB, 0x05] = .ok (.sbx 0x05, []) ∧
    decode [0xBB, 0x00, 0x02] = .ok (.las 0x0200, []) ∧ decode [0xFA] = .ok (.nopImplied 0xFA, []) ∧
    decode [0x80, 0x55] = .ok (.nopImmediate 0x80 0x55, []) ∧
    decode [0x0C, 0x02, 0x20] = .ok (.nopMemory 0x0C (.abs 0x2002), []) :=
  ⟨rfl, rfl, rfl, rfl, rfl, rfl, rfl, rfl, rfl, rfl, rfl, rfl, rfl, rfl, rfl, rfl, rfl⟩

theorem test_decode_jam_and_unstable :
    decode [0x02] = .ok (.jam 0x02, []) ∧ decode [0x8B, 0xFF] = .ok (.ane 0xFF, []) ∧
    decode [0xAB, 0xF0] = .ok (.lxa 0xF0, []) ∧ decode [0x93, 0x10] = .ok (.sha (.indY 0x10), []) ∧
    decode [0x9E, 0x00, 0x02] = .ok (.shx 0x0200, []) ∧ decode [0x9C, 0xFF, 0x02] = .ok (.shy 0x02FF, []) ∧
    decode [0x9B, 0x00, 0x02] = .ok (.tas 0x0200, []) :=
  ⟨rfl, rfl, rfl, rfl, rfl, rfl, rfl⟩

/-- Bytes that end inside an instruction are refused by name; the bytes after an instruction are left. -/
theorem test_decode_rest : decode [] = .error .noBytes ∧ decode [0xAD, 0x34] = .error (.truncated 0xAD) ∧
    decode [0xEA, 0xAD] = .ok (.nop, [0xAD]) := ⟨rfl, rfl, rfl⟩

/-- The table's numbering: the second byte is bits 15 to 8, and the bits above the row's are zero. -/
theorem test_decodeTableWord : decodeTableWord 16 0x05A9 = some (.lda (.imm 0x05)) ∧
    decodeTableWord 8 0xAD = some (.lda (.abs 0x0000)) ∧ decodeTableWord 24 0x1234BD = some (.lda (.absX 0x1234)) :=
  ⟨rfl, rfl, rfl⟩

/-! ## One-step vectors of 95_test_vectors.md -/

/-- The state of 95_test_vectors.md section 0 with `code` at $8000, the reset vector $8000 and the BRK and NMI vectors
$9000; the magic constants are the $EE of V-UN26 and V-UN27. -/
def testState (code : List Byte) (u : UnstableMode) : State :=
  State.initial
    { Launch.default with
      prg := (code.zipIdx.map fun (b, i) => (i, b)).filter (fun c => c.2 != 0) ++
        [(0x7FFB, 0x90), (0x7FFD, 0x80), (0x7FFF, 0x90)]
      unstable := u
      aneMagic := 0xEE
      lxaMagic := 0xEE }
    MemoryInit.blank

/-- Whether a step from `s` ends with these registers, this cycle count and these RAM cells. -/
def ends (s : State) (a x y sp p : Byte) (pc : Addr) (cycles : Nat) (cells : List (Nat × Byte)) : Bool :=
  match step s with
  | .next t =>
    t.a == a && t.x == x && t.y == y && t.sp == sp && t.p == p && t.pc == pc && t.cycles == cycles &&
      cells.all fun c => Memory.read t.ram c.1 == c.2
  | .fault _ | .refused _ => false

/-- Whether a step from `s` stops by this fatal fault, with PC and the cycle count as given. -/
def faults (s : State) (k : FaultKind) (pc : Addr) (cycles : Nat) : Bool :=
  match step s with
  | .fault (.fatal k' t) => k' == k && t.pc == pc && t.cycles == cycles && t.fault == some k
  | .fault (.halted _) | .next _ | .refused _ => false

/-! Loads, stores and transfers -/

/-- V-EA6: `LDA ($FE,X)`. -/
theorem test_lda_ea6 :
    ends (((((testState [0xA1, 0xFE] .fatal).setX 0x01).setRam 0x000 0x02).setRam 0x0FF 0x34).setRam 0x234 0x66)
    0x66 0x01 0x00 0xFD 0x24 0x8002 6 [] = true := by decide

/-- V-EA7: `LDA ($FF),Y`. -/
theorem test_lda_ea7 :
    ends (((((testState [0xB1, 0xFF] .fatal).setY 0x10).setRam 0x000 0x01).setRam 0x0FF 0xF8).setRam 0x208 0x11)
    0x11 0x00 0x10 0xFD 0x24 0x8002 5 [] = true := by decide

/-- V-EA2: `LDX $FF,Y`. -/
theorem test_ldx_ea2 : ends (((testState [0xB6, 0xFF] .fatal).setY 0x02).setRam 0x001 0x99)
    0x00 0x99 0x02 0xFD 0xA4 0x8002 4 [] = true := by decide

/-- V-LS4: `LDX $0400,Y`. -/
theorem test_ldx_ls4 : ends (((testState [0xBE, 0x00, 0x04] .fatal).setY 0x05).setRam 0x405 0xFE)
    0x00 0xFE 0x05 0xFD 0xA4 0x8003 4 [] = true := by decide

/-- V-LS3: `LDY $10`. -/
theorem test_ldy_ls3 : ends ((testState [0xA4, 0x10] .fatal).setRam 0x010 0x7F)
    0x00 0x00 0x7F 0xFD 0x24 0x8002 3 [] = true := by decide

/-- V-LS5: `STA $0200,X`. -/
theorem test_sta_ls5 : ends ((((testState [0x9D, 0x00, 0x02] .fatal).setA 0x5A).setX 0x03).setP 0xA6)
    0x5A 0x03 0x00 0xFD 0xA6 0x8003 5 [(0x203, 0x5A)] = true := by decide

/-- V-LS6: `STX $10,Y`. -/
theorem test_stx_ls6 : ends (((testState [0x96, 0x10] .fatal).setX 0x44).setY 0xF5)
    0x00 0x44 0xF5 0xFD 0x24 0x8002 4 [(0x005, 0x44)] = true := by decide

/-- V-LS7: `STY $0800`. -/
theorem test_sty_ls7 : ends ((testState [0x8C, 0x00, 0x08] .fatal).setY 0x9C)
    0x00 0x00 0x9C 0xFD 0x24 0x8003 4 [(0x000, 0x9C), (0x000, 0x9C)] = true := by decide

/-- V-LS8: `TAX`. -/
theorem test_tax_ls8 : ends (((testState [0xAA] .fatal).setA 0x00).setX 0x55)
    0x00 0x00 0x00 0xFD 0x26 0x8001 2 [] = true := by decide

/-- V-LS9: `TSX`. -/
theorem test_tsx_ls9 : ends (testState [0xBA] .fatal)
    0x00 0xFD 0x00 0xFD 0xA4 0x8001 2 [] = true := by decide

/-- V-LS10: `TXS`. -/
theorem test_txs_ls10 : ends ((testState [0x9A] .fatal).setX 0x00)
    0x00 0x00 0x00 0x00 0x24 0x8001 2 [] = true := by decide

/-- V-LS11: `TYA`. -/
theorem test_tya_ls11 : ends ((testState [0x98] .fatal).setY 0x80)
    0x80 0x00 0x80 0xFD 0xA4 0x8001 2 [] = true := by decide

/-! Stack -/

/-- V-ST2: `PHP`. -/
theorem test_php_st2 : ends (testState [0x08] .fatal)
    0x00 0x00 0x00 0xFC 0x24 0x8001 3 [(0x1FD, 0x34)] = true := by decide

/-- V-ST4: `PLP`. -/
theorem test_plp_st4 : ends (((testState [0x28] .fatal).setSp 0xFC).setRam 0x1FD 0xFF)
    0x00 0x00 0x00 0xFD 0xEF 0x8001 4 [] = true := by decide

/-- V-ST5: `PLP`. -/
theorem test_plp_st5 : ends (((testState [0x28] .fatal).setSp 0xFC).setP 0xE7)
    0x00 0x00 0x00 0xFD 0x20 0x8001 4 [] = true := by decide

/-- V-ST6: `PHA`. -/
theorem test_pha_st6 : ends (((testState [0x48] .fatal).setA 0x99).setSp 0x00)
    0x99 0x00 0x00 0xFF 0x24 0x8001 3 [(0x100, 0x99)] = true := by decide

/-- V-ST7: `PLA`. -/
theorem test_pla_st7 : ends (((testState [0x68] .fatal).setSp 0xFF).setRam 0x100 0x01)
    0x01 0x00 0x00 0x00 0x24 0x8001 4 [] = true := by decide

/-! Arithmetic and logic -/

/-- V-AR3: `ADC #$00`. -/
theorem test_adc_ar3 : ends (((testState [0x69, 0x00] .fatal).setA 0x7F).setP 0x25)
    0x80 0x00 0x00 0xFD 0xE4 0x8002 2 [] = true := by decide

/-- V-AR5: `ADC #$01`. -/
theorem test_adc_ar5 : ends (((testState [0x69, 0x01] .fatal).setA 0x09).setP 0x2C)
    0x0A 0x00 0x00 0xFD 0x2C 0x8002 2 [] = true := by decide

/-- V-AR7: `SBC #$B0`. -/
theorem test_sbc_ar7 : ends (((testState [0xE9, 0xB0] .fatal).setA 0x50).setP 0x25)
    0xA0 0x00 0x00 0xFD 0xE4 0x8002 2 [] = true := by decide

/-- V-AR8: `SBC #$03`. -/
theorem test_sbc_ar8 : ends ((testState [0xE9, 0x03] .fatal).setA 0x05)
    0x01 0x00 0x00 0xFD 0x25 0x8002 2 [] = true := by decide

/-- V-AR10: `AND #$0F`. -/
theorem test_and_ar10 : ends ((testState [0x29, 0x0F] .fatal).setA 0xF0)
    0x00 0x00 0x00 0xFD 0x26 0x8002 2 [] = true := by decide

/-- V-AR11: `ORA $10`. -/
theorem test_ora_ar11 : ends (((testState [0x05, 0x10] .fatal).setA 0x01).setRam 0x010 0x80)
    0x81 0x00 0x00 0xFD 0xA4 0x8002 3 [] = true := by decide

/-- V-AR12: `EOR #$FF`. -/
theorem test_eor_ar12 : ends ((testState [0x49, 0xFF] .fatal).setA 0xFF)
    0x00 0x00 0x00 0xFD 0x26 0x8002 2 [] = true := by decide

/-- V-AR13: `BIT $10`. -/
theorem test_bit_ar13 : ends (((testState [0x24, 0x10] .fatal).setA 0x00).setRam 0x010 0xC0)
    0x00 0x00 0x00 0xFD 0xE6 0x8002 3 [] = true := by decide

/-- V-AR16: `CMP #$02`. -/
theorem test_cmp_ar16 : ends ((testState [0xC9, 0x02] .fatal).setA 0x01)
    0x01 0x00 0x00 0xFD 0xA4 0x8002 2 [] = true := by decide

/-- V-AR17: `CPX #$80`. -/
theorem test_cpx_ar17 : ends ((testState [0xE0, 0x80] .fatal).setX 0xFF)
    0x00 0xFF 0x00 0xFD 0x25 0x8002 2 [] = true := by decide

/-- V-AR18: `CPY $10`. -/
theorem test_cpy_ar18 : ends (((testState [0xC4, 0x10] .fatal).setY 0x00).setRam 0x010 0x01)
    0x00 0x00 0x00 0xFD 0xA4 0x8002 3 [] = true := by decide

/-- V-AR19: `INC $10`. -/
theorem test_inc_ar19 : ends ((testState [0xE6, 0x10] .fatal).setRam 0x010 0xFF)
    0x00 0x00 0x00 0xFD 0x26 0x8002 5 [(0x010, 0x00)] = true := by decide

/-- V-AR20: `DEC $0300,X`. -/
theorem test_dec_ar20 : ends ((testState [0xDE, 0x00, 0x03] .fatal).setX 0x01)
    0x00 0x01 0x00 0xFD 0xA4 0x8003 7 [(0x301, 0xFF)] = true := by decide

/-- V-AR21: `INX`. -/
theorem test_inx_ar21 : ends ((testState [0xE8] .fatal).setX 0xFF)
    0x00 0x00 0x00 0xFD 0x26 0x8001 2 [] = true := by decide

/-- V-AR22: `INY`. -/
theorem test_iny_ar22 : ends ((testState [0xC8] .fatal).setY 0x7F)
    0x00 0x00 0x80 0xFD 0xA4 0x8001 2 [] = true := by decide

/-- V-AR23: `DEX`. -/
theorem test_dex_ar23 : ends ((testState [0xCA] .fatal).setX 0x00)
    0x00 0xFF 0x00 0xFD 0xA4 0x8001 2 [] = true := by decide

/-- V-AR24: `DEY`. -/
theorem test_dey_ar24 : ends ((testState [0x88] .fatal).setY 0x01)
    0x00 0x00 0x00 0xFD 0x26 0x8001 2 [] = true := by decide

/-! Shifts and rotates -/

/-- V-SH2: `ASL A`. -/
theorem test_asl_sh2 : ends ((testState [0x0A] .fatal).setA 0x41)
    0x82 0x00 0x00 0xFD 0xA4 0x8001 2 [] = true := by decide

/-- V-SH7: `ASL $10`. -/
theorem test_asl_sh7 : ends ((testState [0x06, 0x10] .fatal).setRam 0x010 0xC0)
    0x00 0x00 0x00 0xFD 0xA5 0x8002 5 [(0x010, 0x80)] = true := by decide

/-- V-SH8: `LSR $0200,X`. -/
theorem test_lsr_sh8 : ends (((testState [0x5E, 0x00, 0x02] .fatal).setX 0x02).setRam 0x202 0x81)
    0x00 0x02 0x00 0xFD 0x25 0x8003 7 [(0x202, 0x40)] = true := by decide

/-- V-SH9: `ROL $10,X`. -/
theorem test_rol_sh9 : ends (((testState [0x36, 0x10] .fatal).setX 0xF5).setP 0x25)
    0x00 0xF5 0x00 0xFD 0x24 0x8002 6 [(0x005, 0x01)] = true := by decide

/-- V-SH5: `ROR A`. -/
theorem test_ror_sh5 : ends (((testState [0x6A] .fatal).setA 0x01).setP 0x25)
    0x80 0x00 0x00 0xFD 0xA5 0x8001 2 [] = true := by decide

/-- V-SH10: `ROR $0200`. -/
theorem test_ror_sh10 : ends ((testState [0x6E, 0x00, 0x02] .fatal).setP 0x25)
    0x00 0x00 0x00 0xFD 0xA4 0x8003 6 [(0x200, 0x80)] = true := by decide

/-! Control flow -/

/-- V-EA9: `JMP ($02FF)`. -/
theorem test_jmp_ea9 : ends (((testState [0x6C, 0xFF, 0x02] .fatal).setRam 0x200 0x90).setRam 0x300 0xA0)
    0x00 0x00 0x00 0xFD 0x24 0x9000 5 [] = true := by decide

/-- V-CF2: `JSR $9000`. -/
theorem test_jsr_cf2 : ends (testState [0x20, 0x00, 0x90] .fatal)
    0x00 0x00 0x00 0xFB 0x24 0x9000 6 [(0x1FD, 0x80), (0x1FC, 0x02)] = true := by decide

/-- V-CF3: `RTS`. -/
theorem test_rts_cf3 : ends ((((testState [0x60] .fatal).setSp 0xFB).setRam 0x1FC 0x02).setRam 0x1FD 0x80)
    0x00 0x00 0x00 0xFD 0x24 0x8003 6 [] = true := by decide

/-- V-CF4: `RTI`. -/
theorem test_rti_cf4 :
    ends (((((testState [0x40] .fatal).setSp 0xFA).setRam 0x1FB 0xFF).setRam 0x1FC 0x34).setRam 0x1FD 0x12)
    0x00 0x00 0x00 0xFD 0xEF 0x1234 6 [] = true := by decide

/-- V-CF5: `BRK`. -/
theorem test_brk_cf5 : ends (testState [0x00] .fatal)
    0x00 0x00 0x00 0xFA 0x24 0x9000 7 [(0x1FD, 0x80), (0x1FC, 0x02), (0x1FB, 0x34)] = true := by decide

/-- V-CF7: `BNE +$10 (taken)`. -/
theorem test_bne_cf7 : ends (testState [0xD0, 0x10] .fatal)
    0x00 0x00 0x00 0xFD 0x24 0x8012 3 [] = true := by decide

/-- V-CF8: `BEQ -$04 (taken)`. -/
theorem test_beq_cf8 : ends ((testState [0xF0, 0xFC] .fatal).setP 0x26)
    0x00 0x00 0x00 0xFD 0x26 0x7FFE 4 [] = true := by decide

/-- V-CF9: `BPL +$7F (taken, farthest forward, same page)`. -/
theorem test_bpl_cf9 : ends (testState [0x10, 0x7F] .fatal)
    0x00 0x00 0x00 0xFD 0x24 0x8081 3 [] = true := by decide

/-- V-CF10: `BMI -$80 (taken, page cross)`. -/
theorem test_bmi_cf10 : ends ((testState [0x30, 0x80] .fatal).setP 0xA4)
    0x00 0x00 0x00 0xFD 0xA4 0x7F82 4 [] = true := by decide

/-- V-CF11: `BCC $FE (to itself)`. -/
theorem test_bcc_cf11 : ends (testState [0x90, 0xFE] .fatal)
    0x00 0x00 0x00 0xFD 0x24 0x8000 3 [] = true := by decide

/-- V-CF12: `BCS +$00`. -/
theorem test_bcs_cf12 : ends ((testState [0xB0, 0x00] .fatal).setP 0x25)
    0x00 0x00 0x00 0xFD 0x25 0x8002 3 [] = true := by decide

/-- V-CF13: `BVS +$05 (not taken)`. -/
theorem test_bvs_cf13 : ends (testState [0x70, 0x05] .fatal)
    0x00 0x00 0x00 0xFD 0x24 0x8002 2 [] = true := by decide

/-- V-CF14: `BVC +$05 (taken)`. -/
theorem test_bvc_cf14 : ends (testState [0x50, 0x05] .fatal)
    0x00 0x00 0x00 0xFD 0x24 0x8007 3 [] = true := by decide

/-! Flags and NOP -/

/-- V-FL1: `SEC`. -/
theorem test_sec_fl1 : ends (testState [0x38] .fatal)
    0x00 0x00 0x00 0xFD 0x25 0x8001 2 [] = true := by decide

/-- V-FL2: `CLC`. -/
theorem test_clc_fl2 : ends ((testState [0x18] .fatal).setP 0x25)
    0x00 0x00 0x00 0xFD 0x24 0x8001 2 [] = true := by decide

/-- V-FL3: `SEI`. -/
theorem test_sei_fl3 : ends ((testState [0x78] .fatal).setP 0x20)
    0x00 0x00 0x00 0xFD 0x24 0x8001 2 [] = true := by decide

/-- V-FL4: `CLI`. -/
theorem test_cli_fl4 : ends (testState [0x58] .fatal)
    0x00 0x00 0x00 0xFD 0x20 0x8001 2 [] = true := by decide

/-- V-FL5: `SED`. -/
theorem test_sed_fl5 : ends (testState [0xF8] .fatal)
    0x00 0x00 0x00 0xFD 0x2C 0x8001 2 [] = true := by decide

/-- V-FL6: `CLD`. -/
theorem test_cld_fl6 : ends ((testState [0xD8] .fatal).setP 0x2C)
    0x00 0x00 0x00 0xFD 0x24 0x8001 2 [] = true := by decide

/-- V-FL7: `CLV`. -/
theorem test_clv_fl7 : ends ((testState [0xB8] .fatal).setP 0x64)
    0x00 0x00 0x00 0xFD 0x24 0x8001 2 [] = true := by decide

/-- V-FL8: `NOP`. -/
theorem test_nop_fl8 : ends (testState [0xEA] .fatal)
    0x00 0x00 0x00 0xFD 0x24 0x8001 2 [] = true := by decide

/-! Undocumented -/

/-- V-UN1: `LAX $10`. -/
theorem test_lax_un1 : ends ((testState [0xA7, 0x10] .fatal).setRam 0x010 0x80)
    0x80 0x80 0x00 0xFD 0xA4 0x8002 3 [] = true := by decide

/-- V-UN2: `SAX $10`. -/
theorem test_sax_un2 : ends (((testState [0x87, 0x10] .fatal).setA 0xF0).setX 0x3C)
    0xF0 0x3C 0x00 0xFD 0x24 0x8002 3 [(0x010, 0x30)] = true := by decide

/-- V-UN4: `DCP $10`. -/
theorem test_dcp_un4 : ends ((testState [0xC7, 0x10] .fatal).setA 0x05)
    0x05 0x00 0x00 0xFD 0x24 0x8002 5 [(0x010, 0xFF)] = true := by decide

/-- V-UN5: `ISB $10`. -/
theorem test_isb_un5 : ends ((((testState [0xE7, 0x10] .fatal).setA 0x10).setP 0x25).setRam 0x010 0x0F)
    0x00 0x00 0x00 0xFD 0x27 0x8002 5 [(0x010, 0x10)] = true := by decide

/-- V-UN6: `SLO $10`. -/
theorem test_slo_un6 : ends (((testState [0x07, 0x10] .fatal).setA 0x01).setRam 0x010 0x81)
    0x03 0x00 0x00 0xFD 0x25 0x8002 5 [(0x010, 0x02)] = true := by decide

/-- V-UN7: `RLA $10`. -/
theorem test_rla_un7 : ends ((((testState [0x27, 0x10] .fatal).setA 0xFF).setP 0x25).setRam 0x010 0x40)
    0x81 0x00 0x00 0xFD 0xA4 0x8002 5 [(0x010, 0x81)] = true := by decide

/-- V-UN8: `SRE $10`. -/
theorem test_sre_un8 : ends (((testState [0x47, 0x10] .fatal).setA 0xFF).setRam 0x010 0x03)
    0xFE 0x00 0x00 0xFD 0xA5 0x8002 5 [(0x010, 0x01)] = true := by decide

/-- V-UN9: `RRA $10`. -/
theorem test_rra_un9 : ends (((testState [0x67, 0x10] .fatal).setA 0x10).setRam 0x010 0x03)
    0x12 0x00 0x00 0xFD 0x24 0x8002 5 [(0x010, 0x01)] = true := by decide

/-- V-UN10: `SBC #$01 ($EB)`. -/
theorem test_sbc_un10 : ends (((testState [0xEB, 0x01] .fatal).setA 0x00).setP 0x25)
    0xFF 0x00 0x00 0xFD 0xA4 0x8002 2 [] = true := by decide

/-- V-UN11: `ANC #$80`. -/
theorem test_anc_un11 : ends ((testState [0x0B, 0x80] .fatal).setA 0xFF)
    0x80 0x00 0x00 0xFD 0xA5 0x8002 2 [] = true := by decide

/-- V-UN12: `ALR #$03`. -/
theorem test_alr_un12 : ends ((testState [0x4B, 0x03] .fatal).setA 0xFF)
    0x01 0x00 0x00 0xFD 0x25 0x8002 2 [] = true := by decide

/-- V-UN13: `ARR #$40`. -/
theorem test_arr_un13 : ends ((testState [0x6B, 0x40] .fatal).setA 0xFF)
    0x20 0x00 0x00 0xFD 0x64 0x8002 2 [] = true := by decide

/-- V-UN16: `SBX #$10`. -/
theorem test_sbx_un16 : ends (((testState [0xCB, 0x10] .fatal).setA 0xFF).setX 0x0F)
    0xFF 0xFF 0x00 0xFD 0xA4 0x8002 2 [] = true := by decide

/-- V-UN17: `LAS $0200,Y`. -/
theorem test_las_un17 : ends (((testState [0xBB, 0x00, 0x02] .fatal).setY 0x01).setRam 0x201 0xF0)
    0xF0 0xF0 0x01 0xF0 0xA4 0x8003 4 [] = true := by decide

/-- V-UN18: `NOP ($1A)`. -/
theorem test_nop_un18 : ends (testState [0x1A] .fatal)
    0x00 0x00 0x00 0xFD 0x24 0x8001 2 [] = true := by decide

/-- V-UN19: `NOP #$55 ($80)`. -/
theorem test_nop_un19 : ends (testState [0x80, 0x55] .fatal)
    0x00 0x00 0x00 0xFD 0x24 0x8002 2 [] = true := by decide

/-- V-UN20: `NOP $10 ($04)`. -/
theorem test_nop_un20 : ends (testState [0x04, 0x10] .fatal)
    0x00 0x00 0x00 0xFD 0x24 0x8002 3 [] = true := by decide

/-- V-UN24: `SHX $0200,Y ($9E), Formula`. -/
theorem test_shx_un24 : ends (((testState [0x9E, 0x00, 0x02] .formula).setX 0xFF).setY 0x01)
    0x00 0xFF 0x01 0xFD 0x24 0x8003 5 [(0x201, 0x03)] = true := by decide

/-- V-UN25: `SHY $02FF,X ($9C), Formula`. -/
theorem test_shy_un25 : ends (((testState [0x9C, 0xFF, 0x02] .formula).setX 0x01).setY 0x05)
    0x00 0x01 0x05 0xFD 0x24 0x8003 5 [(0x100, 0x01), (0x300, 0x00)] = true := by decide

/-- V-UN26: `ANE #$FF ($8B), Formula, ANE_MAGIC=$EE`. -/
theorem test_ane_un26 : ends (((testState [0x8B, 0xFF] .formula).setA 0x11).setX 0x0F)
    0x0F 0x0F 0x00 0xFD 0x24 0x8002 2 [] = true := by decide

/-- V-UN27: `LXA #$F0 ($AB), Formula, LXA_MAGIC=$EE`. -/
theorem test_lxa_un27 : ends ((testState [0xAB, 0xF0] .formula).setA 0x01)
    0xE0 0xE0 0x00 0xFD 0xA4 0x8002 2 [] = true := by decide

/-- V-UN28: `TAS $0200,Y ($9B), Formula`. -/
theorem test_tas_un28 : ends ((((testState [0x9B, 0x00, 0x02] .formula).setA 0xF3).setX 0x3F).setY 0x01)
    0xF3 0x3F 0x01 0x33 0x24 0x8003 5 [(0x201, 0x03)] = true := by decide

/-- V-UN29: `SHA ($10),Y ($93), Formula`. -/
theorem test_sha_un29 : ends (((((testState [0x93, 0x10] .formula).setA 0xFF).setX 0xFF).setY 0x02).setRam 0x011 0x04)
    0xFF 0xFF 0x02 0xFD 0x24 0x8002 6 [(0x402, 0x05)] = true := by decide
/-- TAY (41_load_store_transfer.md R117): A = $90 gives Y = $90, N = 1. -/
theorem test_tay : ends ((testState [0xA8] .fatal).setA 0x90)
    0x90 0x00 0x90 0xFD 0xA4 0x8001 2 [] = true := by decide

/-- TXA (R118): X = $01 gives A = $01, Z = 0, N = 0. -/
theorem test_txa : ends ((testState [0x8A] .fatal).setX 0x01)
    0x01 0x01 0x00 0xFD 0x24 0x8001 2 [] = true := by decide

/-! Faults -/

/-- V-UN22: `JAM ($02)`; PC stands one past the opcode and nothing is ticked. -/
theorem test_jam_un22 : faults (testState [0x02] .fatal) (.unmappedOpcode 0x02 0x8000) 0x8001 0 = true := by decide

/-- V-UN23: `SHX $0200,Y ($9E)`, Fatal. -/
theorem test_shx_un23 : faults (testState [0x9E, 0x00, 0x02] .fatal) (.unmappedOpcode 0x9E 0x8000) 0x8001 0 = true := by
  decide

/-- V-MEM3, its second step: a store to $8000. -/
theorem test_mem3 : faults (testState [0x8D, 0x00, 0x80] .fatal) (.writeProgramMemory 0x8000) 0x8001 0 = true := by
  decide

/-- V-MEM4: a read of slot 0 at $3FF8. -/
theorem test_mem4 : faults (testState [0xAD, 0xF8, 0x3F] .fatal) (.readWriteOnlyPpuRegister 0x3FF8) 0x8001 0 = true := by
  decide

/-- V-MEM5: a write of Status. -/
theorem test_mem5 : faults (testState [0x8D, 0x02, 0x20] .fatal) (.writeReadOnlyPpuRegister 0x2002) 0x8001 0 = true := by
  decide

/-! The PPU, the joypad and the clock -/

/-- V-PPU9: OAM writes at the cursor, $FE, $FF, then $00. -/
theorem test_oam_cursor_wraps :
    let s := (testState [] .fatal).setPpu { (testState [] .fatal).ppu with oamAddr := 0xFF }
    (match busWrite 0x2004 0x22 s with
      | .ok () t => Memory.read t.ppu.oam 255 == 0x22 && t.ppu.oamAddr == 0x00
      | .error _ _ => false) = true := by decide

/-- S5: under Horizontal $2005 and $2405 are both vram[$005]; under Vertical $2005 and $2805 are, and $2405 is
vram[$405]. $3005 mirrors $2005. -/
theorem test_nametables : [ntIndex .horizontal 0x2005, ntIndex .horizontal 0x2405, ntIndex .vertical 0x2805,
    ntIndex .vertical 0x2405, ntIndex .horizontal 0x3005] = [some 5, some 5, some 5, some 0x405, some 5] := by decide

/-- V-PPU7's end: after a Status read the next Address write is the high byte. -/
theorem test_status_resets_latch :
    let s := (testState [] .fatal).setPpu { (testState [] .fatal).ppu with vblank := true, addrLatch := true }
    (match (busRead 0x2002 >>= fun v => busWrite 0x2006 0x23 >>= fun _ => pure v : Act Byte) s with
      | .ok v t => v == 0x80 && !t.ppu.vblank && t.ppu.addr == 0x2300 && t.ppu.addrLatch
      | .error _ _ => false) = true := by decide

/-- S8: OAM DMA from cursor $10 puts source byte 255 at OAM $0F. -/
theorem test_oam_copy_wraps : Memory.read (oamCopy 0x10 ((List.range 256).map (BitVec.ofNat 8)) []) 0x0F = 0xFF := by
  decide +kernel

/-- S7: with the strobe clear the reads walk the buttons and then give 1. -/
theorem test_joypad_walk :
    let s := (testState [] .fatal).setJoy { strobe := false, cursor := 0, buttons := 0x81 }
    (match readRun 0x4016 1 s with
      | .ok bs t => bs == [0x01] && t.joy.cursor == 1
      | .error _ _ => false) = true ∧
    (match joyRead (s.setJoy { strobe := false, cursor := 7, buttons := 0x81 }) with
      | .ok b t => b == 0x01 && t.joy.cursor == 8
      | .error _ _ => false) = true ∧
    (match joyRead (s.setJoy { strobe := false, cursor := 8, buttons := 0x00 }) with
      | .ok b t => b == 0x01 && t.joy.cursor == 8
      | .error _ _ => false) = true := by decide

/-- Vblank entry at the end of line 240 with Control bit 7 set raises the NMI edge (60_exceptions.md R205, R206). -/
theorem test_vblank_entry :
    let s := (testState [] .fatal).setPpu { (testState [] .fatal).ppu with ctrl := 0x80, dot := 340, scanline := 240 }
    ((ppuDot s).ppu.vblank, (ppuDot s).ppu.nmiEdge, (ppuDot s).ppu.dot, (ppuDot s).ppu.scanline) =
      (true, true, 0, 241) := by decide

/-- NMI service pushes PC and P with B clear and U set, sets I and takes 7 cycles before the handler's instruction
(R199); the handler at $9000 is a BRK byte here, so the step ends in its vector with 14 cycles. -/
theorem test_nmi_service :
    ends ((testState [0xEA] .fatal).setPpu { (testState [0xEA] .fatal).ppu with nmiEdge := true })
      0x00 0x00 0x00 0xF7 0x24 0x9000 14 [(0x1FD, 0x80), (0x1FC, 0x00), (0x1FB, 0x24), (0x1FA, 0x90), (0x1F9, 0x02)] =
        true := by decide

/-- From reset, the host's placement of a word runs it as the next instruction. -/
theorem test_withFetchWord : step (State.reset.withFetchWord 16 0x05A9) =
    exec (.lda (.imm 0x05)) ((State.reset.withFetchWord 16 0x05A9).setPc 0x0001) := rfl

/-! ## Witnesses: states and operands that meet the statements' hypotheses

A hypothesis on an operand read is met at a plain byte and, where it matters, at a register whose read has an
effect; each clause has its own witness at a boundary of its range. -/

/-- The vectors' state with a change of the PPU. -/
def withPpu (s : State) (f : Ppu → Ppu) : State := s.setPpu (f s.ppu)

theorem witness_DecodeOfEncode : WellFormed (.sta (.absX 0xFFFF)) ∧ WellFormed (.nopMemory 0xFC (.absX 0x2002)) := by
  decide

theorem witness_EncodeOfDecode : decode [0x9D, 0xFF, 0xFF, 0x00] = .ok (.sta (.absX 0xFFFF), [0x00]) := rfl

theorem witness_StepRunsTheDecodedInstruction :
    let s := (testState [0xAD, 0x34, 0x12] .fatal)
    s.fault = none ∧ s.ppu.nmiEdge = false ∧ decode [0xAD, 0x34, 0x12] = .ok (.lda (.abs 0x1234), []) ∧
      ∀ k < 3, s.peek (s.pc + BitVec.ofNat 16 k) = ([0xAD, 0x34, 0x12] : List Byte)[k]? :=
  ⟨rfl, rfl, rfl, by decide⟩

/-- The opcode byte $01 is joypad 1's pressed A, the operand byte the second joypad's 0: `ORA ($00,X)`, after
which the next button is due. -/
theorem witness_StepRunsTheDecodedInstruction_device :
    let s := ((testState [] .fatal).setJoy { buttons := 0x01, strobe := false, cursor := 0 }).setPc 0x4016
    let u := s.setJoy { buttons := 0x01, strobe := false, cursor := 1 }
    s.fault = none ∧ s.ppu.nmiEdge = false ∧ decode [0x01, 0x00] = .ok (.ora (.indX 0x00), []) ∧
      executable s.launch.unstable 0x01 = true ∧ busRead s.pc s = .ok 0x01 u ∧
      readRun (s.pc + 1) 1 (u.setPc (s.pc + 1)) = .ok [0x00] (u.setPc (s.pc + 1)) :=
  ⟨rfl, rfl, rfl, rfl, rfl, rfl⟩

/-- An opcode read that faults, at Control; and an operand read that does, from the last byte below the window. -/
theorem witness_StepRunsTheDecodedInstruction_faults :
    (let s := (testState [] .fatal).setPc 0x2000
     s.fault = none ∧ s.ppu.nmiEdge = false ∧ busRead s.pc s = .error (.readWriteOnlyPpuRegister 0x2000) s) ∧
    (let s := ((testState [] .fatal).setRam 0x7FF 0xA9).setPc 0x1FFF
     let u := s.setPc 0x2000
     s.fault = none ∧ s.ppu.nmiEdge = false ∧ decode [0xA9, 0x00] = .ok (.lda (.imm 0x00), []) ∧
      executable s.launch.unstable 0xA9 = true ∧ busRead s.pc s = .ok 0xA9 s ∧
      readRun (s.pc + 1) 1 u = .error (.readWriteOnlyPpuRegister 0x2000) u) :=
  ⟨⟨rfl, rfl, rfl⟩, rfl, rfl, rfl, rfl, rfl, rfl⟩

theorem witness_PendingNmiIsServicedBeforeTheFetch :
    let s := withPpu (testState [] .fatal) fun q => { q with nmiEdge := true }
    s.fault = none ∧ s.ppu.nmiEdge = true := ⟨rfl, rfl⟩

theorem witness_FaultedStateHasNoNextStep :
    ((testState [] .fatal).setFault (.writeProgramMemory 0x8000)).fault = some (.writeProgramMemory 0x8000) ∧
      ∃ k t, step (testState [0x02] .fatal) = .fault (.fatal k t) := ⟨rfl, _, _, rfl⟩

theorem witness_UnmappedOpcodeFaults :
    (let s := testState [0xF2] .formula
     s.fault = none ∧ s.ppu.nmiEdge = false ∧ busRead s.pc s = .ok 0xF2 s) ∧
    (let s := testState [0x9F] .fatal
     s.fault = none ∧ s.ppu.nmiEdge = false ∧ busRead s.pc s = .ok 0x9F s ∧ s.launch.unstable = .fatal) ∧
    (Instr.jam 0x02).opcode = some 0x02 ∧ (Instr.ane 0x00).opcode = some 0x8B :=
  ⟨⟨rfl, rfl, rfl⟩, ⟨rfl, rfl, rfl, rfl⟩, rfl, rfl⟩

theorem witness_InitialStateMeetsTheInvariant :
    ({ ram := [(0, 1), (2047, 2)], vram := [(2047, 1)], palette := [(31, 1)], oam := [(255, 1)] } : MemoryInit).ok := by
  unfold MemoryInit.ok
  decide

/-- Also of `StepNeverWritesTheCartridge`, `StepKeepsThePpuInPhase` and `StepCostIsBounded` (first case). -/
theorem witness_StepKeepsTheInvariant :
    let s := testState [0xA9, 0x80] .fatal
    s.Inv ∧ s.InPhase ∧ s.ppu.nmiEdge = false ∧ ∃ t, step s = .next t :=
  ⟨⟨⟨rfl, rfl⟩, ⟨by decide, by decide⟩, Nat.zero_le 8, by unfold State.MemoriesOk; decide, rfl⟩, rfl, rfl, _, rfl⟩

theorem witness_StepNeverWritesTheCartridge_fault : ∃ k t, step (testState [0x02] .fatal) = .fault (.fatal k t) :=
  ⟨_, _, rfl⟩

theorem witness_StepCostIsBounded_nmi :
    let s := withPpu (testState [] .fatal) fun q => { q with nmiEdge := true }
    s.ppu.nmiEdge = true ∧ ∃ t, step s = .next t := ⟨rfl, _, rfl⟩

theorem witness_NmiEdgeNeedsTheEnableBit :
    ∃ t, exec .nop (withPpu (testState [] .fatal) fun q => { q with ctrl := 0x80, dot := 338, scanline := 240 }) =
      .next t ∧ t.ppu.nmiEdge = true := ⟨_, rfl, rfl⟩

theorem witness_FaultSkipsTickAndAdvance :
    (∃ k t, exec (.sta (.abs 0x8000)) (testState [] .fatal) = .fault (.fatal k t)) ∧
    (∃ k t, exec (.sta (.abs 0x4014)) ((testState [] .fatal).setA 0x20) = .fault (.fatal k t)) ∧
    (∃ k t, exec (.asl (.abs 0x8000)) (testState [0x80] .fatal) = .fault (.fatal k t) ∧ t.flag .c = true) ∧
    (∃ k t, exec (.tas 0x8000) (((testState [] .formula).setA 0x0F).setX 0x05) = .fault (.fatal k t) ∧ t.sp = 0x05) ∧
    (∀ base, Instr.sta (.abs 0x8000) ≠ .tas base) ∧
    ∀ (k : Shift) (o : Operand), Instr.sta (.abs 0x8000) ≠ k.instr o ∧ Instr.sta (.abs 0x8000) ≠ k.composition o :=
  ⟨⟨_, _, rfl⟩, ⟨_, _, rfl⟩, ⟨_, _, rfl, rfl⟩, ⟨_, _, rfl, rfl⟩, fun _ => nofun,
    fun k _ => by cases k <;> exact ⟨nofun, nofun⟩⟩

/-- Each kind of fault is raised by some step. -/
theorem witness_EveryFaultHasItsCause :
    (∃ t, step (testState [0xAD, 0x00, 0x20] .fatal) = .fault (.fatal (.readWriteOnlyPpuRegister 0x2000) t)) ∧
    (∃ t, step (testState [0x8D, 0xFA, 0x3F] .fatal) = .fault (.fatal (.writeReadOnlyPpuRegister 0x3FFA) t)) ∧
    (∃ t, step (testState [0x8D, 0xFF, 0xFF] .fatal) = .fault (.fatal (.writeProgramMemory 0xFFFF) t)) ∧
    (∃ t, step (withPpu (testState [0x8D, 0x07, 0x20] .fatal) fun q => { q with addr := 0x1FFF }) =
      .fault (.fatal (.chrWrite 0x1FFF) t)) ∧
    (∃ t, step
        { (withPpu (testState [0xAD, 0x07, 0x20] .fatal) fun q => { q with addr := 0x3EFF }) with
          launch := { (testState [0xAD, 0x07, 0x20] .fatal).launch with mirroring := .fourScreen } } =
      .fault (.fatal (.fourScreenMirroring 0x3EFF) t)) ∧
    (∃ t, step (testState [0x02] .fatal) = .fault (.fatal (.unmappedOpcode 0x02 0x8000) t)) :=
  ⟨⟨_, rfl⟩, ⟨_, rfl⟩, ⟨_, rfl⟩, ⟨_, rfl⟩, ⟨_, rfl⟩, ⟨_, rfl⟩⟩

theorem witness_RamIsMirroredFourTimes : (0x1FFF : Addr).toNat < 0x2000 ∧ (0x07FF : Addr).toNat < 0x2000 ∧
    (0x07FF : Addr).toNat % 2048 = (0x1FFF : Addr).toNat % 2048 := by decide

theorem witness_StubsAndProgramMemory :
    (0x4000 ≤ (0x7FFF : Addr).toNat ∧ (0x7FFF : Addr).toNat < 0x8000 ∧ (0x7FFF : Addr).toNat ≠ 0x4016 ∧
      (0x7FFF : Addr).toNat ≠ 0x4014) ∧
    (0x4000 ≤ (0x4014 : Addr).toNat ∧ (0x4014 : Addr).toNat < 0x8000 ∧ (0x4014 : Addr).toNat ≠ 0x4016) ∧
    0x8000 ≤ (0x8000 : Addr).toNat ∧ 0x8000 ≤ (0xFFFF : Addr).toNat ∧
    (testState [] .fatal).launch.prgSize = .kib32 ∧ (testState [] .fatal).launch.mode = .strict ∧
    { Launch.default with prgSize := .kib16, mode := .permissive }.prgSize = PrgSize.kib16 ∧
    { Launch.default with prgSize := .kib16, mode := .permissive }.mode = FaultMode.permissive := by
  refine ⟨?_, ?_, ?_, ?_, rfl, rfl, rfl, rfl⟩ <;> decide

/-- Every slot of the window at its first and its last mirror: for the statements about the PPU registers. -/
theorem witness_ppu_registers :
    ∀ p ∈ [((0x2000 : Addr), 0), (0x2001, 1), (0x2002, 2), (0x2003, 3), (0x2004, 4), (0x2005, 5), (0x2006, 6),
        (0x2007, 7), (0x3FF8, 0), (0x3FF9, 1), (0x3FFA, 2), (0x3FFB, 3), (0x3FFC, 4), (0x3FFD, 5), (0x3FFE, 6),
        (0x3FFF, 7)],
      0x2000 ≤ p.1.toNat ∧ p.1.toNat < 0x4000 ∧ p.1.toNat % 8 = p.2 := by decide

/-- The three ranges of the Address pointer at their ends: for the two statements about Data. -/
theorem witness_data_pointer :
    (0x0000 : VAddr).toNat < 0x2000 ∧ (0x1FFF : VAddr).toNat < 0x2000 ∧
    (0x2000 ≤ (0x2000 : VAddr).toNat ∧ (0x2000 : VAddr).toNat < 0x3F00) ∧
    (0x2000 ≤ (0x3EFF : VAddr).toNat ∧ (0x3EFF : VAddr).toNat < 0x3F00) ∧
    0x3F00 ≤ (0x3F00 : VAddr).toNat ∧ 0x3F00 ≤ (0x3FFF : VAddr).toNat := by decide

theorem witness_NametableAndPaletteMirroring :
    ntIndex .horizontal 0x3EFF = some 0x6FF ∧ ntIndex .vertical 0x3EFF = some 0x6FF ∧ palIndex 0x3F10 = 0 ∧
      palIndex 0x3FFF = 31 := by decide

/-- Whether an action answers. -/
def answers {α : Type} : EStateM.Result FaultKind State α → Bool
  | .ok _ _ => true
  | .error _ _ => false

theorem ok_of_answers {α : Type} {r : EStateM.Result FaultKind State α} (h : answers r = true) :
    ∃ a t, r = .ok a t := by
  cases r with
  | ok a t => exact ⟨a, t, rfl⟩
  | error k t => cases h

theorem witness_OamDmaCopiesAPage :
    (∃ bytes mid, readRun (w16 0x07 0) 256 (testState [] .fatal) = .ok bytes mid) ∧
    (∃ k mid, readRun (w16 0x20 0) 256 (testState [] .fatal) = .error k mid) ∧
    ∀ k : Byte, (testState [] .fatal).peek (w16 0x07 k) = some 0x00 :=
  ⟨ok_of_answers (by decide +kernel), ⟨_, _, rfl⟩, by decide +kernel⟩

theorem witness_JoypadShiftRegister :
    8 ≤ ((testState [] .fatal).setJoy { strobe := true, cursor := 8, buttons := 0 }).joy.cursor ∧
      ((testState [] .fatal).setJoy { strobe := false, cursor := 7, buttons := 0 }).joy.cursor < 8 := by decide

theorem witness_TickAdvancesThePpuClock :
    (withPpu (testState [] .fatal) fun q => { q with dot := 340, scanline := 240 }).ClockOk ∧
    (withPpu (testState [] .fatal) fun q => { q with dot := 340, scanline := 261 }).ClockOk ∧
    (withPpu (testState [] .fatal) fun q => { q with dot := 339, scanline := 240 }).ClockOk := by
  unfold State.ClockOk
  decide

theorem witness_FirstVblankEntry : 29780 < 29781 ∧ 27393 < 27394 := by decide

theorem witness_EffectiveAddresses :
    let s := (testState [] .fatal).setRam 0x100 0x12
    (0x0100 : Addr).toNat = (0x01FF : Addr).toNat / 256 * 256 + ((0x01FF : Addr).toNat + 1) % 256 ∧
      busRead 0x01FF s = .ok 0x00 s ∧ busRead 0x0100 s = .ok 0x12 s := ⟨by decide, rfl, rfl⟩

/-- The first pointer read faults at Mask, the second at OAM Address after a Status read. -/
theorem witness_EffectiveAddresses_faults :
    let s := testState [] .fatal
    busRead 0x2001 s = .error (.readWriteOnlyPpuRegister 0x2001) s ∧
    (0x2003 : Addr).toNat = (0x2002 : Addr).toNat / 256 * 256 + ((0x2002 : Addr).toNat + 1) % 256 ∧
      ∃ s1, busRead 0x2002 s = .ok 0x00 s1 ∧ busRead 0x2003 s1 = .error (.readWriteOnlyPpuRegister 0x2003) s1 :=
  ⟨rfl, by decide, _, rfl, rfl⟩

theorem witness_PlainOperandsAreReadable :
    let s := (testState [] .fatal).setX 0x01
    (Operand.absX 0xFFFF).mode ≠ .accumulator ∧ (Operand.absX 0xFFFF).mode ≠ .immediate ∧
      effAddr (.absX 0xFFFF) s = .ok 0x0000 s ∧ s.peek 0x0000 = some 0x00 := ⟨by decide, by decide, rfl, by decide⟩

/-- A device operand: Data, whose read moves the pointer. -/
theorem witness_PlainOperandsAreReadable_device :
    let s := testState [] .fatal
    (Operand.abs 0x2007).mode ≠ .accumulator ∧ (Operand.abs 0x2007).mode ≠ .immediate ∧
      effAddr (.abs 0x2007) s = .ok 0x2007 s ∧ ∃ t, busRead 0x2007 s = .ok 0x00 t ∧ t.ppu.addr = 0x0001 :=
  ⟨by decide, by decide, rfl, _, rfl, rfl⟩

/-- A plain operand, and one whose read has an effect: the Status register. For every statement that assumes
`readOperand o s = .ok m mid`, each instruction with a form that has such a read. -/
theorem witness_readOperand :
    readOperand (.zp 0x10) ((testState [] .fatal).setRam 0x10 0x80) =
      .ok 0x80 ((testState [] .fatal).setRam 0x10 0x80) ∧
    (∃ mid, readOperand (.abs 0x2002) (withPpu (testState [] .fatal) fun q => { q with vblank := true }) =
      .ok 0x80 mid ∧ mid.ppu.vblank = false) ∧
    (∃ mid, readOperand (.absY 0x0200) (testState [] .fatal) = .ok 0x00 mid) ∧
    (∀ i ∈ [Instr.lda (.abs 0x2002), .ldx (.abs 0x2002), .ldy (.abs 0x2002), .lax (.abs 0x2002), .and (.abs 0x2002),
      .ora (.abs 0x2002), .eor (.abs 0x2002), .bit (.abs 0x2002), .adc (.abs 0x2002), .sbc (.abs 0x2002),
      .cmp (.abs 0x2002), .cpx (.abs 0x2002), .cpy (.abs 0x2002), .nopMemory 0x0C (.abs 0x2002)], WellFormed i) :=
  ⟨rfl, ⟨_, rfl, rfl⟩, ⟨_, rfl⟩, by decide⟩

theorem witness_StoresComplete :
    effAddr (.abs 0x1FFF) (testState [] .fatal) = .ok 0x1FFF (testState [] .fatal) ∧
    (∀ v : Byte, ∃ u, busWrite 0x1FFF v (testState [] .fatal) = .ok () u) ∧
    ∀ i ∈ [Instr.sta (.abs 0x1FFF), .stx (.abs 0x1FFF), .sty (.abs 0x1FFF), .sax (.abs 0x1FFF)], WellFormed i :=
  ⟨rfl, fun _ => ⟨_, rfl⟩, by decide⟩

/-- For the read-modify-write statements: an address whose byte can be read and written. -/
theorem witness_modify :
    effAddr (.abs 0x1FFF) (testState [] .fatal) = .ok 0x1FFF (testState [] .fatal) ∧
    busRead 0x1FFF (testState [] .fatal) = .ok 0x00 (testState [] .fatal) ∧
    (∀ v : Byte, ∃ u, busWrite 0x1FFF v (testState [] .fatal) = .ok () u) ∧
    (∀ (k : Shift) (v : Byte), ∃ u,
      busWrite 0x1FFF v ((testState [] .fatal).setFlag .c (k.carryOut 0x00)) = .ok () u) ∧
    (∀ k : Shift, WellFormed (k.instr (.abs 0x1FFF))) ∧ (Operand.abs 0x1FFF) ≠ .acc ∧
    ∀ i ∈ [Instr.inc (.abs 0x1FFF), .dec (.abs 0x1FFF), .dcp (.abs 0x1FFF), .isb (.abs 0x1FFF), .slo (.abs 0x1FFF),
      .rla (.abs 0x1FFF), .sre (.abs 0x1FFF), .rra (.abs 0x1FFF)], WellFormed i :=
  ⟨rfl, rfl, fun _ => ⟨_, rfl⟩, fun _ _ => ⟨_, rfl⟩, fun k => by cases k <;> decide, by decide, by decide⟩

theorem witness_FlagInstructionsAndNopsComplete : WellFormed (.nopImplied 0xFA) ∧
    WellFormed (.nopImmediate 0x80 0x55) ∧ WellFormed (.nopMemory 0x04 (.zp 0x10)) ∧
    ∃ m mid, readOperand (.zp 0x10) (testState [] .fatal) = .ok m mid := ⟨by decide, by decide, by decide, _, _, rfl⟩

theorem witness_JumpsAndSubroutinesComplete : WellFormed (.jmp (.ind 0x02FF)) ∧ WellFormed (.jmp (.abs 0xFFFF)) ∧
    (∃ ea mid, effAddr (.ind 0x02FF) (testState [] .fatal) = .ok ea mid) ∧
    ∃ ea mid, effAddr (.abs 0xFFFF) (testState [] .fatal) = .ok ea mid :=
  ⟨by decide, by decide, ⟨_, _, rfl⟩, ⟨_, _, rfl⟩⟩

theorem witness_ReturnUndoesInterrupt :
    let s := withPpu (testState [] .fatal) fun q => { q with nmiEdge := true }
    s.StatusOk ∧ s.ppu.nmiEdge = true ∧ ∃ t, pollNmi s = .ok () t := ⟨⟨rfl, rfl⟩, rfl, _, rfl⟩

/-- Both cases of a branch. -/
theorem witness_BranchesComplete : (testState [] .fatal).flag .n = false ∧
    ((testState [] .fatal).setP 0xA4).flag .n = true := by decide

theorem witness_AndCompositionsComplete : WellFormed (.anc 0x0B 0x80) ∧ WellFormed (.anc 0x2B 0x80) ∧
    ∃ m mid, readOperand (.absY 0x0200) (testState [] .fatal) = .ok m mid := ⟨by decide, by decide, _, _, rfl⟩

theorem witness_MagicConstantInstructionsComplete : (testState [] .formula).launch.unstable = .formula := rfl

/-- Each clause, with the index on the page of the base, and across it for SHY; the fault of TAS at $8000. -/
theorem witness_HighByteAndStoresComplete :
    let s := ((testState [] .formula).setX 0x01).setY 0x05
    s.launch.unstable = .formula ∧ WellFormed (.sha (.absY 0x0200)) ∧ WellFormed (.sha (.indY 0x10)) ∧
    (∃ base, zeroPagePointer 0x10 s = .ok base s) ∧
    (∃ u, busWrite (highAndAddr (s.a &&& s.x) 0x0200 s.y) (highAndValue (s.a &&& s.x) 0x0200) s = .ok () u) ∧
    (∃ u, busWrite (highAndAddr s.x 0x0200 s.y) (highAndValue s.x 0x0200) s = .ok () u) ∧
    (∃ u, busWrite (highAndAddr s.y 0x02FF s.x) (highAndValue s.y 0x02FF) s = .ok () u) ∧
    (∃ u, busWrite (highAndAddr (s.a &&& s.x) 0x0200 s.y) (highAndValue (s.a &&& s.x) 0x0200)
      (s.setSp (s.a &&& s.x)) = .ok () u) ∧
    (∃ k u, busWrite (highAndAddr (s.a &&& s.x) 0x8000 s.y) (highAndValue (s.a &&& s.x) 0x8000) s = .error k u) ∧
    (∃ k u, busWrite (highAndAddr s.x 0x8000 s.y) (highAndValue s.x 0x8000) s = .error k u) ∧
    (∃ k u, busWrite (highAndAddr s.y 0x8000 s.x) (highAndValue s.y 0x8000) s = .error k u) ∧
    ∃ k u, busWrite (highAndAddr (s.a &&& s.x) 0x8000 s.y) (highAndValue (s.a &&& s.x) 0x8000)
      (s.setSp (s.a &&& s.x)) = .error k u :=
  ⟨rfl, by decide, by decide, ⟨_, rfl⟩, ⟨_, rfl⟩, ⟨_, rfl⟩, ⟨_, rfl⟩, ⟨_, rfl⟩, ⟨_, _, rfl⟩, ⟨_, _, rfl⟩, ⟨_, _, rfl⟩,
    ⟨_, _, rfl⟩⟩

/-- A faulting access of each kind: an operand read, the pointer read of JMP, a store to PRG, the read and the store
of a read-modify-write, the store of a shift. -/
theorem witness_AccessFaultsAreAnswered :
    let s := testState [0x80] .fatal
    (∃ k u, readOperand (.abs 0x2000) s = .error k u) ∧ (∃ k u, effAddr (.ind 0x2000) s = .error k u) ∧
    effAddr (.abs 0x8000) s = .ok 0x8000 s ∧ (∀ v : Byte, ∃ k u, busWrite 0x8000 v s = .error k u) ∧
    effAddr (.abs 0x2006) s = .ok 0x2006 s ∧ (∃ k u, busRead 0x2006 s = .error k u) ∧
    busRead 0x8000 s = .ok 0x80 s ∧ (∀ v b, ∃ k u, busWrite 0x8000 v (s.setFlag .c b) = .error k u) ∧
    WellFormed (.jmp (.ind 0x2000)) ∧
    (∀ i ∈ [Instr.lda (.abs 0x2000), .las 0x2000, .nopMemory 0x0C (.abs 0x2000)], WellFormed i ∧
      i.operandRead.isSome) ∧
    (∀ i ∈ [Instr.sta (.abs 0x8000), .stx (.abs 0x8000), .sty (.abs 0x8000), .sax (.abs 0x8000), .inc (.abs 0x8000),
      .isb (.abs 0x8000), .dec (.abs 0x8000), .dcp (.abs 0x8000)], WellFormed i) ∧
    (Instr.inc (.abs 0x2006)).store = .modify (.abs 0x2006) ∧
    ∀ k : Shift, WellFormed (k.instr (.abs 0x8000)) ∧ WellFormed (k.composition (.abs 0x8000)) :=
  ⟨⟨_, _, rfl⟩, ⟨_, _, rfl⟩, rfl, fun _ => ⟨_, _, rfl⟩, rfl, ⟨_, _, rfl⟩, rfl, fun _ _ => ⟨_, _, rfl⟩, by decide,
    by decide, by decide, by decide, fun k => by cases k <;> decide⟩

/-- For the frames: a step of each shape goes on. -/
theorem witness_frames :
    (Instr.lda (.abs 0x2007)).store = .none ∧ (Instr.lda (.abs 0x2007)).pushCount = 0 ∧
    (Instr.lda (.abs 0x2007)).isUnstableStore = false ∧
    (∃ t, exec (.lda (.abs 0x2007)) (testState [] .fatal) = .next t) ∧
    (Instr.brk).pushCount ≠ 0 ∧ (∃ t, exec .brk ((testState [] .fatal).setSp 0x01) = .next t) ∧
    (Instr.sta (.abs 0x0800)).store = .write (.abs 0x0800) ∧
    effAddr (.abs 0x0800) (testState [] .fatal) = .ok 0x0800 (testState [] .fatal) ∧
    (∃ t, exec (.sta (.abs 0x0800)) (testState [] .fatal) = .next t) ∧
    (Instr.inc (.abs 0x2007)).store = .modify (.abs 0x2007) ∧
    (∃ t, exec (.inc (.abs 0x2007)) (withPpu (testState [] .fatal) fun q => { q with addr := 0x3FFF, ctrl := 0x04 }) =
      .fault t) ∧
    (∃ t, exec (.inc (.abs 0x2007)) (withPpu (testState [] .fatal) fun q => { q with addr := 0x3EFF }) = .next t) ∧
    (∃ t, exec (.shy 0x02FF) (((testState [] .formula).setX 0x01).setY 0x05) = .next t) ∧
    ∃ t, exec (.sha (.indY 0x10)) (testState [] .formula) = .next t :=
  ⟨rfl, rfl, rfl, ⟨_, rfl⟩, by decide, ⟨_, rfl⟩, rfl, rfl, ⟨_, rfl⟩, rfl, ⟨_, rfl⟩, ⟨_, rfl⟩, ⟨_, rfl⟩, ⟨_, rfl⟩⟩

end Sys2Proof.Tests
end

/-! Proofs of the statements about the state: what every step keeps, the stack, the frames of `exec`, a recorded
fault and the reset values (10_state.md). -/

namespace Sys2Proof.Machine

/-! ## The answers of `exec` and `step`, one kind at a time -/

/-- An instruction that goes on has run its rule's action, then the tick and the PC advance (60_exceptions.md R196). -/
theorem exec_next {i : Instr} {s t : State} (h : exec i s = .next t) :
    ∃ f u, BodyEffect i s u ∧ t = advance f i.length (tick (i.cycles + f.extra) u) := by
  rcases exec_cases i s with ⟨-, e⟩ | ⟨f, u, -, hu, -, -, e⟩ | ⟨k, u, -, -, -, -, e⟩
  · rw [e] at h; cases h
  · rw [e] at h; cases h; exact ⟨f, u, hu, rfl⟩
  · rw [e] at h; cases h

/-- A fatal fault of an instruction is recorded in the state its rule's action left (R192). -/
theorem exec_fatal {i : Instr} {s t : State} {k : FaultKind} (h : exec i s = .fault (.fatal k t)) :
    ∃ u, BodyEffect i s u ∧ t = u.setFault k := by
  rcases exec_cases i s with ⟨-, e⟩ | ⟨f, u, -, -, -, -, e⟩ | ⟨k', u, -, hu, -, -, e⟩
  · rw [e] at h; cases h
  · rw [e] at h; cases h
  · rw [e] at h; cases h; exact ⟨u, hu, rfl⟩

theorem launch_composes : Composes fun s t : State => t.launch = s.launch where
  refl _ := rfl
  trans _ _ _ h g := g.trans h

/-- A fetch keeps the launch record, whether it answers or faults. -/
theorem fetch_keeps_launch : Keeps (fun s t : State => t.launch = s.launch) fetch := by
  have hR := launch_composes
  have hread : ∀ addr, Keeps (fun s t : State => t.launch = s.launch) (busRead addr) :=
    fun addr => (busRead_keeps addr).mono fun _ _ h => h.launch
  refine hR.bind (hR.getS _) fun opaddr => hR.bind (hread _) fun op => hR.bind (keeps_setS fun _ => rfl) fun _ =>
    hR.bind (requireExecutable_keeps hR op) fun _ => ?_
  split
  · exact hR.pure _
  · exact hR.bind (hread _) fun _ => hR.pure _
  · exact hR.bind ((read16_keeps _).mono fun _ _ h => h.launch) fun _ => hR.pure _

/-- A fatal fault of a step, of its fetch or of its instruction, is recorded in a state whose launch record is still
the step's (R192). -/
theorem step_fatal {s t : State} {k : FaultKind} (h : step s = .fault (.fatal k t)) :
    ∃ u : State, u.launch = s.launch ∧ t = u.setFault k := by
  rcases step_cases s with ⟨k', -, e⟩ | ⟨-, s0, h0, ⟨i, u, hf, e⟩ | ⟨k', u, hf, e⟩⟩
  · rw [e] at h; cases h
  · rw [e] at h
    obtain ⟨v, hv, rfl⟩ := exec_fatal h
    have hu : u.launch = s0.launch := fetch_keeps_launch.ok hf
    exact ⟨v, hv.launch.trans (hu.trans (pollNmi_step h0).launch), rfl⟩
  · rw [e] at h
    cases h
    have hu : u.launch = s0.launch := fetch_keeps_launch.error hf
    exact ⟨u, hu.trans (pollNmi_step h0).launch, rfl⟩

theorem step_of_faulted {s : State} {k : FaultKind} (h : s.fault = some k) : step s = .fault (.halted k) := by
  unfold step
  rw [h]

/-! ## What every step keeps -/

theorem StepEffect.inv {n : Nat} {s t : State} (h : StepEffect n s t) (hs : s.Inv) : t.Inv where
  status := h.status hs.status
  clock := (h.clock hs.clock).1
  cursor := h.cursor hs.cursor
  memories := h.memories hs.memories
  noFault := h.fault.trans hs.noFault

/-- Settles O12: the poll, the fetch, the rule's action, the tick and the advance each keep every clause. -/
theorem stepKeepsTheInvariant : Obligations.StepKeepsTheInvariant := by
  intro s t hs h
  obtain ⟨n, -, -, hst⟩ := step_next h
  exact hst.inv hs

/-- Settles O13, for a completed step and for a faulting one. -/
theorem stepNeverWritesTheCartridge : Obligations.StepNeverWritesTheCartridge := by
  rintro s t (h | ⟨k, h⟩)
  · obtain ⟨n, -, -, hst⟩ := step_next h
    exact hst.launch
  · obtain ⟨u, hu, rfl⟩ := step_fatal h
    exact hu

/-- Settles O7: `step` looks at the recorded fault first, and a fatal fault is recorded. -/
theorem faultedStateHasNoNextStep : Obligations.FaultedStateHasNoNextStep := by
  refine ⟨fun s k h => step_of_faulted h, fun s t k h => ?_⟩
  obtain ⟨u, -, rfl⟩ := step_fatal h
  exact ⟨rfl, step_of_faulted rfl⟩

/-! ## Reset -/

/-- Settles O10: the reset vector lies in PRG, so the bus reads there the two bytes `reset()` takes (R58, R215). -/
theorem resetValues : Obligations.ResetValues := by
  refine ⟨fun l m => ?_, fun s => rfl⟩
  have hpc : read16 0xFFFC (State.initial l m) = .ok (State.initial l m).pc (State.initial l m) :=
    read16_prg (by decide) (by decide) _
  exact ⟨⟨rfl, rfl, rfl, rfl, rfl⟩, hpc, ⟨rfl, rfl, rfl, rfl, rfl, rfl, rfl⟩, ⟨rfl, rfl, rfl, rfl⟩, ⟨rfl, rfl, rfl⟩,
    ⟨rfl, rfl, rfl⟩, rfl, ⟨rfl, rfl, rfl, rfl⟩, rfl⟩

/-! ## The stack -/

/-- The byte a push has stored is the one the next pop reads. -/
theorem withPushed_stackByte (s : State) (v : Byte) : (s.withPushed [v]).stackByte 1 = v := by
  show Memory.read (Memory.write s.ram (0x100 + s.sp.toNat) v) (0x100 + (s.sp - 1 + 1).toNat) = v
  rw [sub_add_cancel, Memory.read_write_self]

/-- Settles O45: `push_eq` and `pop_eq` give both operations as changes of S and one RAM byte. -/
theorem pushThenPopReturnsTheByte : Obligations.PushThenPopReturnsTheByte := by
  intro s v
  have hsp : (s.withPushed [v]).sp + 1 = s.sp := sub_add_cancel s.sp 1
  refine ⟨_, push_eq v s, rfl, fun k => Memory.read_write _ _ k v, ?_, ?_⟩
  · rw [pop_eq, withPushed_stackByte, hsp]
    rfl
  · rw [pop_eq, State.stackByte, BitVec.toNat_add]
    rfl

/-! ## Frames of `exec` -/

theorem State.reg_of_cpu {s t : State} (h : t.cpu = s.cpu) (r : Reg) : t.reg r = s.reg r := by
  cases r
  · exact congrArg Cpu.a h
  · exact congrArg Cpu.x h
  · exact congrArg Cpu.y h
  · exact congrArg Cpu.sp h

/-- The tick and the PC advance leave P and the CPU registers other than PC. -/
theorem advance_tick_cpu (f : Flow) (len n : Nat) (u : State) :
    (advance f len (tick n u)).cpu = u.cpu ∧ (advance f len (tick n u)).p = u.p := by
  unfold advance
  split
  · exact ⟨tick_cpu n u, (tick_time n u).p⟩
  · exact ⟨tick_cpu n u, (tick_time n u).p⟩

/-- Settles O55: the rule's action keeps what its lists do not name, and the tick and the advance write neither. -/
theorem registersAndFlagsFrame : Obligations.RegistersAndFlagsFrame := by
  intro i s t h
  obtain ⟨f, u, hu, rfl⟩ := exec_next h
  obtain ⟨hcpu, hp⟩ := advance_tick_cpu f i.length (i.cycles + f.extra) u
  have hdev := advance_tick_devices f i.length (i.cycles + f.extra) u
  refine ⟨fun r hr => ?_, fun g hg => ?_, ?_, ?_⟩
  · exact (State.reg_of_cpu hcpu r).trans (hu.regs r hr)
  · exact (congrArg (BitVec.getLsbD · g.bit) hp).trans (hu.flags g hg)
  · exact (congrArg Devices.launch hdev).trans hu.launch
  · exact (congrArg Devices.fault hdev).trans hu.fault

/-- An instruction that goes on leaves the devices `d` its rule's action left. -/
theorem devices_of_next {i : Instr} {x : Act Flow} {s t u : State} {g : Flow} {d : Devices}
    (he : exec i s = perform i x s) (hx : x s = .ok g u) (hd : u.devices = d) (h : exec i s = .next t) :
    t.devices = d := by
  obtain ⟨op, f, v, -, hv, rfl⟩ := body_of_next he h
  have hv : EStateM.Result.ok g u = .ok f v := hx.symm.trans hv
  cases hv
  exact (advance_tick_devices _ _ _ _).trans hd

theorem withPushed_devices (s : State) (bs : List Byte) :
    (s.withPushed bs).devices = { s.devices with ram := (s.withPushed bs).ram } := by
  simp [State.devices]

/-- A pushing instruction leaves the devices as its pushes left them, `pushCount` of them (R122, R123, R146, R149). -/
theorem exec_pushes {i : Instr} {s t : State} (hpush : i.pushCount ≠ 0) (h : exec i s = .next t) :
    ∃ bs : List Byte, bs.length = i.pushCount ∧ t.devices = (s.withPushed bs).devices := by
  cases i
  case pha =>
    have hx := bind_of_ok (f := fun _ => pure Flow.next) (push_eq s.a s)
    exact ⟨[s.a], rfl, devices_of_next rfl hx rfl h⟩
  case php =>
    have hx := bind_of_ok (f := fun _ => pure Flow.next) (push_eq (s.p ||| 0x30) s)
    exact ⟨[s.p ||| 0x30], rfl, devices_of_next rfl hx rfl h⟩
  case jsr target =>
    have hx := bind_of_ok (f := fun _ => jump target 0) (push16_eq (s.pc + 1) s)
    exact ⟨[hi (s.pc + 1), lo (s.pc + 1)], rfl, devices_of_next rfl hx rfl h⟩
  case brk =>
    have hentry := enterInterrupt_eq (s.pc + 1) (s.p ||| 0x30) 0 (vec := brkVector) (by decide) (by decide) s
    have hx := bind_of_ok (f := fun _ => pure (Flow.jump 0)) hentry
    exact ⟨[hi (s.pc + 1), lo (s.pc + 1), s.p ||| 0x30], rfl, devices_of_next rfl hx rfl h⟩
  all_goals exact absurd rfl hpush

/-- S less a small number, in the wrapping arithmetic of the stack page (R17). -/
theorem sub_ofNat_toNat (x : Byte) {j : Nat} (hj : j < 256) :
    (x - BitVec.ofNat 8 j).toNat = (x.toNat + 256 - j) % 256 := by
  rw [BitVec.toNat_sub, BitVec.toNat_ofNat]
  omega

theorem pushCount_le (i : Instr) : i.pushCount ≤ 3 := by
  cases i <;> exact Nat.le_of_ble_eq_true rfl

/-- Settles O57, from the pushes' own frame `withPushed_read`. -/
theorem pushingFrame : Obligations.PushingFrame := by
  intro i s t hi h
  obtain ⟨bs, hlen, hdev⟩ := exec_pushes hi h
  have hram : t.ram = (s.withPushed bs).ram := congrArg Devices.ram hdev
  refine ⟨fun k hk => ?_, ?_⟩
  · rw [hram]
    refine withPushed_read s bs k fun j hj => ?_
    have hj3 := pushCount_le i
    rw [sub_ofNat_toNat s.sp (by omega)]
    exact hk j (hlen ▸ hj)
  · rw [hdev, hram]
    exact withPushed_devices s bs

end Sys2Proof.Machine

/-! Proofs of the statements about the memories: work RAM, the stubs and PRG, the PPU registers, OAM DMA, the joypad
and where a storing instruction stores (20_memory.md). -/

namespace Sys2Proof.Machine

/-! ## Work RAM, the stubs and program memory -/

/-- Settles O19, from the two accesses of RAM and reading after writing. -/
theorem ramIsMirroredFourTimes : Obligations.RamIsMirroredFourTimes := by
  intro s a b v ha hb
  refine ⟨busRead_ram hb s, _, busWrite_ram ha v s, ?_, rfl, rfl, rfl, rfl⟩
  rw [busRead_ram hb, State.setRam_ram, Memory.read_write]

/-- $4000-$7FFF holds no device but OAM DMA and the joypad (20_memory.md R53 to R56). -/
theorem region_eq_stub {a : Addr} (h1 : 0x4000 ≤ a.toNat) (h2 : a.toNat < 0x8000) (hdma : a.toNat ≠ 0x4014)
    (hjoy : a.toNat ≠ 0x4016) : region a ∈ [Region.apuStub, .joypad2, .other] := by
  rw [region_toNat]
  split_ifs <;> first | omega | simp

theorem busWrite_stub {a : Addr} (h : region a ∈ [Region.apuStub, .joypad2, .other]) (v : Byte) (s : State) :
    busWrite a v s = .ok () s := by
  unfold busWrite
  simp only [List.mem_cons, List.not_mem_nil, or_false] at h
  rcases h with h | h | h <;> rw [h] <;> rfl

theorem peek_stub {a : Addr} (h : region a ∈ [Region.apuStub, .joypad2, .other]) (s : State) :
    s.peek a = some 0x00 := by
  unfold State.peek
  simp only [List.mem_cons, List.not_mem_nil, or_false] at h
  rcases h with h | h | h <;> rw [h]

theorem peek_oamDma {a : Addr} (h : a.toNat = 0x4014) (s : State) : s.peek a = some 0x00 := by
  unfold State.peek
  rw [region_toNat, h]
  rfl

theorem toNat_sub_prgBase {a : Addr} (h : 0x8000 ≤ a.toNat) : (a - 0x8000).toNat = a.toNat - 0x8000 :=
  BitVec.toNat_sub_of_le (BitVec.le_def.mpr h)

/-- The index of a program address in a 32 KiB image (20_memory.md R57). -/
theorem prgIndex_kib32 {a : Addr} (h : 0x8000 ≤ a.toNat) : prgIndex .kib32 a = a.toNat - 0x8000 :=
  toNat_sub_prgBase h

/-- The index of a program address in a 16 KiB image, which is seen twice (20_memory.md R57). -/
theorem prgIndex_kib16 {a : Addr} (h : 0x8000 ≤ a.toNat) : prgIndex .kib16 a = (a.toNat - 0x8000) % 0x4000 := by
  rw [prgIndex, BitVec.toNat_and, toNat_sub_prgBase h]
  exact Nat.and_two_pow_sub_one_eq_mod _ 14

theorem busWrite_prg {a : Addr} (h : 0x8000 ≤ a.toNat) (v : Byte) :
    busWrite a v = accessFault (.writeProgramMemory a) () := by
  unfold busWrite
  rw [region_eq_prg.mpr h]

theorem accessFault_strict {α : Type} {s : State} (h : s.launch.mode = .strict) (k : FaultKind) (d : α) :
    accessFault k d s = .error k s := by
  unfold accessFault
  rw [h]

theorem accessFault_permissive {α : Type} {s : State} (h : s.launch.mode = .permissive) (k : FaultKind) (d : α) :
    accessFault k d s = .ok d s := by
  unfold accessFault
  rw [h]

/-- Settles O20: the rows of the address map without a device, and the one of PRG with its index. -/
theorem stubsAndProgramMemory : Obligations.StubsAndProgramMemory := by
  refine ⟨fun s a v h1 h2 hjoy => ⟨busRead_of_peek ?_, fun hdma => ?_⟩, fun s a v h => ⟨?_, ?_, ?_, ?_⟩⟩
  · by_cases hdma : a.toNat = 0x4014
    · exact peek_oamDma hdma s
    · exact peek_stub (region_eq_stub h1 h2 hdma hjoy) s
  · exact busWrite_stub (region_eq_stub h1 h2 hdma hjoy) v s
  · intro hs
    rw [busRead_prg h, Launch.prgByte, hs, prgIndex_kib32 h]
  · intro hs
    rw [busRead_prg h, Launch.prgByte, hs, prgIndex_kib16 h]
  · intro hm
    rw [busWrite_prg h, accessFault_strict hm]
  · intro hm
    rw [busWrite_prg h, accessFault_permissive hm]

/-! ## The PPU register slots -/

section
variable {a : Addr} (h1 : 0x2000 ≤ a.toNat) (h2 : a.toNat < 0x4000)
include h1 h2

/-- A read in the PPU window is a register read (20_memory.md R52). -/
theorem busRead_ppu : busRead a = ppuRegRead a := by
  unfold busRead
  rw [region_eq_ppu.mpr ⟨h1, h2⟩]

/-- A write in the PPU window is a register write (20_memory.md R52). -/
theorem busWrite_ppu (v : Byte) : busWrite a v = ppuRegWrite a v := by
  unfold busWrite
  rw [region_eq_ppu.mpr ⟨h1, h2⟩]

theorem busRead_writeOnly (h : a.toNat % 8 ∈ [0, 1, 3, 5, 6]) :
    busRead a = accessFault (.readWriteOnlyPpuRegister a) 0x00 := by
  simp only [List.mem_cons, List.not_mem_nil, or_false] at h
  rw [busRead_ppu h1 h2, ppuRegRead, ppuSlot_eq]
  rcases h with h | h | h | h | h <;> rw [h] <;> rfl

theorem busRead_status (h : a.toNat % 8 = 2) : busRead a = readStatus := by
  rw [busRead_ppu h1 h2, ppuRegRead, ppuSlot_eq, h]
  rfl

theorem busRead_oamData (h : a.toNat % 8 = 4) : busRead a = readOamData := by
  rw [busRead_ppu h1 h2, ppuRegRead, ppuSlot_eq, h]
  rfl

theorem busRead_data (h : a.toNat % 8 = 7) : busRead a = readData := by
  rw [busRead_ppu h1 h2, ppuRegRead, ppuSlot_eq, h]
  rfl

theorem busWrite_control (h : a.toNat % 8 = 0) (v : Byte) :
    busWrite a v = setS fun s => s.setPpu { s.ppu with ctrl := v } := by
  rw [busWrite_ppu h1 h2, ppuRegWrite, ppuSlot_eq, h]
  rfl

theorem busWrite_mask (h : a.toNat % 8 = 1) (v : Byte) :
    busWrite a v = setS fun s => s.setPpu { s.ppu with mask := v } := by
  rw [busWrite_ppu h1 h2, ppuRegWrite, ppuSlot_eq, h]
  rfl

theorem busWrite_status (h : a.toNat % 8 = 2) (v : Byte) :
    busWrite a v = accessFault (.writeReadOnlyPpuRegister a) () := by
  rw [busWrite_ppu h1 h2, ppuRegWrite, ppuSlot_eq, h]
  rfl

theorem busWrite_oamAddr (h : a.toNat % 8 = 3) (v : Byte) :
    busWrite a v = setS fun s => s.setPpu { s.ppu with oamAddr := v } := by
  rw [busWrite_ppu h1 h2, ppuRegWrite, ppuSlot_eq, h]
  rfl

theorem busWrite_oamData (h : a.toNat % 8 = 4) (v : Byte) : busWrite a v = writeOamData v := by
  rw [busWrite_ppu h1 h2, ppuRegWrite, ppuSlot_eq, h]
  rfl

theorem busWrite_scroll (h : a.toNat % 8 = 5) (v : Byte) : busWrite a v = writeScroll v := by
  rw [busWrite_ppu h1 h2, ppuRegWrite, ppuSlot_eq, h]
  rfl

theorem busWrite_address (h : a.toNat % 8 = 6) (v : Byte) : busWrite a v = writeAddress v := by
  rw [busWrite_ppu h1 h2, ppuRegWrite, ppuSlot_eq, h]
  rfl

theorem busWrite_data (h : a.toNat % 8 = 7) (v : Byte) : busWrite a v = writeData v := by
  rw [busWrite_ppu h1 h2, ppuRegWrite, ppuSlot_eq, h]
  rfl

end

/-- Settles O21: both wrong-way accesses are access faults of the policy (20_memory.md R79). -/
theorem wrongWayPpuAccessFaults : Obligations.WrongWayPpuAccessFaults := by
  intro s a v h1 h2
  refine ⟨fun h => ?_, fun h => ?_⟩
  · rw [busRead_writeOnly h1 h2 h]
    cases hm : s.launch.mode with
    | strict => exact accessFault_strict hm _ _
    | permissive => exact accessFault_permissive hm _ _
  · rw [busWrite_status h1 h2 h]
    cases hm : s.launch.mode with
    | strict => exact accessFault_strict hm _ _
    | permissive => exact accessFault_permissive hm _ _

/-- Settles O23. -/
theorem statusReadClearsVblankAndLatches : Obligations.StatusReadClearsVblankAndLatches := by
  intro s a h1 h2 h
  rw [busRead_status h1 h2 h]
  rfl

/-- Settles O24, with `Memory.read_write` for the byte stored. -/
theorem oamDataReadsAndWritesAtTheCursor : Obligations.OamDataReadsAndWritesAtTheCursor := by
  intro s a v h1 h2 h
  rw [busRead_oamData h1 h2 h, busWrite_oamData h1 h2 h]
  exact ⟨rfl, _, rfl, rfl, fun k => Memory.read_write _ _ k v⟩

/-! ## Scroll and Address -/

/-- A Scroll write goes to X or to Y by its latch, and turns the latch (20_memory.md R67). -/
theorem writeScroll_eq (v : Byte) (s : State) :
    writeScroll v s = .ok () (s.setPpu
      { s.ppu with
        scrollX := if s.ppu.scrollLatch then s.ppu.scrollX else v
        scrollY := if s.ppu.scrollLatch then v else s.ppu.scrollY
        scrollLatch := !s.ppu.scrollLatch }) := by
  rw [writeScroll, setS_apply]
  cases s.ppu.scrollLatch <;> rfl

/-- The Address pointer after a write of `v` (20_memory.md R68). -/
def addressWritten (q : Ppu) (v : Byte) : VAddr :=
  if q.addrLatch then (q.addr &&& 0x3F00) ||| v.setWidth 14
  else ((v &&& 0x3F).setWidth 14 <<< 8) ||| (q.addr &&& 0x00FF)

/-- An Address write moves the pointer and turns the latch (20_memory.md R68). -/
theorem writeAddress_eq (v : Byte) (s : State) :
    writeAddress v s =
      .ok () (s.setPpu { s.ppu with addr := addressWritten s.ppu v, addrLatch := !s.ppu.addrLatch }) := by
  rw [writeAddress, setS_apply, addressWritten]
  cases s.ppu.addrLatch <;> rfl

/-- The high byte of a 14-bit pointer, in place. -/
theorem and_highByte {n : Nat} (h : n < 0x4000) : n &&& 0x3F00 = 256 * (n / 256) := by
  have hdiv : (n &&& 0x3F00) / 2 ^ 8 = n / 2 ^ 8 &&& 0x3F := Nat.and_div_two_pow
  have hmod : (n &&& 0x3F00) % 2 ^ 8 = n % 2 ^ 8 &&& 0 := Nat.and_mod_two_pow
  rw [Nat.and_two_pow_sub_one_eq_mod _ 6] at hdiv
  rw [Nat.and_zero] at hmod
  omega

/-- The pointer an Address write leaves, in natural numbers. -/
theorem toNat_addressWritten (q : Ppu) (v : Byte) :
    (addressWritten q v).toNat =
      if q.addrLatch then q.addr.toNat / 256 * 256 + v.toNat else v.toNat % 64 * 256 + q.addr.toNat % 256 := by
  have ha := q.addr.isLt
  have hv := v.isLt
  unfold addressWritten
  split
  · have hor := Nat.two_pow_add_eq_or_of_lt (i := 8) hv (q.addr.toNat / 256)
    have hv14 : (v.setWidth 14).toNat = v.toNat := BitVec.toNat_setWidth_of_le (by decide)
    rw [BitVec.toNat_or, BitVec.toNat_and, hv14, Nat.mul_comm _ 256]
    exact (congrArg (· ||| v.toNat) (and_highByte ha)).trans hor.symm
  · have hlow : q.addr.toNat &&& 0x00FF = q.addr.toNat % 256 := Nat.and_two_pow_sub_one_eq_mod _ 8
    have hor := Nat.two_pow_add_eq_or_of_lt (i := 8) (Nat.mod_lt q.addr.toNat (by decide)) (v.toNat % 64)
    have hhigh : ((v &&& 0x3F).setWidth 14 <<< 8).toNat = 256 * (v.toNat % 64) := by
      have hmask : (v &&& 0x3F).toNat = v.toNat % 64 := by
        rw [BitVec.toNat_and]
        exact Nat.and_two_pow_sub_one_eq_mod _ 6
      rw [BitVec.toNat_shiftLeft, BitVec.toNat_setWidth, hmask, Nat.shiftLeft_eq]
      omega
    rw [BitVec.toNat_or, BitVec.toNat_and, hhigh, Nat.mul_comm _ 256]
    exact (congrArg (256 * (v.toNat % 64) ||| ·) hlow).trans hor.symm

/-- Settles O22: one update per slot; for Address the pointer is `toNat_addressWritten`. -/
theorem ppuRegisterWrites : Obligations.PpuRegisterWrites := by
  intro s a v h1 h2
  refine ⟨fun h => ?_, fun h => ?_, fun h => ?_, fun h => ?_, fun h => ?_⟩
  · rw [busWrite_control h1 h2 h, setS_apply]
  · rw [busWrite_mask h1 h2 h, setS_apply]
  · rw [busWrite_oamAddr h1 h2 h, setS_apply]
  · rw [busWrite_scroll h1 h2 h, writeScroll_eq]
  · rw [busWrite_address h1 h2 h, writeAddress_eq]
    exact ⟨_, rfl, rfl, toNat_addressWritten s.ppu v⟩

/-! ## The nametable and palette index -/

/-- Bit 12 of a nametable address is masked away, and bit 13 is the base $2000 (20_memory.md R74). -/
theorem toNat_fold {a : VAddr} (h1 : 0x2000 ≤ a.toNat) (h2 : a.toNat < 0x3F00) :
    ((a &&& 0x2FFF) - 0x2000).toNat = a.toNat % 0x1000 := by
  have hdiv : (a.toNat &&& 0x2FFF) / 2 ^ 12 = a.toNat / 2 ^ 12 &&& 2 := Nat.and_div_two_pow
  have hmod : (a.toNat &&& 0x2FFF) % 2 ^ 12 = a.toNat % 2 ^ 12 &&& 0xFFF := Nat.and_mod_two_pow
  rw [Nat.and_two_pow_sub_one_eq_mod _ 12] at hmod
  have hbit : a.toNat / 2 ^ 12 &&& 2 = 2 := by
    have hpage : a.toNat / 2 ^ 12 = 2 ∨ a.toNat / 2 ^ 12 = 3 := by omega
    rcases hpage with h | h <;> rw [h] <;> rfl
  have hmask : (a &&& 0x2FFF).toNat = 0x2000 + a.toNat % 0x1000 := by
    show a.toNat &&& 0x2FFF = _
    omega
  rw [BitVec.toNat_sub_of_le (BitVec.le_def.mpr (by rw [hmask]; exact Nat.le_add_right _ _)), hmask]
  exact Nat.add_sub_cancel_left 0x2000 _

theorem toNat_and_paletteMask (a : VAddr) : (a &&& 0x1F).toNat = a.toNat % 32 := by
  rw [BitVec.toNat_and]
  exact Nat.and_two_pow_sub_one_eq_mod _ 5

/-- Settles O27: the nametable number is the folded address by 0x400, below 4. -/
theorem nametableAndPaletteMirroring : Obligations.NametableAndPaletteMirroring := by
  refine ⟨fun a h1 h2 => ?_, fun a h => ?_⟩
  · have hnt : a.toNat % 0x1000 / 0x400 < 4 := by omega
    have hpair : [0, 0, 1, 1].getD (a.toNat % 0x1000 / 0x400) 0 = a.toNat % 0x1000 / 0x400 / 2 := by
      interval_cases a.toNat % 0x1000 / 0x400 <;> rfl
    have halt : [0, 1, 0, 1].getD (a.toNat % 0x1000 / 0x400) 0 = a.toNat % 0x1000 / 0x400 % 2 := by
      interval_cases a.toNat % 0x1000 / 0x400 <;> rfl
    refine ⟨?_, ?_, rfl⟩
    · simp only [ntIndex, toNat_fold h1 h2, hpair, Nat.div_div_eq_div_mul]
    · simp only [ntIndex, toNat_fold h1 h2, halt]
  · have hlt : a.toNat % 32 < 32 := Nat.mod_lt _ (by decide)
    have hfour : a.toNat % 4 = a.toNat % 32 % 4 := by omega
    simp only [palIndex, toNat_and_paletteMask, hfour]
    interval_cases a.toNat % 32 <;> rfl

/-! ## The Data port -/

/-- The pointer after a Data access, in natural numbers (20_memory.md R69). -/
theorem add_addrStep (p : VAddr) (ctrl : Byte) :
    p + addrStep ctrl = BitVec.ofNat 14 (p.toNat + if ctrl.getLsbD 2 then 32 else 1) := by
  unfold addrStep
  rw [BitVec.ofNat_add, BitVec.ofNat_toNat, BitVec.setWidth_eq]
  split <;> rfl

/-- The byte behind the buffer: CHR below the nametables (20_memory.md R72). -/
theorem ppuMem_chr {p : VAddr} (h : p.toNat < 0x2000) (s : State) :
    ppuMem p s = .ok (Memory.read s.launch.chr p.toNat) s := by
  rw [ppuMem, if_pos (vaddr_le_chr.mpr h)]
  rfl

section
variable {p : VAddr} {s : State}

theorem ntIndexOrFault_some {k : Nat} (h : ntIndex s.launch.mirroring p = some k) :
    ntIndexOrFault p s = .ok k s := by
  rw [ntIndexOrFault, h]

theorem ntIndexOrFault_none (h : ntIndex s.launch.mirroring p = none) :
    ntIndexOrFault p s = .error (.fourScreenMirroring p) s := by
  rw [ntIndexOrFault, h]

variable (h1 : 0x2000 ≤ p.toNat) (h2 : p.toNat < 0x3F00)
include h1 h2

theorem ppuMem_nametable :
    ppuMem p = ntIndexOrFault p >>= fun i => getS fun s => Memory.read s.ppu.vram i := by
  rw [ppuMem, if_neg (by rw [vaddr_le_chr]; omega), if_pos (vaddr_le_nt.mpr h2)]

theorem ppuWrite_nametable (v : Byte) :
    ppuWrite p v = ntIndexOrFault p >>= fun i =>
      setS fun s => s.setPpu { s.ppu with vram := Memory.write s.ppu.vram i v } := by
  rw [ppuWrite, if_neg (by rw [vaddr_le_chr]; omega), if_pos (vaddr_le_nt.mpr h2)]

end

theorem ppuWrite_chr {p : VAddr} (h : p.toNat < 0x2000) (v : Byte) :
    ppuWrite p v = accessFault (.chrWrite p) () := by
  rw [ppuWrite, if_pos (vaddr_le_chr.mpr h)]

theorem ppuWrite_palette {p : VAddr} (h : 0x3F00 ≤ p.toNat) (v : Byte) :
    ppuWrite p v = setS fun s =>
      s.setPpu { s.ppu with palette := Memory.write s.ppu.palette (palIndex p) v } := by
  rw [ppuWrite, if_neg (by rw [vaddr_le_chr]; omega), if_neg (by rw [vaddr_le_nt]; omega)]

/-- A read of Data below the palette: the buffer is answered and reloaded with the byte at the pointer (R70). -/
theorem readData_buffered {s : State} {b : Byte} (h : s.ppu.addr.toNat < 0x3F00)
    (hb : ppuMem s.ppu.addr s = .ok b s) :
    readData s = .ok s.ppu.readBuf
      (s.setPpu { s.ppu with readBuf := b, addr := s.ppu.addr + addrStep s.ppu.ctrl }) := by
  rw [readData, getS_bind, if_pos (vaddr_le_nt.mpr h), getS_bind, bind_of_ok hb]
  rfl

/-- A fault behind the buffer comes before any change (R70, R74). -/
theorem readData_error {s : State} {k : FaultKind} (h : s.ppu.addr.toNat < 0x3F00)
    (hb : ppuMem s.ppu.addr s = .error k s) : readData s = .error k s := by
  rw [readData, getS_bind, if_pos (vaddr_le_nt.mpr h), getS_bind, bind_of_error hb]

/-- A read of Data in the palette is immediate (R70). -/
theorem readData_palette {s : State} (h : 0x3F00 ≤ s.ppu.addr.toNat) :
    readData s = .ok (Memory.read s.ppu.palette (palIndex s.ppu.addr))
      (s.setPpu { s.ppu with addr := s.ppu.addr + addrStep s.ppu.ctrl }) := by
  rw [readData, getS_bind, if_neg (by rw [vaddr_le_nt]; omega)]
  rfl

/-- A write of Data, its store completed, moves the pointer (R71). -/
theorem writeData_eq {v : Byte} {s t : State} (h : ppuWrite s.ppu.addr v s = .ok () t) :
    writeData v s = .ok () (t.setPpu { t.ppu with addr := t.ppu.addr + addrStep t.ppu.ctrl }) := by
  rw [writeData, getS_bind, bind_of_ok h]
  rfl

/-- A write of Data whose store faults does not move the pointer (R71). -/
theorem writeData_error {v : Byte} {s t : State} {k : FaultKind} (h : ppuWrite s.ppu.addr v s = .error k t) :
    writeData v s = .error k t := by
  rw [writeData, getS_bind, bind_of_error h]

/-- Settles O25, by the range of the pointer and, in the nametables, by whether the index exists. -/
theorem dataReadsAreBufferedBelowThePalette : Obligations.DataReadsAreBufferedBelowThePalette := by
  intro s a h1 h2 h
  simp only [busRead_data h1 h2 h, ← add_addrStep]
  refine ⟨fun hp => ?_, fun hp hp' => ?_, fun hp => readData_palette hp⟩
  · exact readData_buffered (by omega) (ppuMem_chr hp s)
  · have hmem := congrFun (ppuMem_nametable hp hp') s
    cases hk : ntIndex s.launch.mirroring s.ppu.addr with
    | some k => exact readData_buffered hp' (hmem.trans (bind_of_ok (ntIndexOrFault_some hk)))
    | none => exact readData_error hp' (hmem.trans (bind_of_error (ntIndexOrFault_none hk)))

/-- Settles O26, by the range of the pointer; every fault is one of the store, so it comes before the move. -/
theorem dataWritesStoreAtThePointer : Obligations.DataWritesStoreAtThePointer := by
  intro s a v h1 h2 h
  simp only [busWrite_data h1 h2 h, ← add_addrStep]
  refine ⟨fun hp => ?_, fun hp hp' => ?_, fun hp => ?_⟩
  · have hstore := congrFun (ppuWrite_chr hp v) s
    cases hm : s.launch.mode with
    | strict => exact writeData_error (hstore.trans (accessFault_strict hm _ _))
    | permissive => exact writeData_eq (hstore.trans (accessFault_permissive hm _ _))
  · have hstore := congrFun (ppuWrite_nametable hp hp' v) s
    cases hk : ntIndex s.launch.mirroring s.ppu.addr with
    | some k => exact writeData_eq (hstore.trans (bind_of_ok (ntIndexOrFault_some hk)))
    | none => exact writeData_error (hstore.trans (bind_of_error (ntIndexOrFault_none hk)))
  · exact writeData_eq (congrFun (ppuWrite_palette hp v) s)

/-! ## OAM DMA -/

/-- A write to $4014, its source reads completed, copies their bytes to OAM (20_memory.md R76). -/
theorem busWrite_oamDma {v : Byte} {s mid : State} {bytes : List Byte}
    (h : readRun (w16 v 0) 256 s = .ok bytes mid) :
    busWrite 0x4014 v s =
      .ok () (mid.setPpu { mid.ppu with oam := oamCopy mid.ppu.oamAddr bytes mid.ppu.oam }) := by
  have hdma : busWrite 0x4014 v = oamDma v := rfl
  rw [hdma, oamDma, bind_of_ok h]
  rfl

/-- A fault among the source reads is the fault of the write, before any copy (20_memory.md R76). -/
theorem busWrite_oamDma_error {v : Byte} {s mid : State} {k : FaultKind}
    (h : readRun (w16 v 0) 256 s = .error k mid) : busWrite 0x4014 v s = .error k mid := by
  have hdma : busWrite 0x4014 v = oamDma v := rfl
  rw [hdma, oamDma, bind_of_error h]

theorem readRun_length {addr : Addr} {n : Nat} {s t : State} {bytes : List Byte}
    (h : readRun addr n s = .ok bytes t) : bytes.length = n := by
  induction n generalizing addr s t bytes with
  | zero => cases h; rfl
  | succ n ih =>
    obtain ⟨b, u, -, h⟩ := bind_eq_ok.mp h
    obtain ⟨bs, w, hrun, h⟩ := bind_eq_ok.mp h
    cases h
    exact congrArg (· + 1) (ih hrun)

/-- The next cell of a run, from its start or from the cell after it. -/
theorem add_ofNat_succ {w : Nat} (c : BitVec w) (j : Nat) :
    c + BitVec.ofNat w (j + 1) = c + 1 + BitVec.ofNat w j := by
  rw [Nat.add_comm j 1, BitVec.ofNat_add, ← BitVec.add_assoc]
  rfl

/-- A cursor comes back to a cell only after 256 moves. -/
theorem toNat_ne_add_one_add (c : Byte) {j : Nat} (hj : j < 255) :
    c.toNat ≠ (c + 1 + BitVec.ofNat 8 j).toNat := by
  have hc := c.isLt
  have hone : (1 : Byte).toNat = 1 := rfl
  rw [BitVec.toNat_add, BitVec.toNat_add, BitVec.toNat_ofNat, hone]
  omega

/-- The copy writes only the cells from the cursor on, as many as there are bytes. -/
theorem oamCopy_read_other (c : Byte) (bytes : List Byte) (m : Memory) (n : Nat)
    (h : ∀ j < bytes.length, n ≠ (c + BitVec.ofNat 8 j).toNat) :
    Memory.read (oamCopy c bytes m) n = Memory.read m n := by
  induction bytes generalizing c m with
  | nil => rfl
  | cons b bs ih =>
    have hhead : n ≠ c.toNat := by simpa using h 0 (Nat.succ_pos _)
    have htail : ∀ j < bs.length, n ≠ (c + 1 + BitVec.ofNat 8 j).toNat :=
      fun j hj => add_ofNat_succ c j ▸ h (j + 1) (Nat.succ_lt_succ hj)
    rw [oamCopy, ih _ _ htail, Memory.read_write_of_ne _ _ hhead]

/-- Byte `j` of a copy of at most 256 bytes stands at the cursor plus `j` (20_memory.md R76). -/
theorem oamCopy_read (c : Byte) (bytes : List Byte) (m : Memory) (hlen : bytes.length ≤ 256) {j : Nat}
    (hj : j < bytes.length) : Memory.read (oamCopy c bytes m) (c + BitVec.ofNat 8 j).toNat = bytes[j] := by
  induction bytes generalizing c m j with
  | nil => exact absurd hj (Nat.not_lt_zero _)
  | cons b bs ih =>
    rw [List.length_cons] at hlen
    rw [oamCopy]
    cases j with
    | zero =>
      have hcursor : c + BitVec.ofNat 8 0 = c := BitVec.add_zero c
      have hlater : ∀ j < bs.length, c.toNat ≠ (c + 1 + BitVec.ofNat 8 j).toNat :=
        fun j hj => toNat_ne_add_one_add c (by omega)
      rw [hcursor, oamCopy_read_other _ _ _ _ hlater, Memory.read_write_self]
      rfl
    | succ j =>
      rw [add_ofNat_succ]
      exact ih _ _ (Nat.le_of_succ_le hlen) (Nat.lt_of_succ_lt_succ hj)

/-- A run of reads over plain bytes gives them, without an effect. -/
theorem readRun_of_peek {s : State} {addr : Addr} {n : Nat} {source : Nat → Byte}
    (h : ∀ j < n, s.peek (addr + BitVec.ofNat 16 j) = some (source j)) :
    readRun addr n s = .ok ((List.range n).map source) s := by
  induction n generalizing addr source with
  | zero => rfl
  | succ n ih =>
    have hhead : s.peek addr = some (source 0) := by simpa using h 0 (Nat.succ_pos n)
    have htail : ∀ j < n, s.peek (addr + 1 + BitVec.ofNat 16 j) = some (source (j + 1)) :=
      fun j hj => add_ofNat_succ addr j ▸ h (j + 1) (Nat.succ_lt_succ hj)
    rw [readRun, bind_of_ok (busRead_of_peek hhead), bind_of_ok (ih htail), List.range_succ_eq_map,
      List.map_cons, List.map_map]
    rfl

/-- The addresses of a page. -/
theorem w16_zero_add (v : Byte) {j : Nat} (hj : j < 256) :
    w16 v 0 + BitVec.ofNat 16 j = w16 v (BitVec.ofNat 8 j) := by
  have hv := v.isLt
  have hzero : (0 : Byte).toNat = 0 := rfl
  apply BitVec.eq_of_toNat_eq
  rw [BitVec.toNat_add, toNat_w16, toNat_w16, BitVec.toNat_ofNat, BitVec.toNat_ofNat, hzero]
  omega

/-- Settles O28: the reads keep OAM and its cursor, and `oamCopy` puts each byte in its place. -/
theorem oamDmaCopiesAPage : Obligations.OamDmaCopiesAPage := by
  refine ⟨fun s mid v bytes h => ?_, fun s mid v k h => ?_, fun s v source h => ?_⟩
  · have hread := (readRun_keeps _ _).ok h
    have hlen := readRun_length h
    refine ⟨_, busWrite_oamDma h, rfl, hread.oamAddr, hread.cycles, fun k => ?_, fun n hn => ?_⟩
    · have hk : k.toNat < bytes.length := hlen ▸ k.isLt
      have hcopy := oamCopy_read mid.ppu.oamAddr bytes mid.ppu.oam hlen.le hk
      rw [BitVec.ofNat_toNat, BitVec.setWidth_eq, hread.oamAddr] at hcopy
      rw [List.getElem?_eq_getElem hk, ← hcopy, ← hread.oamAddr]
      rfl
    · rw [← hread.oam]
      exact oamCopy_read_other _ _ _ _ fun j _ hj => absurd (hj ▸ BitVec.isLt _) (Nat.not_lt.mpr hn)
  · exact ⟨busWrite_oamDma_error h, ((readRun_keeps _ _).error h).oam⟩
  · have hpage : ∀ j < 256, s.peek (w16 v 0 + BitVec.ofNat 16 j) = some (source (BitVec.ofNat 8 j)) :=
      fun j hj => w16_zero_add v hj ▸ h _
    refine ⟨_, readRun_of_peek hpage, fun k => ?_⟩
    simp [k.isLt]

/-! ## The joypad -/

/-- A bit of a byte in natural numbers. -/
theorem getLsbD_eq_decide (v : Byte) (i : Nat) : v.getLsbD i = decide (v.toNat / 2 ^ i % 2 = 1) :=
  Nat.testBit_eq_decide_div_mod_eq

/-- Past the eighth button a read gives 1 (20_memory.md R77). -/
theorem joyRead_done {s : State} (h : 8 ≤ s.joy.cursor) : joyRead s = .ok 0x01 s := by
  unfold joyRead
  rw [getS_bind, if_pos (Nat.lt_of_succ_le h)]
  rfl

/-- Up to the eighth button a read gives it, and moves the cursor with the strobe clear (20_memory.md R77). -/
theorem joyRead_button {s : State} (h : s.joy.cursor < 8) :
    joyRead s = .ok (if s.joy.buttons.getLsbD s.joy.cursor then 0x01 else 0x00)
      (s.setJoy { s.joy with cursor := if s.joy.strobe then s.joy.cursor else s.joy.cursor + 1 }) := by
  unfold joyRead
  rw [getS_bind, if_neg (Nat.not_lt.mpr (Nat.le_of_lt_succ h)), setS_bind]
  by_cases hstrobe : s.joy.strobe = true
  · rw [if_pos hstrobe, if_pos hstrobe]
    rfl
  · rw [if_neg hstrobe, if_neg hstrobe]
    rfl

/-- A write sets the strobe from bit 0, which holds the cursor at 0 (20_memory.md R78). -/
theorem joyWrite_eq (v : Byte) (s : State) :
    joyWrite v s = .ok () (s.setJoy
      { s.joy with strobe := v.getLsbD 0, cursor := if v.getLsbD 0 then 0 else s.joy.cursor }) := by
  rw [joyWrite, setS_apply]
  cases v.getLsbD 0 <;> rfl

/-- Settles O29, from the two branches of a read and the one update of a write. -/
theorem joypadShiftRegister : Obligations.JoypadShiftRegister := by
  intro s v
  refine ⟨fun h => joyRead_done h, fun h => ?_, ?_⟩
  · have hread : busRead 0x4016 s = joyRead s := rfl
    have hbit := Nat.mod_two_eq_zero_or_one (s.joy.buttons.toNat / 2 ^ s.joy.cursor)
    rw [hread, joyRead_button h, getLsbD_eq_decide]
    rcases hbit with hbit | hbit <;> rw [hbit] <;> rfl
  · have hwrite : busWrite 0x4016 v s = joyWrite v s := rfl
    have hstrobe : v.getLsbD 0 = decide (v.toNat % 2 = 1) := by
      rw [getLsbD_eq_decide, pow_zero, Nat.div_one]
    rw [hwrite, joyWrite_eq, hstrobe]
    simp only [decide_eq_true_eq]

/-! ## Where a storing instruction stores -/

/-- A storing instruction has the form of its operand, which is never Indirect. -/
theorem mode_of_store {i : Instr} {o : Operand} (h : i.store = .write o ∨ i.store = .modify o) :
    i.mode = o.mode ∧ Mode.indirect ∉ i.modes := by
  cases i <;> simp only [Instr.store, reduceCtorEq, or_self, or_false, false_or] at h
  case asl | lsr | rol | ror =>
    split at h <;> simp only [reduceCtorEq, or_self, false_or] at h
    cases h
    exact ⟨rfl, by simp [Instr.modes, modifyModes]⟩
  all_goals
    cases h
    exact ⟨rfl, by simp [Instr.modes, memoryModes, modifyModes]⟩

/-- The address of a completed storing instruction is found without an effect. -/
theorem effAddr_of_store {i : Instr} {o : Operand} {s mid : State} {op : Byte} {ea : Addr}
    (h : i.store = .write o ∨ i.store = .modify o) (hi : i.opcode = some op) (he : effAddr o s = .ok ea mid) :
    effAddr o s = .ok ea s := by
  obtain ⟨hmode, hind⟩ := mode_of_store h
  have hwf : WellFormed i := (wellFormed_iff i).mpr ⟨op, hi⟩
  obtain ⟨ea', he'⟩ := effAddr_ok (o := o) (fun e => hind (e ▸ hmode ▸ hwf)) s
  rw [he'] at he
  cases he
  exact he'

/-- What a completed `store` has done: one bus write. -/
theorem write_of_store {o : Operand} {v : State → Byte} {f : Flow} {s mid u : State} {ea : Addr}
    (he : effAddr o s = .ok ea mid) (h : store o v s = .ok f u) : busWrite ea (v mid) mid = .ok () u := by
  unfold store at h
  rw [bind_of_ok he, getS_bind] at h
  obtain ⟨_, w, hw, h⟩ := bind_eq_ok.mp h
  cases h
  exact hw

/-- What a completed `modify` has done: one bus read, its computation, one bus write, its register update. -/
theorem accesses_of_modify {o : Operand} {f : Byte → Act Byte} {g : Byte → State → State} {q : Flow}
    {s mid u : State} {ea : Addr} (he : effAddr o s = .ok ea mid) (h : modify o f g s = .ok q u) :
    ∃ m s2 r s3 w, busRead ea mid = .ok m s2 ∧ f m s2 = .ok r s3 ∧ busWrite ea r s3 = .ok () w ∧ u = g r w := by
  unfold modify at h
  rw [bind_of_ok he] at h
  obtain ⟨m, s2, hread, h⟩ := bind_eq_ok.mp h
  obtain ⟨r, s3, hf, h⟩ := bind_eq_ok.mp h
  obtain ⟨_, w, hw, h⟩ := bind_eq_ok.mp h
  cases h
  exact ⟨m, s2, r, s3, w, hread, hf, hw, rfl⟩

/-- From `s`, the state `w` in which an instruction makes its store at `ea`: no byte has changed, the Address pointer
stands at `pointer` if the store goes to Data, and the devices are as before if `ea` is no device. -/
structure BeforeStore (ea : Addr) (pointer : VAddr) (s w : State) : Prop where
  ram : w.ram = s.ram
  oam : w.ppu.oam = s.ppu.oam
  vram : w.ppu.vram = s.ppu.vram
  palette : w.ppu.palette = s.ppu.palette
  oamAddr : w.ppu.oamAddr = s.ppu.oamAddr
  launch : w.launch = s.launch
  addr : 0x2000 ≤ ea.toNat ∧ ea.toNat < 0x4000 ∧ ea.toNat % 8 = 7 → w.ppu.addr = pointer
  devices : (ea.toNat < 0x2000 ∨ 0x4000 ≤ ea.toNat) → ea.toNat ≠ 0x4016 → w.devices = s.devices

/-- A read at the address of the store, then changes of registers only. -/
theorem BeforeStore.of_read {ea : Addr} {m : Byte} {s s2 w : State} (hread : busRead ea s = .ok m s2)
    (hdev : w.devices = s2.devices) (hppu : w.ppu = s2.ppu) :
    BeforeStore ea (s.ppu.addr + addrStep s.ppu.ctrl) s w := by
  have hr := (busRead_keeps ea).ok hread
  constructor
  case ram => exact (congrArg Devices.ram hdev).trans hr.ram
  case launch => exact (congrArg Devices.launch hdev).trans hr.launch
  case addr => intro h7; rw [hppu, busRead_pointer hread, if_pos h7]
  case devices => intro h h16; rw [hdev, busRead_same h h16 hread]
  all_goals rw [hppu]
  · exact hr.oam
  · exact hr.vram
  · exact hr.palette
  · exact hr.oamAddr

/-- A completed storing instruction makes one bus write, before and after which it moves no device but by the read of
a read-modify-write (R101). -/
theorem exec_stores {i : Instr} {o : Operand} {s mid t : State} {ea : Addr}
    (hi : i.store = .write o ∨ i.store = .modify o) (he : effAddr o s = .ok ea mid) (h : exec i s = .next t) :
    ∃ w u, BeforeStore ea (if i.store = .modify o then s.ppu.addr + addrStep s.ppu.ctrl else s.ppu.addr) s w ∧
      StoreEffect ea w u ∧ t.devices = u.devices := by
  have hi' := hi
  rcases hi with hs | hs
  · obtain ⟨v, hexec⟩ := exec_of_write hs
    obtain ⟨op, q, u, hop, hbody, rfl⟩ := body_of_next (hexec s) h
    have hw := write_of_store (effAddr_of_store hi' hop he) hbody
    rw [if_neg (by rw [hs]; exact nofun)]
    exact ⟨s, u, ⟨rfl, rfl, rfl, rfl, rfl, rfl, fun _ => rfl, fun _ _ => rfl⟩, busWrite_stores hw,
      advance_tick_devices _ _ _ _⟩
  · obtain ⟨f, g, hexec, hf, hg⟩ := exec_of_modify hs
    obtain ⟨op, q, u, hop, hbody, rfl⟩ := body_of_next (hexec s) h
    obtain ⟨m, s2, r, s3, w, hread, hcomp, hw, rfl⟩ := accesses_of_modify (effAddr_of_store hi' hop he) hbody
    obtain ⟨r', s3', hcomp', hdev, hppu⟩ := hf m s2
    cases hcomp'.symm.trans hcomp
    rw [if_pos hs]
    exact ⟨s3, w, .of_read hread hdev hppu, busWrite_stores hw, (advance_tick_devices _ _ _ _).trans (hg r w).1⟩

/-- Settles O58: the one bus write of `exec_stores` stores where `StoreEffect` says. -/
theorem storingFrame : Obligations.StoringFrame := by
  intro i o s mid t ea hi he h slot pointer
  obtain ⟨w, u, hw, hu, ht⟩ := exec_stores hi he h
  have hram : t.ram = u.ram := congrArg Devices.ram ht
  have hoam : t.ppu.oam = u.ppu.oam := congrArg Devices.oam ht
  have hvram : t.ppu.vram = u.ppu.vram := congrArg Devices.vram ht
  have hpal : t.ppu.palette = u.ppu.palette := congrArg Devices.palette ht
  refine ⟨fun k hk => ?_, fun k hk hdma => ?_, fun k hk => ?_, fun k hk => ?_, fun hea hdma hjoy => ?_⟩
  · rw [hram, hu.ram k hk, hw.ram]
  · rw [hoam, hu.oam k (hw.oamAddr ▸ hk) hdma, hw.oam]
  · rw [hvram, hu.vram k ?_, hw.vram]
    rintro ⟨h7, hp⟩
    rw [hw.addr h7, hw.launch] at hp
    exact hk ⟨h7, hp⟩
  · rw [hpal, hu.palette k ?_, hw.palette]
    rintro ⟨h7, hp⟩
    rw [hw.addr h7] at hp
    exact hk ⟨h7, hp⟩
  · rw [ht, hu.devices hea hdma hjoy, hw.devices hea hjoy, hram]

end Sys2Proof.Machine

/-! Proofs of the statements about the encoding: the two round trips between decoder and encoder, what the opcode byte
alone fixes, the opcode check, effective addresses and operands, the branches, and the frame of the instructions that
store nothing (30_encoding.md). -/

namespace Sys2Proof

/-! ## The decoder and the encoder -/

/-- `i` is one of the instructions a cell makes. -/
def Entry.Covers (i : Instr) : Entry → Prop
  | .f1 j => j = i
  | .f2 f => ∃ b, f b = i
  | .f3 f => ∃ w, f w = i

/-- The grid of R103 against the Encodings lines: the cell of an instruction's opcode byte makes the instruction. -/
theorem entryOf_covers {i : Instr} {op : Byte} (h : i.opcode = some op) : (entryOf op).Covers i := by
  cases i
  case tax | tay | txa | tya | tsx | txs | pha | php | pla | plp | inx | iny | dex | dey | rts | rti | brk | clc | sec |
      cli | sei | cld | sed | clv | nop =>
    cases h
    exact rfl
  case bpl b | bmi b | bvc b | bvs b | bcc b | bcs b | bne b | beq b | sbcEB b | alr b | arr b | sbx b | ane b |
      lxa b =>
    cases h
    exact ⟨b, rfl⟩
  case jsr w | las w | shx w | shy w | tas w =>
    cases h
    exact ⟨w, rfl⟩
  case nopImplied op' | jam op' =>
    obtain ⟨hop, rfl⟩ := carried_eq_some.mp h
    fin_cases hop <;> exact rfl
  case nopImmediate op' v | anc op' v =>
    obtain ⟨hop, rfl⟩ := carried_eq_some.mp h
    fin_cases hop <;> exact ⟨v, rfl⟩
  case nopMemory op' o =>
    cases o
    case zp | zpX | abs | absX =>
      obtain ⟨hop, rfl⟩ := carried_eq_some.mp h
      fin_cases hop <;> exact ⟨_, rfl⟩
    all_goals cases h
  case asl o | lsr o | rol o | ror o =>
    cases o <;> cases h
    case acc => exact rfl
    all_goals exact ⟨_, rfl⟩
  all_goals
    rename Operand => o
    cases o <;> cases h <;> exact ⟨_, rfl⟩

/-- The operand bytes after an instruction's opcode byte decode to the instruction. -/
theorem decode_opcode_operandBytes {i : Instr} {op : Byte} (h : i.opcode = some op) (rest : List Byte) :
    decode (op :: (i.operandBytes ++ rest)) = .ok (i, rest) := by
  have hc := entryOf_covers h
  have hm := entryOf_makes op
  cases e : entryOf op with
  | f1 j =>
    rw [e] at hc hm
    obtain rfl : j = i := hc
    obtain ⟨-, hb, -⟩ := hm
    simp only [hb, List.nil_append, decode, e]
  | f2 f =>
    rw [e] at hc hm
    obtain ⟨b, rfl⟩ := hc
    obtain ⟨-, hb, -⟩ := hm b
    simp only [hb, List.cons_append, List.nil_append, decode, e]
  | f3 f =>
    rw [e] at hc hm
    obtain ⟨w, rfl⟩ := hc
    obtain ⟨-, hb, -⟩ := hm w
    rw [hb]
    exact decode_f3 f op rest w e

/-- Settles O1: a well-formed instruction has an opcode byte, and its cell of the grid makes it. -/
theorem decodeOfEncode : Obligations.DecodeOfEncode := by
  intro i rest hi
  obtain ⟨op, hop⟩ := (wellFormed_iff i).mp hi
  rw [encode_of_opcode hop]
  exact decode_opcode_operandBytes hop rest

/-- A decoded instruction has the first byte as its opcode byte and the bytes decoded as its operand bytes. -/
theorem bytes_of_decode {bytes rest : List Byte} {i : Instr} (h : decode bytes = .ok (i, rest)) :
    ∃ op, i.opcode = some op ∧ bytes = op :: (i.operandBytes ++ rest) := by
  cases bytes with
  | nil => cases h
  | cons op tail =>
    have hm := entryOf_makes op
    refine ⟨op, ?_⟩
    cases e : entryOf op with
    | f1 j =>
      rw [e] at hm
      obtain ⟨hop, hb, -⟩ := hm
      simp only [decode, e] at h
      cases h
      exact ⟨hop, by rw [hb]; rfl⟩
    | f2 f =>
      rw [e] at hm
      match tail with
      | [] => simp only [decode, e] at h; cases h
      | b :: tail =>
        obtain ⟨hop, hb, -⟩ := hm b
        simp only [decode, e] at h
        cases h
        exact ⟨hop, by rw [hb]; rfl⟩
    | f3 f =>
      rw [e] at hm
      match tail with
      | [] => simp only [decode, e] at h; cases h
      | [_] => simp only [decode, e] at h; cases h
      | l :: h' :: tail =>
        obtain ⟨hop, hb, -⟩ := hm (w16 h' l)
        simp only [decode, e] at h
        cases h
        exact ⟨hop, by rw [hb, lo_w16, hi_w16]; rfl⟩

/-- Settles O2: every cell of the grid makes instructions of its own opcode byte. -/
theorem encodeOfDecode : Obligations.EncodeOfDecode := by
  intro bytes rest i h
  obtain ⟨op, hop, rfl⟩ := bytes_of_decode h
  have hi : WellFormed i := (wellFormed_iff i).mpr ⟨op, hop⟩
  obtain ⟨-, -, -, hlen⟩ := form_of_wellFormed i hi
  exact ⟨hi, by rw [encode_of_opcode hop]; rfl, hlen⟩

/-- Settles O4, by running the decoder on each of the sixteen words. -/
theorem specWordsDecode : Obligations.SpecWordsDecode :=
  ⟨rfl, rfl, rfl, rfl, rfl, rfl, rfl, rfl, rfl, rfl, rfl, rfl, rfl, rfl, rfl, rfl⟩

/-- The form of the instructions a cell makes, read off at zero operand bytes. -/
def Entry.mode : Entry → Mode
  | .f1 i => i.mode
  | .f2 f => (f 0).mode
  | .f3 f => (f 0).mode

/-- The instructions a cell makes have one form, whatever their operand bytes. -/
def Entry.Uniform : Entry → Prop
  | .f1 _ => True
  | .f2 f => ∀ b, (f b).mode = (f 0).mode
  | .f3 f => ∀ w, (f w).mode = (f 0).mode

theorem entryOf_uniform (op : Byte) : (entryOf op).Uniform := by
  obtain ⟨n, hn, rfl⟩ : ∃ n < 256, op = BitVec.ofNat 8 n := ⟨op.toNat, op.isLt, by simp⟩
  interval_cases n <;> first
    | (change Entry.Uniform (.f1 _); exact trivial)
    | (change Entry.Uniform (.f2 _); exact fun _ => rfl)
    | (change Entry.Uniform (.f3 _); exact fun _ => rfl)

/-- Three bytes hold a whole instruction, which is the one their opcode byte's cell makes. -/
theorem decode_three (op b1 b2 : Byte) (rest : List Byte) : ∃ i : Instr,
    decode (op :: b1 :: b2 :: rest) = .ok (i, (b1 :: b2 :: rest).drop (i.length - 1)) ∧
      i.opcode = some op ∧ i.mode = (entryOf op).mode ∧ 1 ≤ i.length ∧ i.length ≤ 3 := by
  have hm := entryOf_makes op
  have hu := entryOf_uniform op
  cases e : entryOf op with
  | f1 j =>
    rw [e] at hm
    obtain ⟨hop, -, hlen⟩ := hm
    refine ⟨j, ?_, hop, rfl, by omega, by omega⟩
    simp only [decode, e, hlen]
    rfl
  | f2 f =>
    rw [e] at hm hu
    obtain ⟨hop, -, hlen⟩ := hm b1
    refine ⟨f b1, ?_, hop, hu b1, by omega, by omega⟩
    simp only [decode, e, hlen]
    rfl
  | f3 f =>
    rw [e] at hm hu
    obtain ⟨hop, -, hlen⟩ := hm (w16 b2 b1)
    refine ⟨f (w16 b2 b1), ?_, hop, hu _, by omega, by omega⟩
    simp only [decode, e, hlen]
    rfl

/-- Settles O3: the opcode byte picks the cell of the grid, and a cell has one form. -/
theorem opcodeAloneFixesTheForm : Obligations.OpcodeAloneFixesTheForm := by
  intro op
  refine ⟨(entryOf op).mode, fun b1 b2 rest => ?_⟩
  obtain ⟨i, hdec, hop, hmode, h1, h3⟩ := decode_three op b1 b2 rest
  exact ⟨i, hdec, hop, hmode, congrArg Mode.length hmode, h1, h3, Machine.cycles_eq hop⟩

end Sys2Proof

namespace Sys2Proof.Machine

/-! ## What a step refuses, and the opcode check -/

/-- Settles O8: `exec` refuses by the missing opcode byte alone, and the fetch gives well-formed instructions. -/
theorem stepRefusesNothing : Obligations.StepRefusesNothing := by
  have hexec : ∀ (i : Instr) (s : State) (r : Refusal),
      exec i s = .refused r ↔ ¬ WellFormed i ∧ r = .noEncoding := by
    intro i s r
    rcases exec_cases i s with ⟨hi, e⟩ | ⟨f, u, hi, -, -, -, e⟩ | ⟨k, u, hi, -, -, -, e⟩
    · rw [e]
      exact ⟨fun h => by cases h; exact ⟨hi, rfl⟩, fun h => by rw [h.2]⟩
    · rw [e]
      exact ⟨nofun, fun h => absurd hi h.1⟩
    · rw [e]
      exact ⟨nofun, fun h => absurd hi h.1⟩
  refine ⟨hexec, fun s r h => ?_⟩
  rcases step_cases s with ⟨k, -, e⟩ | ⟨-, s0, -, ⟨i, t, hf, e⟩ | ⟨k, t, -, e⟩⟩
  · rw [e] at h; cases h
  · rw [e] at h
    obtain ⟨hi, -⟩ := (hexec i t r).mp h
    exact hi (fetch_ok hf).1
  · rw [e] at h; cases h

/-- JAM bytes are never executable, unstable bytes not under Fatal (30_encoding.md R105). -/
theorem not_executable {u : UnstableMode} {op : Byte} (h : op ∈ jamBytes ∨ u = .fatal ∧ op ∈ unstableBytes) :
    executable u op = false := by
  rcases h with h | ⟨rfl, h⟩
  · cases u <;> revert op <;> decide
  · revert op
    decide

theorem requireExecutable_false {op : Byte} {s : State} (h : executable s.launch.unstable op = false) :
    requireExecutable op s = .error (.unmappedOpcode op (s.pc - 1)) s := by
  unfold requireExecutable
  rw [h]
  rfl

/-- A fetch stops at the opcode check with PC one past the opcode, before any operand byte is read (R194). -/
theorem fetch_of_not_executable {s u : State} {op : Byte} (hread : busRead s.pc s = .ok op u)
    (hx : executable s.launch.unstable op = false) :
    fetch s = .error (.unmappedOpcode op s.pc) (u.setPc (s.pc + 1)) := by
  have hlaunch : u.launch = s.launch := ((busRead_keeps s.pc).ok hread).launch
  have hcheck : requireExecutable op (u.setPc (s.pc + 1)) = .error (.unmappedOpcode op s.pc) (u.setPc (s.pc + 1)) := by
    rw [requireExecutable_false (hlaunch ▸ hx), State.setPc_pc, add_sub_cancel_right]
  unfold fetch
  rw [getS_bind, bind_of_ok hread, setS_bind, bind_of_error hcheck]

/-- A fault of the fetch is the step's. -/
theorem step_of_fetch_error {s t : State} {k : FaultKind} (hf : s.fault = none) (hn : s.ppu.nmiEdge = false)
    (h : fetch s = .error k t) : step s = .fault (.fatal k (t.setFault k)) := by
  have e : (do pollNmi; fetch : Act Instr) s = .error k t := (bind_of_ok (pollNmi_none hn)).trans h
  unfold step
  rw [hf, e]

/-- An instruction with an unstable opcode byte runs behind the opcode check (47_undocumented.md R185). -/
theorem exec_of_unstable {i : Instr} {op : Byte} (h : i.opcode = some op) (hop : op ∈ unstableBytes) :
    ∃ body, ∀ s, exec i s = performUnstable i body s := by
  have hc := entryOf_covers h
  fin_cases hop <;> obtain ⟨_, rfl⟩ := hc <;> exact ⟨_, fun _ => rfl⟩

/-- An instruction whose opcode byte is not executable stops before anything changes (R184, R185). -/
theorem performUnstable_error {i : Instr} {op : Byte} {s : State} (hop : i.opcode = some op)
    (hx : executable s.launch.unstable op = false) (body : Act Flow) :
    performUnstable i body s = .fault (.fatal (.unmappedOpcode op (s.pc - 1))
      (s.setFault (.unmappedOpcode op (s.pc - 1)))) := by
  unfold performUnstable
  rw [performOp_eq hop, bind_of_error (requireExecutable_false hx)]
  rfl

/-- Settles O9: the opcode check fails in the fetch, and again in the meaning of the instruction. -/
theorem unmappedOpcodeFaults : Obligations.UnmappedOpcodeFaults := by
  refine ⟨fun s u op hf hn hread hop => ?_, fun i s op hop hi => ?_⟩
  · exact step_of_fetch_error hf hn (fetch_of_not_executable hread (not_executable hop))
  · rcases hi with rfl | ⟨hfatal, hm⟩
    · exact performOp_eq hop raiseUnmapped s
    · obtain ⟨body, he⟩ := exec_of_unstable hop hm
      rw [he]
      exact performUnstable_error hop (not_executable (.inr ⟨hfatal, hm⟩)) body

/-! ## Effective addresses and operands -/

theorem toNat_zeroPage (a : Byte) : (zeroPage a).toNat = a.toNat := by
  have := a.isLt
  rw [zeroPage, BitVec.toNat_setWidth]
  omega

/-- An effective address given by its number. -/
theorem effAddr_of_toNat {o : Operand} {s : State} {ea : Addr} {n : Nat} (he : effAddr o s = .ok ea s)
    (hn : ea.toNat = n) : effAddr o s = .ok (BitVec.ofNat 16 n) s := by
  rw [he, ← hn, BitVec.ofNat_toNat, BitVec.setWidth_eq]

theorem toNat_add_setWidth (w : Addr) (i : Byte) : (w + i.setWidth 16).toNat = (w.toNat + i.toNat) % 65536 := by
  have := i.isLt
  rw [BitVec.toNat_add, BitVec.toNat_setWidth]
  omega

/-- The second pointer byte of Indirect is on the page of the first (30_encoding.md R98). -/
theorem eq_secondPointer {ptr second : Addr} (h : second.toNat = ptr.toNat / 256 * 256 + (ptr.toNat + 1) % 256) :
    second = w16 (hi ptr) (lo (ptr + 1)) := by
  have e : (ptr + 1).toNat = (ptr.toNat + 1) % 65536 := BitVec.toNat_add ptr 1
  apply BitVec.eq_of_toNat_eq
  rw [h, toNat_w16, toNat_hi, toNat_lo, e]
  omega

/-- Settles O32: the sums and the pointers of the direct forms, and the two pointer reads of Indirect. -/
theorem effectiveAddresses : Obligations.EffectiveAddresses := by
  refine ⟨fun s z w => ?_, fun s s1 s2 ptr second l h k hs => ?_⟩
  · refine ⟨?zp, ?zpX, ?zpY, ?abs, ?absX, ?absY, ?indX, ?indY⟩
    case zp => exact effAddr_of_toNat rfl (toNat_zeroPage z)
    case zpX => exact effAddr_of_toNat rfl ((toNat_zeroPage _).trans (BitVec.toNat_add z s.x))
    case zpY => exact effAddr_of_toNat rfl ((toNat_zeroPage _).trans (BitVec.toNat_add z s.y))
    case abs => exact effAddr_of_toNat rfl rfl
    case absX => exact effAddr_of_toNat rfl (toNat_add_setWidth w s.x)
    case absY => exact effAddr_of_toNat rfl (toNat_add_setWidth w s.y)
    case indX =>
      refine effAddr_of_toNat (effAddr_indX z s) ?_
      rw [toNat_w16, Nat.add_comm, BitVec.toNat_add (z + s.x) 1, BitVec.toNat_add z s.x, Nat.mod_add_mod]
      rfl
    case indY =>
      refine effAddr_of_toNat (effAddr_indY z s) ?_
      have hz : z.toNat % 256 = z.toNat := Nat.mod_eq_of_lt z.isLt
      beta_reduce
      rw [toNat_add_setWidth, toNat_w16, Nat.add_comm (256 * _), BitVec.toNat_add z 1, hz]
      rfl
  · have e : effAddr (.ind ptr) = busRead ptr >>= fun l => busRead second >>= fun h => pure (w16 h l) := by
      rw [eq_secondPointer hs]
      exact indirectTarget_eq ptr
    rw [e]
    refine ⟨fun h1 => bind_of_error h1, fun h1 => ⟨fun h2 => ?_, fun h2 => ?_⟩⟩
    · rw [bind_of_ok h1, bind_of_ok h2]
      rfl
    · rw [bind_of_ok h1, bind_of_error h2]

/-- Settles O33: an operand in memory is the byte read at its effective address. -/
theorem plainOperandsAreReadable : Obligations.PlainOperandsAreReadable := by
  have inMemory : ∀ {o : Operand}, o.mode ≠ .accumulator → o.mode ≠ .immediate →
      o ≠ .acc ∧ ∀ v, o ≠ .imm v :=
    fun ha hi => ⟨fun e => ha (e ▸ rfl), fun _ e => hi (e ▸ rfl)⟩
  refine ⟨fun s v => rfl, fun s => rfl, fun s mid o ea ha hi he => ?_, fun s o ea v ha hi he hv => ?_⟩
  · obtain ⟨hacc, himm⟩ := inMemory ha hi
    rw [readOperand_mem hacc himm, bind_of_ok he]
  · obtain ⟨hacc, himm⟩ := inMemory ha hi
    exact readOperand_of_peek hacc himm he hv

/-! ## The branches -/

/-- The target of a branch as a signed sum (R90). -/
theorem branchTarget_eq (s : State) (d : Byte) :
    branchTarget s d = BitVec.ofInt 16 (((s.pc + 1).toNat : Int) + d.toInt) := by
  rw [BitVec.ofInt_add, BitVec.ofInt_natCast, BitVec.ofNat_toNat, BitVec.setWidth_eq]
  rfl

theorem hi_eq_iff {v w : Addr} : hi v = hi w ↔ v.toNat / 256 = w.toNat / 256 := by
  rw [← toNat_hi, ← toNat_hi, BitVec.toNat_inj]

/-- A branch on `f = b`, taken and not taken (45_control_flow.md R150). -/
theorem branch_completes {i : Instr} {f : Flag} {b : Bool} {d : Byte} {s : State} (hwf : WellFormed i)
    (he : exec i s = perform i (branch (fun s => s.flag f == b) d) s) :
    let next := s.pc + 1
    let target : Addr := BitVec.ofInt 16 ((next.toNat : Int) + d.toInt)
    if s.flag f = b then
      ∃ t, exec i s = .next t ∧ t.Jumped i s s.cpu target (if target.toNat / 256 = next.toNat / 256 then 1 else 2)
    else ∃ t, exec i s = .next t ∧ t.Completed i s s s.cpu := by
  intro next target
  rw [he]
  split
  case isTrue h =>
    have htarget : branchTarget s d = target := branchTarget_eq s d
    have hextra : (1 + if hi target ≠ hi next then 1 else 0) =
        if target.toNat / 256 = next.toNat / 256 then 1 else 2 := by
      simp only [ne_eq, hi_eq_iff, ite_not]
      split <;> rfl
    have hbody := branch_taken (cond := fun s => s.flag f == b) d (beq_iff_eq.mpr h)
    rw [htarget, hextra] at hbody
    exact perform_jumped hwf hbody rfl rfl rfl rfl
  case isFalse h =>
    have hbody := branch_not_taken (cond := fun s => s.flag f == b) d (beq_eq_false_iff_ne.mpr h)
    exact perform_completed hwf hbody rfl rfl rfl rfl

/-- Settles O51: each of the eight is a branch on its flag. -/
theorem branchesComplete : Obligations.BranchesComplete := by
  refine ⟨?bpl, ?bmi, ?bvc, ?bvs, ?bcc, ?bcs, ?bne, ?beq⟩
  all_goals exact fun d s => branch_completes (List.mem_singleton.mpr rfl) rfl

/-! ## The frame of an instruction that stores nothing and pushes nothing -/

/-- The devices less what a bus read may move: the two latches, the buffer, the Address pointer and the joypad cursor
(20_memory.md R48). -/
def Devices.stored (d : Devices) : Devices :=
  { d with scrollLatch := false, addr := 0, addrLatch := false, readBuf := 0, cursor := 0 }

/-- Between `s` and `t` nothing was stored. -/
def StoresNothing (s t : State) : Prop := t.devices.stored = s.devices.stored

theorem StoresNothing.composes : Composes StoresNothing where
  refl _ := rfl
  trans _ _ _ h g := g.trans h

theorem ReadEffect.storesNothing {s t : State} (h : ReadEffect s t) : StoresNothing s t := by
  simp only [StoresNothing, Devices.stored, State.devices, h.ram, h.ctrl, h.mask, h.oamAddr, h.scrollX, h.scrollY,
    h.vram, h.palette, h.oam, h.strobe, h.fault, h.launch]

/-- A read instruction reads its operand and updates registers (R101). -/
theorem exec_of_read {i : Instr} {o : Operand} (h : i.operandRead = some o) :
    ∃ f : Byte → State → State, (∀ s, exec i s = perform i (readThen o f) s) ∧
      ∀ m s, (f m s).devices = s.devices := by
  cases i <;> simp only [Instr.operandRead, reduceCtorEq] at h
  all_goals
    cases h
    exact ⟨_, fun _ => rfl, fun _ _ => rfl⟩

/-- A shift that stores nothing is the accumulator form, which changes registers and flags only. -/
theorem shift_storesNothing (k : Shift) {o : Operand} (h : (k.instr o).store = .none) :
    Keeps StoresNothing (shift o k.helper) := by
  obtain rfl : o = .acc := by cases k <;> simpa [Shift.instr, Instr.store] using h
  intro s
  rw [shift_acc (k.helper_eq s.a s)]
  exact rfl

/-- ALR as an update of registers: the shift sets C from bit 0 of `A & M` (R177). -/
theorem exec_alr (v : Byte) (s : State) : exec (.alr v) s = perform (.alr v) (registers fun s =>
    let m := s.a &&& v
    ((s.setFlag .c (m.getLsbD 0)).setA (m >>> 1)).setNZ (m >>> 1)) s := rfl

/-- An instruction is one performed rule, and the rule stores nothing. -/
def IsStoreless (i : Instr) : Prop :=
  ∃ body : Byte → Act Flow, (∀ s, exec i s = performOp i body s) ∧ ∀ op, Keeps StoresNothing (body op)

theorem storeless_of_perform {i : Instr} {x : Act Flow} (he : ∀ s, exec i s = perform i x s)
    (hx : Keeps StoresNothing x) : IsStoreless i := ⟨fun _ => x, he, fun _ => hx⟩

theorem storeless_of_registers {i : Instr} {f : State → State} (he : ∀ s, exec i s = perform i (registers f) s)
    (hf : ∀ s, (f s).devices = s.devices) : IsStoreless i :=
  storeless_of_perform he (registers_keeps StoresNothing.composes fun s => congrArg Devices.stored (hf s))

theorem storeless_of_performUnstable {i : Instr} {x : Act Flow} (he : ∀ s, exec i s = performUnstable i x s)
    (hx : Keeps StoresNothing x) : IsStoreless i :=
  ⟨_, he, fun op => StoresNothing.composes.bind (requireExecutable_keeps StoresNothing.composes op) fun _ => hx⟩

/-- The rule of an instruction that stores nothing and pushes nothing is a read, a branch or jump, a pull, or an update
of registers. -/
theorem storeless {i : Instr} (hstore : i.store = .none) (hpush : i.pushCount = 0)
    (hhigh : i.isUnstableStore = false) : IsStoreless i := by
  have hR := StoresNothing.composes
  have popped : Keeps StoresNothing pop := pop_keeps fun _ _ => rfl
  have popped16 : Keeps StoresNothing pop16 := pop16_keeps hR fun _ _ => rfl
  have pulled : Keeps StoresNothing pullStatus := pullStatus_keeps hR (fun _ _ => rfl) fun _ _ => rfl
  have jumped : ∀ target, Keeps StoresNothing (jump target 0) := fun target => jump_keeps hR (fun _ _ => rfl) target 0
  cases hread : i.operandRead with
  | some o =>
    obtain ⟨f, he, hf⟩ := exec_of_read hread
    exact storeless_of_perform he
      (readThen_keeps hR (fun _ _ h => h.storesNothing) o fun m s => congrArg Devices.stored (hf m s))
  | none =>
    cases i
    case tax | tay | txa | tya | tsx | txs | inx | iny | dex | dey | clc | sec | cli | sei | cld | sed | clv | sbcEB |
        anc | arr | sbx =>
      exact storeless_of_registers (fun _ => rfl) fun _ => rfl
    case nop | nopImplied | nopImmediate => exact storeless_of_perform (fun _ => rfl) (hR.pure _)
    case alr v => exact storeless_of_registers (exec_alr v) fun _ => rfl
    case jam => exact ⟨_, fun _ => rfl, fun _ _ => rfl⟩
    case ane | lxa => exact storeless_of_performUnstable (fun _ => rfl) fun _ => rfl
    case bpl | bmi | bvc | bvs | bcc | bcs | bne | beq =>
      exact storeless_of_perform (fun _ => rfl) (branch_keeps hR (fun _ _ => rfl) _ _)
    case jmp o =>
      exact storeless_of_perform (fun _ => rfl)
        (hR.bind ((effAddr_keeps o).mono fun _ _ h => h.storesNothing) jumped)
    case pla => exact storeless_of_perform (fun _ => rfl) (hR.bind popped fun _ _ => rfl)
    case plp => exact storeless_of_perform (fun _ => rfl) (hR.bind pulled fun _ => hR.pure _)
    case rts => exact storeless_of_perform (fun _ => rfl) (hR.bind popped16 fun _ => jumped _)
    case rti =>
      exact storeless_of_perform (fun _ => rfl)
        (hR.bind (hR.bind pulled fun _ => hR.bind popped16 fun _ _ => rfl) fun _ => hR.pure _)
    case asl => exact storeless_of_perform (fun _ => rfl) (shift_storesNothing .asl hstore)
    case lsr => exact storeless_of_perform (fun _ => rfl) (shift_storesNothing .lsr hstore)
    case rol => exact storeless_of_perform (fun _ => rfl) (shift_storesNothing .rol hstore)
    case ror => exact storeless_of_perform (fun _ => rfl) (shift_storesNothing .ror hstore)
    case lda | ldx | ldy | lax | adc | sbc | and | ora | eor | bit | cmp | cpx | cpy | nopMemory | las => cases hread
    case pha | php | jsr | brk => cases hpush
    case sha | shx | shy | tas => cases hhigh
    all_goals cases hstore

/-- Settles O56: the rule stores nothing, and the tick and the advance leave the devices. -/
theorem nonStoringFrame : Obligations.NonStoringFrame := by
  intro i s t hstore hpush hhigh h
  obtain ⟨body, he, hbody⟩ := storeless hstore hpush hhigh
  obtain ⟨op, f, u, -, hu, rfl⟩ := body_of_next (he s) h
  have hd : StoresNothing s (advance f i.length (tick (i.cycles + f.extra) u)) :=
    (congrArg Devices.stored (advance_tick_devices _ _ _ _)).trans ((hbody op).ok hu)
  refine ⟨fun k => ⟨?ram, ?vram, ?palette, ?oam⟩, ?ctrl, ?mask, ?oamAddr, ?scrollX, ?scrollY, ?strobe⟩
  case ram => exact congrArg (fun d => Memory.read d.ram k) hd
  case vram => exact congrArg (fun d => Memory.read d.vram k) hd
  case palette => exact congrArg (fun d => Memory.read d.palette k) hd
  case oam => exact congrArg (fun d => Memory.read d.oam k) hd
  case ctrl => exact congrArg Devices.ctrl hd
  case mask => exact congrArg Devices.mask hd
  case oamAddr => exact congrArg Devices.oamAddr hd
  case scrollX => exact congrArg Devices.scrollX hd
  case scrollY => exact congrArg Devices.scrollY hd
  case strobe => exact congrArg Devices.strobe hd

end Sys2Proof.Machine

/-! Proofs of the statements about loads, stores and register transfers, and about the faults of their accesses
(41_load_store_transfer.md, 43_arithmetic_logic.md R137 to R140, 60_exceptions.md R192). -/

namespace Sys2Proof.Machine

/-! ## Instructions that change registers only -/

/-- From `s` to `t` nothing has changed but registers other than PC, and flags. -/
structure RegistersOnly (s t : State) : Prop where
  pc : t.pc = s.pc
  devices : t.devices = s.devices
  clock : t.clock = s.clock

/-- `setNZ(v)` in the view of the CPU; after `setA v`, `setX v` or `setY v` this is `loadA`, `loadX` or `loadY`. -/
theorem State.cpu_setNZ (s : State) (v : Byte) : (s.setNZ v).cpu = { s.cpu with flags := s.cpu.flags.nz v } :=
  congrArg (Cpu.mk s.a s.x s.y s.sp) (s.flags_setNZ v)

/-- An update of registers always completes. -/
theorem registers_completes {i : Instr} {f : State → State} {s : State} {c : Cpu} (hi : WellFormed i)
    (he : ∀ s, exec i s = perform i (registers f) s) (hf : RegistersOnly s (f s)) (hc : (f s).cpu = c) :
    ∃ t, exec i s = .next t ∧ t.Completed i s s c := by
  rw [he]
  exact perform_completed hi rfl hc hf.pc hf.devices hf.clock

/-- A read instruction whose operand reads as `m` completes with its registers computed from `m` and those before it;
the read itself changes none of them (R101). -/
theorem readThen_completes {i : Instr} {o : Operand} {f : Byte → State → State} {s mid : State} {m : Byte}
    (g : Cpu → Cpu) (hi : WellFormed i) (he : ∀ s, exec i s = perform i (readThen o f) s)
    (hm : readOperand o s = .ok m mid) (hf : RegistersOnly mid (f m mid)) (hg : (f m mid).cpu = g mid.cpu) :
    ∃ t, exec i s = .next t ∧ t.Completed i s mid (g s.cpu) := by
  have hread : ReadEffect s mid := (readOperand_keeps o).ok hm
  rw [he]
  exact perform_completed hi (readThen_eq hm) (hg.trans (congrArg g hread.cpu)) (hf.pc.trans hread.pc) hf.devices
    hf.clock

/-- Settles O34: each of the four is a `readThen` that loads the byte read. -/
theorem loadsComplete : Obligations.LoadsComplete := by
  intro o s mid m h
  refine ⟨fun hi => ?lda, fun hi => ?ldx, fun hi => ?ldy, fun hi => ?lax⟩
  case lda => exact readThen_completes (·.loadA m) hi (fun _ => rfl) h ⟨rfl, rfl, rfl⟩ (State.cpu_setNZ _ m)
  case ldx => exact readThen_completes (·.loadX m) hi (fun _ => rfl) h ⟨rfl, rfl, rfl⟩ (State.cpu_setNZ _ m)
  case ldy => exact readThen_completes (·.loadY m) hi (fun _ => rfl) h ⟨rfl, rfl, rfl⟩ (State.cpu_setNZ _ m)
  case lax =>
    exact readThen_completes (fun c => { c.loadA m with x := m }) hi (fun _ => rfl) h ⟨rfl, rfl, rfl⟩
      (State.cpu_setNZ _ m)

/-- Settles O43: each is an update of registers, which ends in `setNZ` but for TXS. -/
theorem transfersAndIndexStepsComplete : Obligations.TransfersAndIndexStepsComplete := by
  intro s
  refine ⟨?tax, ?tay, ?txa, ?tya, ?tsx, ?txs, ?inx, ?iny, ?dex, ?dey⟩
  case txs => exact registers_completes (List.mem_singleton.mpr rfl) (fun _ => rfl) ⟨rfl, rfl, rfl⟩ rfl
  all_goals
    exact registers_completes (List.mem_singleton.mpr rfl) (fun _ => rfl) ⟨rfl, rfl, rfl⟩ (State.cpu_setNZ _ _)

/-! ## Stores -/

section
variable {i : Instr} {o : Operand} {s mid u : State} {ea : Addr}

/-- A write instruction stores its byte as the registers gave it before the address was found: finding the address
writes no register (R101). -/
theorem storedByte_eq (byte : Cpu → Byte) (ha : effAddr o s = .ok ea mid) : byte mid.cpu = byte s.cpu :=
  congrArg byte ((effAddr_keeps o).ok ha).cpu

/-- A write instruction whose store is made completes with every register as before. -/
theorem store_completes (byte : Cpu → Byte) (hi : WellFormed i)
    (he : ∀ s, exec i s = perform i (store o fun s => byte s.cpu) s) (ha : effAddr o s = .ok ea mid)
    (hw : busWrite ea (byte s.cpu) mid = .ok () u) : ∃ t, exec i s = .next t ∧ t.Completed i s u s.cpu := by
  have hwrite : WriteEffect s u :=
    WriteEffect.composes.trans _ _ _ ((effAddr_keeps o).ok ha).write ((busWrite_keeps _ _).ok hw)
  rw [← storedByte_eq byte ha] at hw
  rw [he]
  exact perform_completed hi (store_eq ha hw) hwrite.cpu hwrite.pc rfl rfl

/-- A write instruction whose store faults answers that fault. -/
theorem store_faults (byte : Cpu → Byte) {k : FaultKind} (hi : WellFormed i)
    (he : ∀ s, exec i s = perform i (store o fun s => byte s.cpu) s) (ha : effAddr o s = .ok ea mid)
    (hw : busWrite ea (byte s.cpu) mid = .error k u) : exec i s = .fault (.fatal k (u.setFault k)) := by
  rw [← storedByte_eq byte ha] at hw
  rw [he]
  exact perform_fault hi (store_error ha hw)

end

/-- Settles O39: each of the four is a `store` of a byte the registers give. -/
theorem storesComplete : Obligations.StoresComplete := by
  intro o s mid u ea ha
  refine ⟨fun hi hw => ?sta, fun hi hw => ?stx, fun hi hw => ?sty, fun hi hw => ?sax⟩
  case sta => exact store_completes Cpu.a hi (fun _ => rfl) ha hw
  case stx => exact store_completes Cpu.x hi (fun _ => rfl) ha hw
  case sty => exact store_completes Cpu.y hi (fun _ => rfl) ha hw
  case sax => exact store_completes (fun c => c.a &&& c.x) hi (fun _ => rfl) ha hw

/-! ## Faults of the accesses -/

/-- A read instruction whose operand read faults answers that fault. -/
theorem read_faults {i : Instr} {o : Operand} {s u : State} {k : FaultKind} (hi : WellFormed i)
    (hread : i.operandRead = some o) (h : readOperand o s = .error k u) :
    exec i s = .fault (.fatal k (u.setFault k)) := by
  obtain ⟨f, he, -⟩ := exec_of_read hread
  rw [he]
  exact perform_fault hi (readThen_error h)

/-- JMP, where a read of its pointer faults, answers that fault (R145). -/
theorem jmp_faults {o : Operand} {s u : State} {k : FaultKind} (hi : WellFormed (.jmp o))
    (h : effAddr o s = .error k u) : exec (.jmp o) s = .fault (.fatal k (u.setFault k)) :=
  perform_fault hi (bind_of_error h)

/-- A read-modify-write instruction whose read faults answers that fault. -/
theorem modify_read_faults {i : Instr} {o : Operand} {s s1 u : State} {ea : Addr} {k : FaultKind} (hi : WellFormed i)
    (hmod : i.store = .modify o) (ha : effAddr o s = .ok ea s1) (h : busRead ea s1 = .error k u) :
    exec i s = .fault (.fatal k (u.setFault k)) := by
  obtain ⟨f, g, he, -, -⟩ := exec_of_modify hmod
  rw [he]
  exact perform_fault hi (modify_read_error ha h)

/-- A read-modify-write instruction whose store faults answers that fault. Its result `r` has been computed by then,
in `s3`. -/
theorem modify_write_faults {i : Instr} {o : Operand} {f : Byte → Act Byte} {g : Byte → State → State}
    {s s1 s2 s3 u : State} {ea : Addr} {m r : Byte} {k : FaultKind} (hi : WellFormed i)
    (he : ∀ s, exec i s = perform i (modify o f g) s) (ha : effAddr o s = .ok ea s1) (hm : busRead ea s1 = .ok m s2)
    (hf : f m s2 = .ok r s3) (hw : busWrite ea r s3 = .error k u) :
    exec i s = .fault (.fatal k (u.setFault k)) := by
  rw [he]
  exact perform_fault hi (modify_write_error ha hm hf hw)

/-- A shift of memory is one read-modify-write with its helper (44_shift_rotate.md). -/
theorem exec_shift_memory (sh : Shift) {o : Operand} (h : o ≠ .acc) (s : State) :
    exec (sh.instr o) s = perform (sh.instr o) (modify o sh.helper fun r s => s.setNZ r) s := by
  rw [← shift_mem h]
  cases sh <;> rfl

/-- A composition is one read-modify-write with the helper of its shift, then its update of A (R171 to R174). -/
theorem exec_composition (sh : Shift) (o : Operand) : ∃ g : Byte → State → State, ∀ s,
    exec (sh.composition o) s = perform (sh.composition o) (modify o sh.helper g) s := by
  cases sh <;> exact ⟨_, fun _ => rfl⟩

/-- What a shift of memory computes from the byte read: its carry in is C as it was before the instruction, for the
accesses so far write no flag. -/
theorem helper_after_read (sh : Shift) {o : Operand} {s s1 s2 : State} {ea : Addr} {m : Byte}
    (ha : effAddr o s = .ok ea s1) (hm : busRead ea s1 = .ok m s2) :
    sh.helper m s2 = .ok (sh.result (s.flag .c) m) (s2.setFlag .c (sh.carryOut m)) := by
  have hread : ReadEffect s s2 :=
    ReadEffect.composes.trans _ _ _ ((effAddr_keeps o).ok ha) ((busRead_keeps ea).ok hm)
  rw [← hread.flag .c]
  exact sh.helper_eq m s2

/-- Settles O60, one shape of instruction at a time: the fault of an access is the fault of its shape, and the
instruction answers it. -/
theorem accessFaultsAreAnswered : Obligations.AccessFaultsAreAnswered := by
  intro o s s1 s2 u ea m k faults
  refine ⟨fun i => read_faults, jmp_faults, fun ha => ⟨?sta, ?stx, ?sty, ?sax, ?read, fun hm => ?_⟩⟩
  case sta => exact fun hi => store_faults Cpu.a hi (fun _ => rfl) ha
  case stx => exact fun hi => store_faults Cpu.x hi (fun _ => rfl) ha
  case sty => exact fun hi => store_faults Cpu.y hi (fun _ => rfl) ha
  case sax => exact fun hi => store_faults (fun c => c.a &&& c.x) hi (fun _ => rfl) ha
  case read => exact fun i hi hmod => modify_read_faults hi hmod ha
  refine ⟨?plus, ?minus, ?shift⟩
  case plus | minus =>
    intro hw
    exact ⟨fun hi => modify_write_faults hi (fun _ => rfl) ha hm rfl hw,
      fun hi => modify_write_faults hi (fun _ => rfl) ha hm rfl hw⟩
  case shift =>
    intro sh hacc hw
    have hf := helper_after_read sh ha hm
    obtain ⟨g, hcomp⟩ := exec_composition sh o
    exact ⟨fun hi => modify_write_faults hi (exec_shift_memory sh hacc) ha hm hf hw,
      fun hi => modify_write_faults hi hcomp ha hm hf hw⟩

end Sys2Proof.Machine

/-! Proofs of the statements about the stack instructions (42_stack.md). -/

namespace Sys2Proof.Machine

/-- The flags of a pulled status, one flag at a time (R125). -/
theorem State.flags_setP_pulledStatus (s : State) (v : Byte) :
    (s.setP (pulledStatus v s.p)).flags = s.flags.pulled v := by
  simp only [State.flags, State.flag_setP, pulledStatus_flag]
  rfl

/-- A pulled status in the view of the CPU: it writes flags and no register. -/
theorem State.cpu_setP_pulledStatus (s : State) (v : Byte) :
    (s.setP (pulledStatus v s.p)).cpu = { s.cpu with flags := s.flags.pulled v } :=
  congrArg (Cpu.mk s.a s.x s.y s.sp) (s.flags_setP_pulledStatus v)

/-- An instruction whose rule is one push completes: it moves S down and stores one RAM byte (R18). -/
theorem push_completes {i : Instr} {body : Act Flow} {s : State} {v : Byte} (hi : WellFormed i)
    (he : exec i s = perform i body s) (hb : body s = .ok .next (s.withPushed [v])) :
    ∃ t, exec i s = .next t ∧ t.Completed i s (s.withPushed [v]) { s.cpu with sp := s.sp - 1 } := by
  rw [he]
  exact perform_completed hi hb rfl rfl rfl rfl

/-- Settles O44: PHA and PHP are one push each; PLA and PLP are one pop, then an update of A and flags. -/
theorem stackInstructionsComplete : Obligations.StackInstructionsComplete := by
  intro s
  refine ⟨?pha, ?php, ?pla, ?plp⟩
  case pha => exact push_completes (List.mem_singleton.mpr rfl) rfl (pha_body s)
  case php => exact push_completes (List.mem_singleton.mpr rfl) rfl (php_body s)
  case pla =>
    have hi : WellFormed .pla := List.mem_singleton.mpr rfl
    have hcpu := State.cpu_setNZ ((s.setSp (s.sp + 1)).setA (s.stackByte 1)) (s.stackByte 1)
    exact perform_completed hi (pla_body s) hcpu rfl rfl rfl
  case plp =>
    have hi : WellFormed .plp := List.mem_singleton.mpr rfl
    have hcpu := State.cpu_setP_pulledStatus (s.setSp (s.sp + 1)) (s.stackByte 1)
    exact perform_completed hi (plp_body s) hcpu rfl rfl rfl

end Sys2Proof.Machine

/-! Proofs of the statements about arithmetic, logic, compares, increments and decrements (43_arithmetic_logic.md, and
47_undocumented.md R169, R170, R175 and R179). -/

namespace Sys2Proof.Machine

/-! ## Logic -/

/-- BIT's flags in the view of the CPU (R131). -/
def Cpu.bitTest (c : Cpu) (m : Byte) : Cpu :=
  { c with flags := { c.flags with z := decide (c.a &&& m = 0), n := m.getLsbD 7, v := m.getLsbD 6 } }

theorem State.bitTest_cpu (s : State) (m : Byte) : (s.bitTest m).cpu = s.cpu.bitTest m :=
  congrArg (Cpu.mk s.a s.x s.y s.sp) (s.bitTest_flags m)

/-- Settles O35: each of the four is a `readThen`; three load A with the operation's result, BIT writes flags only. -/
theorem logicCompletes : Obligations.LogicCompletes := by
  intro o s mid m h
  refine ⟨fun hi => ?and, fun hi => ?ora, fun hi => ?eor, fun hi => ?bit⟩
  case and =>
    exact readThen_completes (fun c => c.loadA (c.a &&& m)) hi (fun _ => rfl) h ⟨rfl, rfl, rfl⟩ (State.cpu_setNZ _ _)
  case ora =>
    exact readThen_completes (fun c => c.loadA (c.a ||| m)) hi (fun _ => rfl) h ⟨rfl, rfl, rfl⟩ (State.cpu_setNZ _ _)
  case eor =>
    exact readThen_completes (fun c => c.loadA (c.a ^^^ m)) hi (fun _ => rfl) h ⟨rfl, rfl, rfl⟩ (State.cpu_setNZ _ _)
  case bit => exact readThen_completes (·.bitTest m) hi (fun _ => rfl) h ⟨rfl, rfl, rfl⟩ (State.bitTest_cpu _ m)

/-! ## Addition and subtraction -/

/-- Settles O36: ADC and SBC are a `readThen` of one addition each, $EB the same update without a read. -/
theorem addAndSubtractComplete : Obligations.AddAndSubtractComplete := by
  refine ⟨fun o s mid m h => ⟨fun hi => ?adc, fun hi => ?sbc⟩, fun v s => ?sbcEB⟩
  case adc => exact readThen_completes (·.addC m) hi (fun _ => rfl) h ⟨rfl, rfl, rfl⟩ (State.addC_cpu _ m)
  case sbc => exact readThen_completes (·.addC (~~~m)) hi (fun _ => rfl) h ⟨rfl, rfl, rfl⟩ (State.subC_cpu _ m)
  case sbcEB =>
    exact registers_completes (List.mem_singleton.mpr rfl) (fun _ => rfl) ⟨rfl, rfl, rfl⟩ (s.subC_cpu v)

section
variable (a m : Byte) (carry : Bool)

/-- Over the naturals, adding the complement is `256 + a - m` less the borrow (R127). -/
theorem add_complement_toNat :
    a.toNat + (~~~m).toNat + carry.toNat + (m.toNat + (1 - carry.toNat)) = 256 + a.toNat := by
  have hm := m.isLt
  have hcarry := Bool.toNat_le carry
  rw [BitVec.toNat_not]
  omega

/-- The byte that adding the complement gives is the difference modulo 256. -/
theorem add_complement_byte : BitVec.ofNat 8 (a.toNat + (~~~m).toNat + carry.toNat) =
    BitVec.ofInt 8 ((a.toNat : Int) - m.toNat - (1 - carry.toNat : Nat)) := by
  have hsum := add_complement_toNat a m carry
  apply BitVec.eq_of_toNat_eq
  rw [BitVec.toNat_ofNat, BitVec.toNat_ofInt]
  omega

/-- The carry out is the complement of the borrow. -/
theorem add_complement_carry :
    255 < a.toNat + (~~~m).toNat + carry.toNat ↔ m.toNat + (1 - carry.toNat) ≤ a.toNat := by
  have hsum := add_complement_toNat a m carry
  omega

/-- Over the signed values, adding the complement is exactly subtraction with borrow. -/
theorem add_complement_toInt :
    a.toInt + (~~~m).toInt + carry.toNat = a.toInt - m.toInt - (1 - carry.toNat : Nat) := by
  have hm := m.isLt
  have hcarry := Bool.toNat_le carry
  rw [toInt_eq m, toInt_eq (~~~m), BitVec.toNat_not]
  split <;> split <;> omega

end

/-- Settles O37: result, carry and overflow of the addition are each read as those of the difference. -/
theorem subtractionBorrows : Obligations.SubtractionBorrows := by
  intro c m
  simp only [Cpu.addC, Cpu.loadA, FlagValues.nz, add_complement_byte, add_complement_carry, add_complement_toInt,
    sign_eq]

/-! ## Compares -/

/-- A compare that also puts the difference in X, as SBX does (R179). -/
theorem State.cpu_compare_setX (s : State) (r m : Byte) :
    ((s.compare r m).setX (r - m)).cpu = { s.cpu.compare r m with x := r - m } :=
  congrArg (fun c : Cpu => { c with x := r - m }) (s.compare_cpu r m)

/-- Settles O38: the compares are a `readThen` that writes flags only; SBX compares without a read and writes X. -/
theorem comparesComplete : Obligations.ComparesComplete := by
  refine ⟨fun o s mid m h => ⟨fun hi => ?cmp, fun hi => ?cpx, fun hi => ?cpy⟩, fun v s => ?sbx⟩
  case cmp =>
    exact readThen_completes (fun c => c.compare c.a m) hi (fun _ => rfl) h ⟨rfl, rfl, rfl⟩ (State.compare_cpu _ _ m)
  case cpx =>
    exact readThen_completes (fun c => c.compare c.x m) hi (fun _ => rfl) h ⟨rfl, rfl, rfl⟩ (State.compare_cpu _ _ m)
  case cpy =>
    exact readThen_completes (fun c => c.compare c.y m) hi (fun _ => rfl) h ⟨rfl, rfl, rfl⟩ (State.compare_cpu _ _ m)
  case sbx =>
    exact registers_completes (List.mem_singleton.mpr rfl) (fun _ => rfl) ⟨rfl, rfl, rfl⟩ (s.cpu_compare_setX _ v)

/-! ## Increments and decrements of memory -/

section
variable {i : Instr} {o : Operand} {f : Byte → Act Byte} {g : Byte → State → State} {s s1 s2 s3 u : State} {ea : Addr}
  {m r : Byte}

/-- Finding the address and reading there have the effect of a read. -/
theorem effAddr_busRead_effect (ha : effAddr o s = .ok ea s1) (hm : busRead ea s1 = .ok m s2) : ReadEffect s s2 :=
  ReadEffect.composes.trans _ _ _ ((effAddr_keeps o).ok ha) ((busRead_keeps ea).ok hm)

/-- A read-modify-write instruction whose accesses are made completes with its registers computed from those its
result was computed with, in `s3`: the store changes none of them (R101). -/
theorem modify_completes (c : Cpu → Cpu) (hi : WellFormed i) (he : ∀ s, exec i s = perform i (modify o f g) s)
    (ha : effAddr o s = .ok ea s1) (hm : busRead ea s1 = .ok m s2) (hf : f m s2 = .ok r s3) (hpc : s3.pc = s2.pc)
    (hw : busWrite ea r s3 = .ok () u) (hg : RegistersOnly u (g r u)) (hc : (g r u).cpu = c u.cpu) :
    ∃ t, exec i s = .next t ∧ t.Completed i s u (c s3.cpu) := by
  have hwrite : WriteEffect s3 u := (busWrite_keeps ea r).ok hw
  have hupc : u.pc = s.pc := by rw [hwrite.pc, hpc, (effAddr_busRead_effect ha hm).pc]
  rw [he]
  exact perform_completed hi (modify_eq ha hm hf hw) (hc.trans (congrArg c hwrite.cpu)) (hg.pc.trans hupc) hg.devices
    hg.clock

/-- As `modify_completes`, where the result is computed from the byte alone: no register is written before the
update. -/
theorem modify_pure_completes (c : Cpu → Cpu) {result : Byte → Byte} (hi : WellFormed i)
    (he : ∀ s, exec i s = perform i (modify o (fun m => pure (result m)) g) s)
    (ha : effAddr o s = .ok ea s1) (hm : busRead ea s1 = .ok m s2) (hw : busWrite ea (result m) s2 = .ok () u)
    (hg : RegistersOnly u (g (result m) u)) (hc : (g (result m) u).cpu = c u.cpu) :
    ∃ t, exec i s = .next t ∧ t.Completed i s u (c s.cpu) := by
  rw [← (effAddr_busRead_effect ha hm).cpu]
  exact modify_completes c hi he ha hm rfl rfl hw hg hc

end

/-- Settles O40: each of the four is a `modify`; its update is `setNZ`, the subtraction or the compare of what was
stored. -/
theorem incrementsAndDecrementsComplete : Obligations.IncrementsAndDecrementsComplete := by
  intro o s s1 s2 u ea m ha hm
  refine ⟨fun hw => ⟨fun hi => ?inc, fun hi => ?isb⟩, fun hw => ⟨fun hi => ?dec, fun hi => ?dcp⟩⟩
  case inc =>
    exact modify_pure_completes (fun c => { c with flags := c.flags.nz (m + 1) }) hi (fun _ => rfl) ha hm hw
      ⟨rfl, rfl, rfl⟩ (State.cpu_setNZ u _)
  case isb =>
    exact modify_pure_completes (·.addC (~~~(m + 1))) hi (fun _ => rfl) ha hm hw ⟨rfl, rfl, rfl⟩ (State.subC_cpu u _)
  case dec =>
    exact modify_pure_completes (fun c => { c with flags := c.flags.nz (m - 1) }) hi (fun _ => rfl) ha hm hw
      ⟨rfl, rfl, rfl⟩ (State.cpu_setNZ u _)
  case dcp =>
    exact modify_pure_completes (fun c => c.compare c.a (m - 1)) hi (fun _ => rfl) ha hm hw ⟨rfl, rfl, rfl⟩
      (State.compare_cpu u _ _)

end Sys2Proof.Machine

/-! Proofs of the statements about shifts and rotates (44_shift_rotate.md). -/

namespace Sys2Proof.Machine

/-- A write of C in the view of the CPU. -/
theorem State.cpu_setFlag_c (s : State) (b : Bool) : (s.setFlag .c b).cpu = s.cpu.carry b :=
  congrArg (Cpu.mk s.a s.x s.y s.sp) (s.flags_setFlag_c b)

/-- `A <- v; setNZ(v)` in the view of the CPU. -/
theorem State.cpu_setA_setNZ (s : State) (v : Byte) : ((s.setA v).setNZ v).cpu = s.cpu.loadA v :=
  State.cpu_setNZ (s.setA v) v

/-- A read-modify-write instruction with the helper of a shift completes with its registers computed from those before
it, C replaced by the bit shifted out: C is written before the store, which changes no register. -/
theorem modify_helper_completes (k : Shift) (c : Cpu → Cpu) {i : Instr} {o : Operand} {g : Byte → State → State}
    {s s1 s2 u : State} {ea : Addr} {m : Byte} (hi : WellFormed i)
    (he : ∀ s, exec i s = perform i (modify o k.helper g) s) (ha : effAddr o s = .ok ea s1)
    (hm : busRead ea s1 = .ok m s2)
    (hw : busWrite ea (k.result (s.flag .c) m) (s2.setFlag .c (k.carryOut m)) = .ok () u)
    (hg : RegistersOnly u (g (k.result (s.flag .c) m) u)) (hc : (g (k.result (s.flag .c) m) u).cpu = c u.cpu) :
    ∃ t, exec i s = .next t ∧ t.Completed i s u (c (s.cpu.carry (k.carryOut m))) := by
  have hcpu : (s2.setFlag .c (k.carryOut m)).cpu = s.cpu.carry (k.carryOut m) := by
    rw [State.cpu_setFlag_c, (effAddr_busRead_effect ha hm).cpu]
  rw [← hcpu]
  exact modify_completes c hi he ha hm (helper_after_read k ha hm) rfl hw hg hc

/-- The accumulator form is the first of each shift's forms (R141 to R144). -/
theorem wellFormed_shift_acc (k : Shift) : WellFormed (k.instr .acc) := by
  cases k <;> exact List.mem_cons_self

/-- A shift of the accumulator is one update of registers: C, then A with its flags Z and N. -/
theorem exec_shift_acc (k : Shift) (s : State) :
    exec (k.instr .acc) s = perform (k.instr .acc) (shift .acc k.helper) s := by
  cases k <;> rfl

/-- Settles O41: on memory a shift is a `modify` with its helper that then sets Z and N; on the accumulator the helper
is applied to A. -/
theorem shiftsComplete : Obligations.ShiftsComplete := by
  refine ⟨fun k o s s1 s2 u ea m hacc hi ha hm hw => ?memory, fun k s => ?accumulator⟩
  case memory =>
    exact modify_helper_completes k (fun c => { c with flags := c.flags.nz (k.result (s.flag .c) m) }) hi
      (exec_shift_memory k hacc) ha hm hw ⟨rfl, rfl, rfl⟩ (State.cpu_setNZ u _)
  case accumulator =>
    have hcpu := (s.setFlag .c (k.carryOut s.a)).cpu_setA_setNZ (k.result (s.flag .c) s.a)
    rw [State.cpu_setFlag_c] at hcpu
    rw [exec_shift_acc]
    exact perform_completed (wellFormed_shift_acc k) (shift_acc (k.helper_eq s.a s)) hcpu rfl rfl rfl

end Sys2Proof.Machine

/-! Proofs of the statements about jumps, subroutines, BRK and RTI (45_control_flow.md, 60_exceptions.md R200). -/

namespace Sys2Proof.Machine

/-! ## Jumps and subroutines -/

/-- JMP redirects to its effective address, after what reading its pointer moves (R145). -/
theorem jmp_completes {o : Operand} {s mid : State} {ea : Addr} (hi : WellFormed (.jmp o))
    (ha : effAddr o s = .ok ea mid) : ∃ t, exec (.jmp o) s = .next t ∧ t.Jumped (.jmp o) mid s.cpu ea 0 :=
  perform_jumped hi (bind_of_ok ha) ((effAddr_keeps o).ok ha).cpu rfl rfl rfl

/-- Pushed bytes move S and leave every other CPU register. -/
theorem withPushed_cpu (s : State) (bs : List Byte) :
    (s.withPushed bs).cpu = { s.cpu with sp := s.sp - BitVec.ofNat 8 bs.length } := by
  simp [State.cpu, State.flags, withPushed_sp]

/-- JSR stores its return address in the stack page and redirects to its operand (R146). -/
theorem jsr_completes (target : Addr) (s : State) : ∃ t, exec (.jsr target) s = .next t ∧
    t.Jumped (.jsr target) (s.withPushed [hi (s.pc + 1), lo (s.pc + 1)]) { s.cpu with sp := s.sp - 2 } target 0 := by
  have hwf : WellFormed (.jsr target) := List.mem_singleton.mpr rfl
  have hcpu := withPushed_cpu s [hi (s.pc + 1), lo (s.pc + 1)]
  exact perform_jumped hwf (jsr_body target s) hcpu rfl rfl rfl

/-- RTS redirects past the address it pops (R147). -/
theorem rts_completes (s : State) : ∃ t, exec .rts s = .next t ∧
    t.Jumped .rts s { s.cpu with sp := s.sp + 2 } (w16 (s.stackByte 2) (s.stackByte 1) + 1) 0 := by
  have hwf : WellFormed .rts := List.mem_singleton.mpr rfl
  exact perform_jumped hwf (rts_body s) rfl rfl rfl rfl

/-- Settles O47: each of the three ends its rule with one redirect. -/
theorem jumpsAndSubroutinesComplete : Obligations.JumpsAndSubroutinesComplete :=
  ⟨fun _ _ _ _ => jmp_completes, jsr_completes, rts_completes⟩

/-! ## BRK and RTI -/

/-- Setting I in the view of the CPU. -/
theorem State.cpu_setFlag_i (s : State) (b : Bool) :
    (s.setFlag .i b).cpu = { s.cpu with flags := { s.cpu.flags with i := b } } :=
  congrArg (Cpu.mk s.a s.x s.y s.sp) (s.flags_setFlag_i b)

/-! A flag is neither a device nor a part of the clock. -/

theorem State.devices_setFlag (s : State) (f : Flag) (b : Bool) : (s.setFlag f b).devices = s.devices := rfl
theorem State.clock_setFlag (s : State) (f : Flag) (b : Bool) : (s.setFlag f b).clock = s.clock := rfl

/-- Settles O48: BRK is interrupt entry through the vector at $FFFE, RTI the return from it. -/
theorem breakAndReturnComplete : Obligations.BreakAndReturnComplete := by
  intro s
  refine ⟨?brk, ?rti⟩
  case brk =>
    have hwf : WellFormed .brk := List.mem_singleton.mpr rfl
    have hcpu : ((s.withPushed [hi (s.pc + 1), lo (s.pc + 1), s.p ||| 0x30]).setFlag .i true).cpu =
        { s.cpu with sp := s.sp - 3, flags := { s.flags with i := true } } := by
      rw [State.cpu_setFlag_i, withPushed_cpu]
      rfl
    exact perform_jumped hwf (brk_body s) hcpu rfl
      ((devices_setPc ..).trans (State.devices_setFlag ..)) ((clock_setPc ..).trans (State.clock_setFlag ..))
  case rti =>
    have hwf : WellFormed .rti := List.mem_singleton.mpr rfl
    have hcpu := State.cpu_setP_pulledStatus (s.setSp (s.sp + 3)) (s.stackByte 1)
    exact perform_jumped hwf (rti_body s) hcpu rfl rfl rfl

/-! ## A return undoes its call -/

/-- A pushed byte stands in the stack page, above the bytes pushed after it, as long as S has not come round. -/
theorem withPushed_cons_stackByte (s : State) (b : Byte) {bs : List Byte} (h : bs.length < 256) :
    (s.withPushed (b :: bs)).stackByte (BitVec.ofNat 8 (bs.length + 1)) = b := by
  have hsp : (s.withPushed (b :: bs)).sp + BitVec.ofNat 8 (bs.length + 1) = s.sp := by
    rw [withPushed_sp]
    exact sub_add_cancel s.sp _
  have hbelow : ∀ j < bs.length, 0x100 + s.sp.toNat ≠ 0x100 + (s.sp - 1 - BitVec.ofNat 8 j).toNat := by
    intro j hj
    have hlt := s.sp.isLt
    rw [sub_one_sub, BitVec.toNat_sub, BitVec.toNat_ofNat]
    omega
  rw [State.stackByte, hsp]
  exact (withPushed_read ((s.setRam (0x100 + s.sp.toNat) b).setSp (s.sp - 1)) bs _ hbelow).trans
    (Memory.read_write_self s.ram _ b)

/-- The address `push16` stores is the one `pop16` reads, high byte above low byte. -/
theorem withPushed_pushed_address (s : State) (w : Addr) :
    w16 ((s.withPushed [hi w, lo w]).stackByte 2) ((s.withPushed [hi w, lo w]).stackByte 1) = w := by
  have hhi : (s.withPushed [hi w, lo w]).stackByte 2 = hi w := withPushed_cons_stackByte s _ (by simp)
  have hlo : (s.withPushed [hi w, lo w]).stackByte 1 = lo w := withPushed_stackByte (s.withPushed [hi w]) _
  rw [hhi, hlo, w16_hi_lo]

/-- A byte of the stack page is one of the RAM at S. -/
theorem State.stackByte_congr {s t : State} (hd : t.devices = s.devices) (hsp : t.sp = s.sp) (n : Byte) :
    t.stackByte n = s.stackByte n := by
  rw [State.stackByte, State.stackByte, hsp, show t.ram = s.ram from congrArg Devices.ram hd]

/-- Settles O49: RTS pops the address JSR pushed, and moves S back over it. -/
theorem returnUndoesCall : Obligations.ReturnUndoesCall := by
  intro target s
  obtain ⟨t, hjsr, hcpu, -, hdev, -⟩ := jsr_completes target s
  obtain ⟨u, hrts, hcpu', hpc', -, -⟩ := rts_completes (t.setPc (t.pc + 1))
  have hsp : t.sp = s.sp - 2 := congrArg Cpu.sp hcpu
  have hstack (n : Byte) : (t.setPc (t.pc + 1)).stackByte n =
      (s.withPushed [hi (s.pc + 1), lo (s.pc + 1)]).stackByte n :=
    State.stackByte_congr hdev (hsp.trans (withPushed_sp s [hi (s.pc + 1), lo (s.pc + 1)]).symm) n
  refine ⟨t, u, hjsr, hrts, ?pc, ?cpu⟩
  case pc =>
    rw [hpc', hstack, hstack, withPushed_pushed_address, BitVec.add_assoc]
    rfl
  case cpu =>
    have hsp' : t.sp + 2 = s.sp := by rw [hsp, sub_add_cancel]
    calc u.cpu = { t.cpu with sp := t.sp + 2 } := hcpu'
      _ = s.cpu := by rw [hcpu, hsp']; rfl

end Sys2Proof.Machine

/-! Proofs of the statement about the flag instructions and the NOPs (46_flags_nop.md, 47_undocumented.md R181 to
R183). -/

namespace Sys2Proof.Machine

/-- An instruction whose rule is one write of a flag completes: the write changes the flags and no register. -/
theorem setFlag_completes {i : Instr} {f : Flag} {b : Bool} {s : State} {flags : FlagValues} (hi : WellFormed i)
    (he : ∀ s, exec i s = perform i (registers fun s => s.setFlag f b) s) (hf : (s.setFlag f b).flags = flags) :
    ∃ t, exec i s = .next t ∧ t.Completed i s s { s.cpu with flags := flags } :=
  registers_completes hi he ⟨rfl, State.devices_setFlag s f b, State.clock_setFlag s f b⟩
    (congrArg (Cpu.mk s.a s.x s.y s.sp) hf)

/-- An instruction whose rule does nothing completes: only the tick and the PC advance happen. -/
theorem noEffect_completes {i : Instr} (s : State) (hi : WellFormed i)
    (he : ∀ s, exec i s = perform i (pure .next) s) :
    ∃ t, exec i s = .next t ∧ t.Completed i s s s.cpu := by
  rw [he]
  exact perform_completed hi rfl rfl rfl rfl rfl

/-- Settles O46: seven instructions are one flag write each, the NOPs but those on memory do nothing, and a NOP on
memory is a `readThen` that drops the byte read. -/
theorem flagInstructionsAndNopsComplete : Obligations.FlagInstructionsAndNopsComplete := by
  refine ⟨fun s => ⟨?clc, ?sec, ?cli, ?sei, ?cld, ?sed, ?clv, ?nop⟩, fun op s hi => ?nopImplied,
    fun op v s hi => ?nopImmediate, fun op m o s mid hi hm => ?nopMemory⟩
  case clc | sec => exact setFlag_completes (List.mem_singleton.mpr rfl) (fun _ => rfl) (s.flags_setFlag_c _)
  case cli | sei => exact setFlag_completes (List.mem_singleton.mpr rfl) (fun _ => rfl) (s.flags_setFlag_i _)
  case cld | sed => exact setFlag_completes (List.mem_singleton.mpr rfl) (fun _ => rfl) (s.flags_setFlag_d _)
  case clv => exact setFlag_completes (List.mem_singleton.mpr rfl) (fun _ => rfl) (s.flags_setFlag_v _)
  case nop => exact noEffect_completes s (List.mem_singleton.mpr rfl) fun _ => rfl
  case nopImplied => exact noEffect_completes s hi fun _ => rfl
  case nopImmediate => exact noEffect_completes s hi fun _ => rfl
  case nopMemory => exact readThen_completes id hi (fun _ => rfl) hm ⟨rfl, rfl, rfl⟩ rfl

end Sys2Proof.Machine

/-! Proofs of the statements about the undocumented instructions (47_undocumented.md R171 to R180, R185 to R191): the
compositions of a shift or an AND with an operation on A, and the unstable instructions. -/

namespace Sys2Proof.Machine

/-! ## Compositions -/

/-- Settles O42: each of the four is a `modify` with the helper of its shift; its update is the operation on A, which
finds in C the bit shifted out. -/
theorem shiftCompositionsComplete : Obligations.ShiftCompositionsComplete := by
  intro o s s1 s2 u ea m ha hm stored shifted r
  refine ⟨fun hi hw => ?slo, fun hi hw => ?rla, fun hi hw => ?sre, fun hi hw => ?rra⟩
  case slo =>
    exact modify_helper_completes .asl (fun c => c.loadA (c.a ||| r .asl)) hi (fun _ => rfl) ha hm hw ⟨rfl, rfl, rfl⟩
      (State.cpu_setA_setNZ u _)
  case rla =>
    exact modify_helper_completes .rol (fun c => c.loadA (c.a &&& r .rol)) hi (fun _ => rfl) ha hm hw ⟨rfl, rfl, rfl⟩
      (State.cpu_setA_setNZ u _)
  case sre =>
    exact modify_helper_completes .lsr (fun c => c.loadA (c.a ^^^ r .lsr)) hi (fun _ => rfl) ha hm hw ⟨rfl, rfl, rfl⟩
      (State.cpu_setA_setNZ u _)
  case rra =>
    exact modify_helper_completes .ror (·.addC (r .ror)) hi (fun _ => rfl) ha hm hw ⟨rfl, rfl, rfl⟩ (State.addC_cpu u _)

/-- A write of V in the view of the CPU. -/
theorem State.cpu_setFlag_v (s : State) (b : Bool) :
    (s.setFlag .v b).cpu = { s.cpu with flags := { s.cpu.flags with v := b } } :=
  congrArg (Cpu.mk s.a s.x s.y s.sp) (s.flags_setFlag_v b)

/-- The rotate right of ARR gives what ROR does: its carry in is C before the instruction (R144, R178). -/
theorem rotateRight_eq (s : State) (m : Byte) :
    (m >>> 1) ||| (carryByte (s.flag .c) <<< 7) = Shift.ror.result (s.flag .c) m :=
  (EStateM.Result.ok.inj (Shift.ror.helper_eq m s)).1

/-- The shift right of ALR gives what LSR does, result and carry (R142, R177). -/
theorem shiftRight_eq (s : State) (m : Byte) :
    m >>> 1 = Shift.lsr.result false m ∧
      s.setFlag .c (m.getLsbD 0) = s.setFlag .c (Shift.lsr.carryOut m) :=
  EStateM.Result.ok.inj (Shift.lsr.helper_eq m s)

/-- Settles O52: ANC, ALR and ARR are updates of registers, the last two with the results of LSR and ROR; LAS is a
`readThen`. -/
theorem andCompositionsComplete : Obligations.AndCompositionsComplete := by
  refine ⟨fun op v s hi => ?anc, fun v s => ?alr, fun v s => ?arr, fun a s mid m hm => ?las⟩
  case anc =>
    refine registers_completes hi (fun _ => rfl) ⟨rfl, rfl, rfl⟩ ?_
    rw [State.cpu_setFlag_c, State.cpu_setA_setNZ]
    rfl
  case alr =>
    obtain ⟨hresult, hcarry⟩ := shiftRight_eq s (s.a &&& v)
    refine registers_completes (List.mem_singleton.mpr rfl) (exec_alr v) ⟨rfl, rfl, rfl⟩ ?_
    dsimp only
    rw [State.cpu_setA_setNZ, hcarry, hresult, State.cpu_setFlag_c]
  case arr =>
    refine registers_completes (List.mem_singleton.mpr rfl) (fun _ => rfl) ⟨rfl, rfl, rfl⟩ ?_
    dsimp only
    rw [State.cpu_setFlag_v, State.cpu_setFlag_c, State.cpu_setA_setNZ, rotateRight_eq]
    rfl
  case las =>
    exact readThen_completes (fun c => { c.loadA (m &&& c.sp) with x := m &&& c.sp, sp := m &&& c.sp })
      (List.mem_singleton.mpr rfl) (fun _ => rfl) hm ⟨rfl, rfl, rfl⟩ (State.cpu_setNZ _ _)

/-! ## The unstable instructions under Formula -/

/-- Under Formula an unstable byte passes the opcode check (30_encoding.md R105). -/
theorem executable_formula {op : Byte} (h : op ∈ unstableBytes) : executable .formula op = true := by
  revert op
  decide

/-- Under Formula an unstable instruction is performed as any other (R185). -/
theorem exec_eq_perform_of_formula {i : Instr} {op : Byte} {s : State} {body : Act Flow}
    (he : exec i s = performUnstable i body s) (hf : s.launch.unstable = .formula) (hop : i.opcode = some op)
    (hm : op ∈ unstableBytes) : exec i s = perform i body s := by
  have hcheck : requireExecutable op s = .ok () s := by
    unfold requireExecutable
    rw [hf, executable_formula hm]
    rfl
  rw [he]
  unfold performUnstable perform
  rw [performOp_eq hop, performOp_eq hop, bind_of_ok hcheck]

/-- The opcode check changes nothing where it passes. -/
theorem requireExecutable_ok {op : Byte} {s t : State} {a : Unit} (h : requireExecutable op s = .ok a t) : t = s := by
  unfold requireExecutable at h
  split at h <;> cases h
  rfl

/-- Settles O53: the opcode check passes, and what remains is one update of registers. -/
theorem magicConstantInstructionsComplete : Obligations.MagicConstantInstructionsComplete := by
  intro v s hf
  refine ⟨?ane, ?lxa⟩
  case ane =>
    have hi : WellFormed (.ane v) := List.mem_singleton.mpr rfl
    rw [exec_eq_perform_of_formula (op := 0x8B) rfl hf rfl (by decide)]
    exact perform_completed hi rfl (State.cpu_setA_setNZ s _) rfl rfl rfl
  case lxa =>
    have hi : WellFormed (.lxa v) := List.mem_singleton.mpr rfl
    rw [exec_eq_perform_of_formula (op := 0xAB) rfl hf rfl (by decide)]
    exact perform_completed hi rfl (State.cpu_setNZ _ _) rfl rfl rfl

/-! ## The high-byte-AND stores -/

/-- The value of a high-byte-AND store, in natural numbers. -/
theorem highAndValue_eq (v : Byte) (base : Addr) :
    highAndValue v base = v &&& BitVec.ofNat 8 (base.toNat / 256 + 1) := by
  have h : hi base + 1 = BitVec.ofNat 8 (base.toNat / 256 + 1) := by
    rw [BitVec.ofNat_add, ← toNat_hi, BitVec.ofNat_toNat, BitVec.setWidth_eq]
    rfl
  rw [highAndValue, h]

/-- The address of a high-byte-AND store, in natural numbers: the page of the sum is compared with that of the
base. -/
theorem highAndAddr_eq (v : Byte) (base : Addr) (index : Byte) :
    highAndAddr v base index =
      if (base.toNat + index.toNat) % 65536 / 256 = base.toNat / 256 then
        BitVec.ofNat 16 ((base.toNat + index.toNat) % 65536)
      else w16 (highAndValue v base) (BitVec.ofNat 8 ((base.toNat + index.toNat) % 65536)) := by
  have hlo : ∀ w : Addr, BitVec.ofNat 8 w.toNat = lo w := fun w => rfl
  simp only [highAndAddr, ne_eq, hi_eq_iff, ite_not, ← toNat_add_setWidth, hlo, BitVec.ofNat_toNat, BitVec.setWidth_eq]

/-- The one shape of R188 to R191: from `s` the rule of `i` makes one high-byte-AND store, in a state `w` that has the
PC and the devices of `s`. -/
structure HighAndStores (i : Instr) (s w : State) (value : Byte) (base : Addr) (index : Byte) : Prop where
  opcode : ∀ op, i.opcode = some op → op ∈ unstableBytes
  rule : ∃ body, exec i s = performUnstable i body s ∧
    body s = (highAndStore value base index >>= fun _ => pure .next : Act Flow) w
  pc : w.pc = s.pc
  devices : w.devices = s.devices

theorem shx_stores (base : Addr) (s : State) : HighAndStores (.shx base) s s s.x base s.y :=
  ⟨fun _ h => by cases h; decide, ⟨_, rfl, rfl⟩, rfl, rfl⟩

theorem shy_stores (base : Addr) (s : State) : HighAndStores (.shy base) s s s.y base s.x :=
  ⟨fun _ h => by cases h; decide, ⟨_, rfl, rfl⟩, rfl, rfl⟩

/-- TAS makes its store in the state that has S written. -/
theorem tas_stores (base : Addr) (s : State) :
    HighAndStores (.tas base) s (s.setSp (s.a &&& s.x)) (s.a &&& s.x) base s.y :=
  ⟨fun _ h => by cases h; decide, ⟨_, rfl, rfl⟩, rfl, rfl⟩

theorem sha_opcode {o : Operand} {op : Byte} (h : (Instr.sha o).opcode = some op) : op ∈ unstableBytes := by
  cases o <;> cases h <;> decide

/-- SHA makes its store at the base its operand gives. -/
theorem sha_stores {o : Operand} {base : Addr} {s : State} (hb : shaBase o s = .ok base s) :
    HighAndStores (.sha o) s s (s.a &&& s.x) base s.y :=
  ⟨fun _ => sha_opcode, ⟨_, rfl, bind_of_ok hb⟩, rfl, rfl⟩

section
variable {i : Instr} {s t u w : State} {value : Byte} {base : Addr} {index : Byte}

/-- Under Formula a high-byte-AND store that can be made completes the instruction with the registers of `w`, and one
that faults is the instruction's fault (R185, R192). -/
theorem HighAndStores.answers (h : HighAndStores i s w value base index) (hf : s.launch.unstable = .formula)
    (hi : WellFormed i) :
    (busWrite (highAndAddr value base index) (highAndValue value base) w = .ok () u →
      ∃ t, exec i s = .next t ∧ t.Completed i s u w.cpu) ∧
    ∀ k, busWrite (highAndAddr value base index) (highAndValue value base) w = .error k u →
      exec i s = .fault (.fatal k (u.setFault k)) := by
  obtain ⟨op, hop⟩ := (wellFormed_iff i).mp hi
  obtain ⟨body, he, hbody⟩ := h.rule
  rw [exec_eq_perform_of_formula he hf hop (h.opcode op hop)]
  refine ⟨fun hw => ?_, fun k hw => perform_fault hi (hbody.trans (bind_of_error hw))⟩
  have hu : WriteEffect w u := (busWrite_keeps _ _).ok hw
  exact perform_completed hi (hbody.trans (bind_of_ok hw)) hu.cpu (hu.pc.trans h.pc) rfl rfl

/-- A high-byte-AND store that completed has made its one bus write. -/
theorem HighAndStores.write_of_next (h : HighAndStores i s w value base index) (ht : exec i s = .next t) :
    ∃ u, busWrite (highAndAddr value base index) (highAndValue value base) w = .ok () u ∧ t.devices = u.devices := by
  obtain ⟨body, he, hbody⟩ := h.rule
  obtain ⟨op, f, u, -, hu, rfl⟩ := body_of_next he ht
  obtain ⟨_, s', hcheck, hu⟩ := bind_eq_ok.mp hu
  rw [requireExecutable_ok hcheck, hbody] at hu
  obtain ⟨_, u', hw, hu⟩ := bind_eq_ok.mp hu
  cases hu
  exact ⟨u, hw, advance_tick_devices _ _ _ _⟩

/-- Where a write stored is a matter of the devices alone. -/
theorem StoreEffect.of_devices {ea : Addr} (h : StoreEffect ea w u) (hw : w.devices = s.devices)
    (ht : t.devices = u.devices) : StoreEffect ea s t := by
  have hoamAddr : w.ppu.oamAddr = s.ppu.oamAddr := congrArg Devices.oamAddr hw
  have haddr : w.ppu.addr = s.ppu.addr := congrArg Devices.addr hw
  have hlaunch : w.launch = s.launch := congrArg Devices.launch hw
  refine ⟨fun k hk => ?ram, fun k hk hdma => ?oam, fun k hk => ?vram, fun k hk => ?palette,
    fun hea hdma hjoy => ?devices⟩
  case ram =>
    change Memory.read t.devices.ram k = Memory.read s.devices.ram k
    rw [ht, ← hw]
    exact h.ram k hk
  case oam =>
    change Memory.read t.devices.oam k = Memory.read s.devices.oam k
    rw [ht, ← hw]
    exact h.oam k (hoamAddr ▸ hk) hdma
  case vram =>
    change Memory.read t.devices.vram k = Memory.read s.devices.vram k
    rw [ht, ← hw]
    exact h.vram k (by rwa [haddr, hlaunch])
  case palette =>
    change Memory.read t.devices.palette k = Memory.read s.devices.palette k
    rw [ht, ← hw]
    exact h.palette k (by rwa [haddr])
  case devices =>
    have hram : t.ram = u.ram := congrArg Devices.ram ht
    rw [ht, h.devices hea hdma hjoy, hw, hram]

end

/-- Settles O54: the statement's arithmetic is that of the model's address and value, the four instructions are
`HighAndStores`, and `answers` says what that shape does; TAS has S written before its store, which leaves S where it
faults. -/
theorem highByteAndStoresComplete : Obligations.HighByteAndStoresComplete := by
  simp only [Obligations.HighByteAndStoresComplete, ← highAndValue_eq, ← highAndAddr_eq]
  intro s u hf
  refine ⟨fun o base hi hbase => ?sha, fun base => ?shx, fun base => ?shy, fun base => ?tas⟩
  case sha =>
    have hb : shaBase o s = .ok base s := by
      rcases hbase with rfl | ⟨z, rfl, hz⟩
      · rfl
      · exact hz
    exact (sha_stores hb).answers hf hi
  case shx => exact (shx_stores base s).answers hf (List.mem_singleton.mpr rfl)
  case shy => exact (shy_stores base s).answers hf (List.mem_singleton.mpr rfl)
  case tas =>
    obtain ⟨hok, herror⟩ := (tas_stores base s).answers (u := u) hf (List.mem_singleton.mpr rfl)
    exact ⟨hok, fun k hw => ⟨herror k hw, (busWrite_error hw).sp⟩⟩

/-- Settles O59: the one bus write of the instruction stores where `StoreEffect` says. -/
theorem highByteAndStoringFrame : Obligations.HighByteAndStoringFrame := by
  intro i s t value base index hi ht ea slot
  have hstores : ∃ w, HighAndStores i s w value base index := by
    rcases hi with ⟨rfl, rfl, rfl⟩ | ⟨rfl, rfl, rfl⟩ | ⟨rfl, rfl, rfl⟩ | ⟨⟨o, rfl, hb⟩, rfl, rfl⟩
    · exact ⟨_, shx_stores base s⟩
    · exact ⟨_, shy_stores base s⟩
    · exact ⟨_, tas_stores base s⟩
    · exact ⟨_, sha_stores hb⟩
  obtain ⟨w, hw⟩ := hstores
  obtain ⟨u, hwrite, hdev⟩ := hw.write_of_next ht
  have h : StoreEffect ea s t := (busWrite_stores hwrite).of_devices hw.devices hdev
  exact ⟨h.ram, h.oam, h.vram, h.palette, h.devices⟩

end Sys2Proof.Machine

/-! Proofs of the statements about the run loop, the NMI, faults and time (60_exceptions.md). -/

namespace Sys2Proof.Machine

/-! ## What a step costs, and the PPU's phase -/

/-- Settles O14: a step of `n` cycles moves the position by `3 * n` dots around the frame. -/
theorem stepKeepsThePpuInPhase : Obligations.StepKeepsThePpuInPhase := by
  intro s t hclock hphase h
  obtain ⟨n, -, -, hst⟩ := step_next h
  obtain ⟨-, hpos⟩ := hst.clock hclock
  rw [State.InPhase] at hphase ⊢
  rw [Ppu.position, Ppu.position, hphase] at hpos
  rw [hpos, hst.cycles, Nat.mod_add_mod, ← Nat.mul_add]

/-- Settles O15: an instruction takes 2 to 8 cycles and NMI service 7 before it. -/
theorem stepCostIsBounded : Obligations.StepCostIsBounded := by
  intro s t h
  obtain ⟨n, h2, h8, hst⟩ := step_next h
  have hcycles := hst.cycles
  cases hedge : s.ppu.nmiEdge with
  | false =>
    rw [hedge, if_neg Bool.false_ne_true] at hcycles
    exact ⟨by omega, by omega, fun _ => by omega, nofun⟩
  | true =>
    rw [hedge, if_pos rfl] at hcycles
    exact ⟨by omega, by omega, nofun, fun _ => by omega⟩

/-! ## The NMI edge -/

theorem advance_ppu (f : Flow) (len : Nat) (s : State) : (advance f len s).ppu = s.ppu := by
  unfold advance
  split <;> rfl

/-- Settles O16: the rule's action leaves the edge, the PC advance too, and the tick raises it only with Control
bit 7 set. -/
theorem nmiEdgeNeedsTheEnableBit : Obligations.NmiEdgeNeedsTheEnableBit := by
  intro i s t h
  obtain ⟨f, u, hu, rfl⟩ := exec_next h
  have htick := tick_time (i.cycles + f.extra) u
  rw [advance_ppu, htick.ctrl, ← hu.nmiEdge]
  exact ⟨htick.edge, htick.edgeKept⟩

/-- NMI service, in the views of a state (R199). -/
theorem pollNmi_services {s : State} (h : s.ppu.nmiEdge = true) : ∃ t, pollNmi s = .ok () t ∧
    t.cpu = { s.cpu with sp := s.sp - 3, flags := { s.flags with i := true } } ∧ t.pc = s.vector nmiVector ∧
    t.devices = (s.withPushed [hi s.pc, lo s.pc, (s.p &&& 0xEF) ||| 0x20]).devices ∧
    t.clock = (tick 7 (s.setPpu { s.ppu with nmiEdge := false })).clock := by
  refine ⟨_, pollNmi_some h, ?cpu, rfl, ?devices, ?clock⟩
  case cpu =>
    rw [cpu_setPc, tick_cpu, State.cpu_setFlag_i, withPushed_cpu]
    rfl
  case devices => rw [devices_setPc, tick_devices]; rfl
  case clock =>
    rw [clock_setPc]
    refine tick_clock 7 ?_ ?_
    · rw [State.clock_setFlag]; rfl
    · rfl

/-- With no fault recorded, what a step does after the poll (R196). -/
theorem step_after_poll {s s0 : State} (hf : s.fault = none) (hpoll : pollNmi s = .ok () s0) :
    (∃ i t, fetch s0 = .ok i t ∧ step s = exec i t) ∨
      ∃ k t, fetch s0 = .error k t ∧ step s = .fault (.fatal k (t.setFault k)) := by
  rcases step_cases s with ⟨k, hk, -⟩ | ⟨-, s1, h1, hstep⟩
  · rw [hf] at hk
    cases hk
  · rw [hpoll] at h1
    cases h1
    exact hstep

/-- Settles O6: `pollNmi_services`, and `step` goes on with one fetch from the state that leaves. -/
theorem pendingNmiIsServicedBeforeTheFetch : Obligations.PendingNmiIsServicedBeforeTheFetch := by
  intro s hf h
  obtain ⟨t, hpoll, hcpu, hpc, hdev, hclock⟩ := pollNmi_services h
  refine ⟨t, hpoll, hcpu, hpc, hdev, hclock, ?_⟩
  rcases step_after_poll hf hpoll with ⟨i, u, hfetch, hstep⟩ | ⟨k, u, hfetch, hstep⟩
  · rw [hfetch]
    exact hstep
  · rw [hfetch]
    exact hstep

/-! ## A return undoes its interrupt -/

/-- A pull restores the flags of `s` from a byte that holds them, but for B and U, where B still stands and U was 1
(R125). -/
theorem pulled_eq_flags {s : State} {f : FlagValues} {v : Byte} (hb : f.b = s.flag .b) (hu : s.flag .u = true)
    (hv : ∀ g, g ≠ .b → g ≠ .u → v.getLsbD g.bit = s.flag g) : f.pulled v = s.flags := by
  simp only [FlagValues.pulled, State.flags, hb, hu, ← hv .c nofun nofun, ← hv .z nofun nofun, ← hv .i nofun nofun,
    ← hv .d nofun nofun, ← hv .v nofun nofun, ← hv .n nofun nofun, Flag.bit]

/-- RTI returns to the address under the pushed status, and takes the status back: from a state with the registers
and the stack that interrupt entry leaves, every register and flag comes back (R148, R200). -/
theorem rti_undoes_entry {s t : State} {ret : Addr} {pushed : Byte} (hs : s.StatusOk)
    (hcpu : t.cpu = { s.cpu with sp := s.sp - 3, flags := { s.flags with i := true } })
    (hdev : t.devices = (s.withPushed [hi ret, lo ret, pushed]).devices)
    (hpushed : ∀ f, f ≠ .b → f ≠ .u → pushed.getLsbD f.bit = s.flag f) :
    ∃ u, exec .rti t = .next u ∧ u.pc = ret ∧ u.cpu = s.cpu := by
  obtain ⟨u, hrti, hcpu', hpc', -, -⟩ := (breakAndReturnComplete t).2
  have hsp : t.sp = s.sp - 3 := congrArg Cpu.sp hcpu
  have hstack (n : Byte) : t.stackByte n = (s.withPushed [hi ret, lo ret, pushed]).stackByte n :=
    State.stackByte_congr hdev (hsp.trans (withPushed_sp s [hi ret, lo ret, pushed]).symm) n
  have h1 : t.stackByte 1 = pushed := (hstack 1).trans (withPushed_stackByte (s.withPushed [hi ret, lo ret]) pushed)
  have h2 : t.stackByte 2 = lo ret :=
    (hstack 2).trans (withPushed_cons_stackByte (s.withPushed [hi ret]) (lo ret) (bs := [pushed]) (by simp))
  have h3 : t.stackByte 3 = hi ret :=
    (hstack 3).trans (withPushed_cons_stackByte s (hi ret) (bs := [lo ret, pushed]) (by simp))
  have hb : t.flags.b = s.flag .b := congrArg (fun c => c.flags.b) hcpu
  have hflags : t.flags.pulled pushed = s.flags := pulled_eq_flags hb hs.2 hpushed
  refine ⟨u, hrti, ?pc, ?cpu⟩
  case pc => rw [hpc', h2, h3, w16_hi_lo]
  case cpu =>
    have hsp' : t.sp + 3 = s.sp := by rw [hsp, sub_add_cancel]
    rw [hcpu', h1, hflags, hsp', hcpu]
    rfl

/-- The status NMI service pushes: P but for B and U (R199). -/
theorem nmi_pushed_flag (p : Byte) (f : Flag) (hb : f ≠ .b) (hu : f ≠ .u) :
    ((p &&& 0xEF) ||| 0x20).getLsbD f.bit = p.getLsbD f.bit := by
  cases f
  case b => exact absurd rfl hb
  case u => exact absurd rfl hu
  all_goals simp [Flag.bit]

/-- The status BRK pushes: P but for B and U (R149). -/
theorem brk_pushed_flag (p : Byte) (f : Flag) (hb : f ≠ .b) (hu : f ≠ .u) :
    (p ||| 0x30).getLsbD f.bit = p.getLsbD f.bit := by
  cases f
  case b => exact absurd rfl hb
  case u => exact absurd rfl hu
  all_goals simp [Flag.bit]

/-- Settles O50: both entries leave the registers and the stack that `rti_undoes_entry` asks for. -/
theorem returnUndoesInterrupt : Obligations.ReturnUndoesInterrupt := by
  refine ⟨fun s t hs hedge hpoll => ?nmi, fun s hs => ?brk⟩
  case nmi =>
    obtain ⟨t', hpoll', hcpu, -, hdev, -⟩ := pollNmi_services hedge
    rw [hpoll'] at hpoll
    injection hpoll with _ ht
    subst ht
    exact rti_undoes_entry hs hcpu hdev (nmi_pushed_flag s.p)
  case brk =>
    obtain ⟨t, hbrk, hcpu, -, hdev, -⟩ := (breakAndReturnComplete s).1
    obtain ⟨u, hrti, hpc, hcpu'⟩ := rti_undoes_entry hs hcpu hdev (brk_pushed_flag s.p)
    exact ⟨t, u, hbrk, hrti, hpc, hcpu'⟩

/-! ## Why a step faults -/

/-- A fatal fault of a step, of its fetch or of its instruction, has its cause in the launch record. -/
theorem cause_of_step_fatal {s t : State} {k : FaultKind} (h : step s = .fault (.fatal k t)) : k.Cause s.launch := by
  rcases step_cases s with ⟨k', -, e⟩ | ⟨-, s0, h0, ⟨i, u, hf, e⟩ | ⟨k', u, hf, e⟩⟩
  · rw [e] at h; cases h
  · have hlaunch : u.launch = s.launch := (fetch_keeps_launch.ok hf).trans (pollNmi_step h0).launch
    rw [e] at h
    rcases exec_cases i u with ⟨-, e'⟩ | ⟨f, v, -, -, -, -, e'⟩ | ⟨k', v, -, -, -, hcause, e'⟩ <;> rw [e'] at h <;>
      cases h
    exact hlaunch ▸ hcause
  · rw [e] at h
    cases h
    exact (pollNmi_step h0).launch ▸ fetch_caused.error hf

/-! The slots a fault names, by their numbers (20_memory.md R52). -/

theorem ppuSlot_writeOnly {addr : Addr} (h : ppuSlot addr ∈ [PpuSlot.control, .mask, .oamAddr, .scroll, .address]) :
    addr.toNat % 8 ∈ [0, 1, 3, 5, 6] := by
  rw [ppuSlot_eq] at h
  have hlt : addr.toNat % 8 < 8 := Nat.mod_lt _ (by decide)
  generalize addr.toNat % 8 = n at h hlt
  revert h
  interval_cases n <;> decide

theorem ppuSlot_status {addr : Addr} (h : ppuSlot addr = .status) : addr.toNat % 8 = 2 := by
  rw [ppuSlot_eq] at h
  have hlt : addr.toNat % 8 < 8 := Nat.mod_lt _ (by decide)
  generalize addr.toNat % 8 = n at h hlt
  revert h
  interval_cases n <;> decide

/-- A byte that is not executable is a JAM byte, or an unstable one under Fatal (R105, R194). -/
theorem of_not_executable {u : UnstableMode} {op : Byte} (h : executable u op = false) :
    op ∈ jamBytes ∨ u = .fatal ∧ op ∈ unstableBytes := by
  unfold executable opClass at h
  by_cases hjam : op ∈ jamBytes
  · exact .inl hjam
  · rw [if_neg hjam] at h
    by_cases hunst : op ∈ unstableBytes
    · rw [if_pos hunst] at h
      cases u
      · exact .inr ⟨rfl, hunst⟩
      · cases h
    · rw [if_neg hunst] at h
      split_ifs at h

/-- Settles O18: `FaultKind.Cause` is the table, in the model's own terms of regions and slots. -/
theorem everyFaultHasItsCause : Obligations.EveryFaultHasItsCause := by
  intro s t k h
  have hcause := cause_of_step_fatal h
  cases k with
  | readWriteOnlyPpuRegister addr =>
    obtain ⟨hmode, hregion, hslot⟩ := hcause
    obtain ⟨hlow, hhigh⟩ := region_eq_ppu.mp hregion
    exact ⟨hmode, hlow, hhigh, ppuSlot_writeOnly hslot⟩
  | writeReadOnlyPpuRegister addr =>
    obtain ⟨hmode, hregion, hslot⟩ := hcause
    obtain ⟨hlow, hhigh⟩ := region_eq_ppu.mp hregion
    exact ⟨hmode, hlow, hhigh, ppuSlot_status hslot⟩
  | writeProgramMemory addr =>
    obtain ⟨hmode, hregion⟩ := hcause
    exact ⟨hmode, region_eq_prg.mp hregion⟩
  | chrWrite a =>
    obtain ⟨hmode, ha⟩ := hcause
    exact ⟨hmode, vaddr_le_chr.mp ha⟩
  | fourScreenMirroring a =>
    obtain ⟨hmirror, hchr, hnt⟩ := hcause
    rw [vaddr_le_chr] at hchr
    exact ⟨hmirror, Nat.not_lt.mp hchr, vaddr_le_nt.mp hnt⟩
  | unmappedOpcode op opaddr => exact of_not_executable hcause

/-! ## Time -/

theorem ppuDots_eq_iterate (n : Nat) (s : State) : ppuDots n s = ppuDot^[n] s := by
  induction n generalizing s with
  | zero => rfl
  | succ n ih => exact ih (ppuDot s)

/-! One dot, case by case (R205). -/

section
variable {s : State}

theorem ppuDot_inside (h : s.ppu.dot ≠ 340) : ppuDot s = s.setPpu { s.ppu with dot := s.ppu.dot + 1 } :=
  if_neg fun e => h (Nat.succ_injective e)

theorem ppuDot_vblank (hd : s.ppu.dot = 340) (hl : s.ppu.scanline = 240) :
    ppuDot s = vblEnter (s.setPpu { s.ppu with dot := 0, scanline := 241 }) := by
  simp [ppuDot, nextLine, dotsPerLine, vblankLine, linesPerFrame, hd, hl, vblEnter, hostFrame]

theorem ppuDot_wrap (hd : s.ppu.dot = 340) (hl : s.ppu.scanline = 261) :
    ppuDot s = vblLeave (s.setPpu { s.ppu with dot := 0, scanline := 0 }) := by
  simp [ppuDot, nextLine, dotsPerLine, vblankLine, linesPerFrame, hd, hl]
  rfl

theorem ppuDot_nextLine (hd : s.ppu.dot = 340) (h240 : s.ppu.scanline ≠ 240) (h261 : s.ppu.scanline ≠ 261) :
    ppuDot s = s.setPpu { s.ppu with dot := 0, scanline := s.ppu.scanline + 1 } := by
  simp [ppuDot, nextLine, dotsPerLine, vblankLine, linesPerFrame, hd, h240, h261]

end

/-- Settles O30: the dots of a tick are iterates of one dot, and one dot is one of four cases. -/
theorem tickAdvancesThePpuClock : Obligations.TickAdvancesThePpuClock := by
  refine ⟨fun n s => ppuDots_eq_iterate _ _, fun s hs => ?_⟩
  obtain ⟨hclock, hcycles, hpos⟩ := ppuDot_counters s hs
  have htime := ppuDot_time s
  refine ⟨hclock, hpos, htime.cpu, htime.pc, htime.devices, hcycles, ?_⟩
  split_ifs with h1 h2
  · rw [ppuDot_vblank h1.1 h1.2]
    exact ⟨rfl, rfl, rfl, rfl⟩
  · rw [ppuDot_wrap h2.1 h2.2]
    exact ⟨rfl, rfl, rfl, rfl⟩
  · by_cases hd : s.ppu.dot = 340
    · rw [ppuDot_nextLine hd (fun e => h1 ⟨hd, e⟩) fun e => h2 ⟨hd, e⟩]
      exact ⟨rfl, rfl, rfl, rfl⟩
    · rw [ppuDot_inside hd]
      exact ⟨rfl, rfl, rfl, rfl⟩

/-! ## The first vblank -/

/-- The cycle count takes no part in a dot. -/
theorem ppuDot_setCycles (n : Nat) (s : State) : ppuDot (s.setCycles n) = (ppuDot s).setCycles n := by
  by_cases hd : s.ppu.dot = 340
  · by_cases h240 : s.ppu.scanline = 240
    · rw [ppuDot_vblank hd h240, ppuDot_vblank (s := s.setCycles n) hd h240]
      rfl
    · by_cases h261 : s.ppu.scanline = 261
      · rw [ppuDot_wrap hd h261, ppuDot_wrap (s := s.setCycles n) hd h261]
        rfl
      · rw [ppuDot_nextLine hd h240 h261, ppuDot_nextLine (s := s.setCycles n) hd h240 h261]
        rfl
  · rw [ppuDot_inside hd, ppuDot_inside (s := s.setCycles n) hd]
    rfl

theorem ppuDots_setCycles (k n : Nat) (s : State) : ppuDots k (s.setCycles n) = (ppuDots k s).setCycles n := by
  induction k generalizing s with
  | zero => rfl
  | succ k ih => exact (congrArg (ppuDots k) (ppuDot_setCycles n s)).trans (ih (ppuDot s))

theorem ppuDots_add (j k : Nat) (s : State) : ppuDots (j + k) s = ppuDots k (ppuDots j s) := by
  simp only [ppuDots_eq_iterate]
  rw [Nat.add_comm, Function.iterate_add_apply]

/-- Two ticks in a row are one tick of their sum. -/
theorem tick_add (m n : Nat) (s : State) : tick (m + n) s = tick n (tick m s) := by
  have hdots : ppuPerCpu * (m + n) = ppuPerCpu * m + ppuPerCpu * n := Nat.mul_add ..
  have hcycles : s.cycles + (m + n) = s.cycles + m + n := (Nat.add_assoc ..).symm
  rw [tick.eq_def n, tick_cycles, tick, tick, hdots, hcycles, ppuDots_add, ← ppuDots_setCycles]
  rfl

/-- The vblank flag is set from the first dot of line 241 to the end of the frame. -/
def State.VblankInPlace (s : State) : Prop := s.ppu.vblank = true ↔ 241 * 341 ≤ s.ppu.position

theorem ppuDot_vblankInPlace {s : State} (hs : s.ClockOk) (h : s.VblankInPlace) : (ppuDot s).VblankInPlace := by
  obtain ⟨-, hpos, -, -, -, -, hcases⟩ := tickAdvancesThePpuClock.2 s hs
  obtain ⟨hd, hl⟩ := hs
  unfold State.VblankInPlace Ppu.position at *
  rw [hpos]
  split_ifs at hcases with h1 h2
  · rw [hcases.1]
    simp only [true_iff]
    omega
  · rw [hcases.1]
    simp only [Bool.false_eq_true, false_iff]
    omega
  · rw [hcases.1, h]
    omega

theorem ppuDots_vblankInPlace (n : Nat) {s : State} (hs : s.ClockOk) (h : s.VblankInPlace) :
    (ppuDots n s).VblankInPlace := by
  induction n generalizing s with
  | zero => exact h
  | succ n ih => exact ih (ppuDot_counters s hs).1 (ppuDot_vblankInPlace hs h)

theorem initial_position (l : Launch) (m : MemoryInit) : (State.initial l m).ppu.position = 0 := by
  simp [Ppu.position, State.initial, State.resetCpu, State.powerOn]

/-- From reset the vblank flag is told by the cycle count, through the position in the frame (R217). -/
theorem tick_initial_vblank (l : Launch) (m : MemoryInit) (n : Nat) :
    (tick n (State.initial l m)).ppu.vblank = true ↔ 241 * 341 ≤ 3 * n % 89342 := by
  have hclock : (State.initial l m).ClockOk := ⟨Nat.succ_pos _, Nat.succ_pos _⟩
  have hstart : (State.initial l m).VblankInPlace := by
    rw [State.VblankInPlace, initial_position]
    exact iff_of_false nofun (by omega)
  have h : (tick n (State.initial l m)).VblankInPlace := ppuDots_vblankInPlace _ hclock hstart
  obtain ⟨-, hpos⟩ := tick_counters n _ hclock
  rwa [State.VblankInPlace, hpos, initial_position, Nat.zero_add] at h

/-- Settles O31: cycle `n` of the first frame stands at dot `3 * n`, and line 241 begins at dot 82181. -/
theorem firstVblankEntry : Obligations.FirstVblankEntry := by
  refine ⟨tick_add, fun l m n => ⟨fun hn => ?_, ?_⟩⟩
  · have hframe : 3 * n % 89342 = 3 * n := Nat.mod_eq_of_lt (by omega)
    rw [tick_initial_vblank, hframe]
    omega
  · rw [← Bool.not_eq_true, tick_initial_vblank]
    decide

/-! ## What a faulting instruction leaves -/

/-- What a faulting instruction may have written before the access that faulted: S by TAS, C by a shift or a composition
of one, and what its reads moved (R192, 47_undocumented.md R191). -/
structure FaultEffect (i : Instr) (s t : State) : Prop where
  a : t.a = s.a
  x : t.x = s.x
  y : t.y = s.y
  sp : (∀ base, i ≠ .tas base) → t.sp = s.sp
  flag : ∀ f, f ≠ .c → t.flag f = s.flag f
  carry : (∀ (sh : Shift) (o : Operand), i ≠ sh.instr o ∧ i ≠ sh.composition o) → t.flag .c = s.flag .c
  stored : StoresNothing s t

theorem FaultEffect.composes (i : Instr) : Composes (FaultEffect i) where
  refl _ := ⟨rfl, rfl, rfl, fun _ => rfl, fun _ _ => rfl, fun _ => rfl, rfl⟩
  trans _ _ _ h g := ⟨g.a.trans h.a, g.x.trans h.x, g.y.trans h.y, fun e => (g.sp e).trans (h.sp e),
    fun f e => (g.flag f e).trans (h.flag f e), fun e => (g.carry e).trans (h.carry e), g.stored.trans h.stored⟩

theorem ReadEffect.faultEffect {s t : State} (h : ReadEffect s t) (i : Instr) : FaultEffect i s t :=
  ⟨h.a, h.x, h.y, fun _ => h.sp, fun f _ => h.flag f, fun _ => h.flag .c, h.storesNothing⟩

/-- The carry of a shift is written before its store. -/
theorem fault_carry {i : Instr} {sh : Shift} {o : Operand} (h : i = sh.instr o ∨ i = sh.composition o) (s : State)
    (b : Bool) : FaultEffect i s (s.setFlag .c b) where
  a := rfl
  x := rfl
  y := rfl
  sp _ := rfl
  flag f hf := by rw [State.flag_setFlag, if_neg hf]
  carry hne := by
    obtain ⟨h1, h2⟩ := hne sh o
    exact absurd h (not_or.mpr ⟨h1, h2⟩)
  stored := rfl

/-- An instruction is one performed rule, which leaves `FaultEffect` where it faults. -/
def FaultsCleanly (i : Instr) : Prop :=
  ∃ body : Byte → Act Flow, (∀ s, exec i s = performOp i body s) ∧ ∀ op, FaultLeaves (FaultEffect i) (body op)

section
variable {i : Instr} {x : Act Flow}

/-- A rule that leaves no more than its reads where it faults. -/
theorem faultsCleanly_of_reads (he : ∀ s, exec i s = perform i x s) (hx : FaultLeaves ReadEffect x) :
    FaultsCleanly i :=
  ⟨fun _ => x, he, fun _ s k u e => (hx s k u e).faultEffect i⟩

/-- A rule that always completes. -/
theorem faultsCleanly_of_ok (he : ∀ s, exec i s = perform i x s) (hx : ∀ s, ∃ f u, x s = .ok f u) : FaultsCleanly i :=
  faultsCleanly_of_reads he (.of_ok hx)

theorem faultsCleanly_of_unstable (he : ∀ s, exec i s = performUnstable i x s) (hx : FaultLeaves (FaultEffect i) x) :
    FaultsCleanly i :=
  ⟨_, he, fun op => requireExecutable_faultLeaves (FaultEffect.composes i) op hx⟩

theorem faultsCleanly_of_unstable_reads (he : ∀ s, exec i s = performUnstable i x s)
    (hx : FaultLeaves ReadEffect x) : FaultsCleanly i :=
  faultsCleanly_of_unstable he fun s k u e => (hx s k u e).faultEffect i

end

/-- A branch makes no access that could fault. -/
theorem branch_ok (cond : State → Bool) (d : Byte) (s : State) : ∃ f u, branch cond d s = .ok f u := by
  cases e : cond s with
  | true => exact ⟨_, _, branch_taken d e⟩
  | false => exact ⟨_, _, branch_not_taken d e⟩

theorem shift_faultsCleanly (sh : Shift) (o : Operand) : FaultsCleanly (sh.instr o) := by
  refine ⟨fun _ => shift o sh.helper, fun s => by cases sh <;> rfl, fun _ => ?_⟩
  exact shift_faultLeaves (FaultEffect.composes _) (fun _ _ h => h.faultEffect _) (fault_carry (.inl rfl)) sh o

theorem composition_faultsCleanly (sh : Shift) (o : Operand) : FaultsCleanly (sh.composition o) := by
  obtain ⟨g, he⟩ := exec_composition sh o
  exact ⟨_, he, fun _ => modify_faultLeaves (FaultEffect.composes _) (fun _ _ h => h.faultEffect _) o
    (helper_keeps sh (fault_carry (.inr rfl))) g⟩

/-- The store of SHA, SHX and SHY is the last access of its rule, and the rule writes nothing before it. -/
theorem highAnd_faultLeaves (base : Addr) (v index : State → Byte) :
    FaultLeaves ReadEffect (getS v >>= fun value => getS index >>= fun n => highAndStore value base n >>= fun _ =>
      (pure Flow.next : Act Flow)) :=
  have hR := ReadEffect.composes
  .bind hR (hR.getS v) fun value => .bind hR (hR.getS index) fun n =>
    .then (highAndStore_faultLeaves value base n) fun _ _ => ⟨_, _, rfl⟩

/-- TAS writes S, then makes the same store. -/
theorem tas_faultsCleanly (base : Addr) : FaultsCleanly (.tas base) := by
  have hR := FaultEffect.composes (.tas base)
  have hsp : ∀ s : State, FaultEffect (.tas base) s (s.setSp (s.a &&& s.x)) := fun s =>
    ⟨rfl, rfl, rfl, fun h => absurd rfl (h base), fun _ _ => rfl, fun _ => rfl, rfl⟩
  exact faultsCleanly_of_unstable (fun _ => rfl) (.bind hR (keeps_setS hsp) fun _ s k u e =>
    (highAnd_faultLeaves base (·.sp) (·.y) s k u e).faultEffect _)

/-- The rule of an instruction that can fault is a read, a store, a read-modify-write, JMP or a rule behind the opcode
check. -/
theorem faultsCleanly (i : Instr) : FaultsCleanly i := by
  have hR := ReadEffect.composes
  cases hread : i.operandRead with
  | some o =>
    obtain ⟨f, he, -⟩ := exec_of_read hread
    exact faultsCleanly_of_reads he (readThen_faultLeaves o f)
  | none =>
    cases i
    case lda | ldx | ldy | lax | adc | sbc | and | ora | eor | bit | cmp | cpx | cpy | nopMemory | las => cases hread
    case sta | stx | sty | sax => exact faultsCleanly_of_reads (fun _ => rfl) (store_faultLeaves _ _)
    case inc o | dec o | dcp o | isb o =>
      exact faultsCleanly_of_reads (fun _ => rfl) (modify_faultLeaves hR (fun _ _ h => h) o (fun _ => hR.pure _) _)
    case asl o => exact shift_faultsCleanly .asl o
    case lsr o => exact shift_faultsCleanly .lsr o
    case rol o => exact shift_faultsCleanly .rol o
    case ror o => exact shift_faultsCleanly .ror o
    case slo o => exact composition_faultsCleanly .asl o
    case rla o => exact composition_faultsCleanly .rol o
    case sre o => exact composition_faultsCleanly .lsr o
    case rra o => exact composition_faultsCleanly .ror o
    case jmp o =>
      exact faultsCleanly_of_reads (fun _ => rfl) (.then (.of_keeps (effAddr_keeps o)) fun _ _ => ⟨_, _, rfl⟩)
    case bpl | bmi | bvc | bvs | bcc | bcs | bne | beq => exact faultsCleanly_of_ok (fun _ => rfl) (branch_ok _ _)
    case jam op => exact ⟨_, fun _ => rfl, fun _ s k u e => by cases e; exact (FaultEffect.composes _).refl s⟩
    case ane | lxa => exact faultsCleanly_of_unstable (fun _ => rfl) (.of_ok fun _ => ⟨_, _, rfl⟩)
    case sha o =>
      exact faultsCleanly_of_unstable_reads (fun _ => rfl)
        (.bind hR (shaBase_keeps hR o) fun base => highAnd_faultLeaves base _ _)
    case shx base | shy base =>
      exact faultsCleanly_of_unstable_reads (fun _ => rfl) (highAnd_faultLeaves base _ _)
    case tas base => exact tas_faultsCleanly base
    case pha => exact faultsCleanly_of_ok (fun _ => rfl) fun s => ⟨_, _, pha_body s⟩
    case php => exact faultsCleanly_of_ok (fun _ => rfl) fun s => ⟨_, _, php_body s⟩
    case pla => exact faultsCleanly_of_ok (fun _ => rfl) fun s => ⟨_, _, pla_body s⟩
    case plp => exact faultsCleanly_of_ok (fun _ => rfl) fun s => ⟨_, _, plp_body s⟩
    case jsr target => exact faultsCleanly_of_ok (fun _ => rfl) fun s => ⟨_, _, jsr_body target s⟩
    case rts => exact faultsCleanly_of_ok (fun _ => rfl) fun s => ⟨_, _, rts_body s⟩
    case rti => exact faultsCleanly_of_ok (fun _ => rfl) fun s => ⟨_, _, rti_body s⟩
    case brk => exact faultsCleanly_of_ok (fun _ => rfl) fun s => ⟨_, _, brk_body s⟩
    all_goals exact faultsCleanly_of_ok (fun _ => rfl) fun _ => ⟨_, _, rfl⟩

/-- Where nothing was stored, the devices are as before but for what a read moves. -/
theorem StoresNothing.devices_eq {s u : State} (h : StoresNothing s u) : u.devices =
    { s.devices with
      readBuf := u.ppu.readBuf, addr := u.ppu.addr, addrLatch := u.ppu.addrLatch,
      scrollLatch := u.ppu.scrollLatch, cursor := u.joy.cursor } :=
  congrArg (fun d : Devices =>
    { d with
      readBuf := u.ppu.readBuf, addr := u.ppu.addr, addrLatch := u.ppu.addrLatch,
      scrollLatch := u.ppu.scrollLatch, cursor := u.joy.cursor }) h

/-- The registers and flags a fault leaves, but for S and C. -/
theorem FaultEffect.cpu {i : Instr} {s u : State} (h : FaultEffect i s u) :
    u.cpu = { s.cpu with sp := u.sp, flags := { s.flags with c := u.flag .c } } := by
  have hflag (f : Flag) (hf : f ≠ .c) := h.flag f hf
  simp only [State.cpu, State.flags, h.a, h.x, h.y, hflag .z nofun, hflag .i nofun, hflag .d nofun, hflag .b nofun,
    hflag .u nofun, hflag .v nofun, hflag .n nofun]

/-- A fatal fault of an instruction leaves PC, and beyond that what the instruction's lists name (R192). -/
theorem exec_fatal_pc {i : Instr} {s t : State} {k : FaultKind} (h : exec i s = .fault (.fatal k t)) :
    ∃ u, BodyEffect i s u ∧ u.pc = s.pc ∧ t = u.setFault k := by
  rcases exec_cases i s with ⟨-, e⟩ | ⟨f, u, -, -, -, -, e⟩ | ⟨k', u, -, hu, hpc, -, e⟩ <;> rw [e] at h <;> cases h
  exact ⟨u, hu, hpc, rfl⟩

/-- Settles O17: PC and the clock are as before by what every instruction keeps where it faults, the registers, the
flags and the devices by `FaultEffect`. -/
theorem faultSkipsTickAndAdvance : Obligations.FaultSkipsTickAndAdvance := by
  intro i s t k h
  obtain ⟨body, he, hbody⟩ := faultsCleanly i
  obtain ⟨v, hv, hpc, ht⟩ := exec_fatal_pc h
  obtain ⟨u, rfl, hu⟩ := fault_of_body (he s) hbody h
  refine ⟨?pc, ?cycles, ?dot, ?scanline, ?nmiEdge, ?buttons, ?frames, hu.cpu, hu.sp, hu.carry, ?devices⟩
  case pc => exact (congrArg State.pc ht).trans hpc
  case cycles => exact (congrArg State.cycles ht).trans hv.cycles
  case dot => exact (congrArg (·.ppu.dot) ht).trans hv.dot
  case scanline => exact (congrArg (·.ppu.scanline) ht).trans hv.scanline
  case nmiEdge => exact (congrArg (·.ppu.nmiEdge) ht).trans hv.nmiEdge
  case buttons => exact (congrArg (·.joy.buttons) ht).trans hv.buttons
  case frames => exact (congrArg State.frames ht).trans hv.frames
  case devices => exact congrArg (fun d : Devices => { d with fault := some k }) hu.stored.devices_eq

/-! ## The fetch -/

/-! A run of one or two reads, as the fetch makes them. -/

section
variable {addr : Addr} {s t : State}

theorem busRead_of_run {b : Byte} (h : readRun addr 1 s = .ok [b] t) : busRead addr s = .ok b t := by
  obtain ⟨b', u, hb, h⟩ := bind_eq_ok.mp h
  cases h
  exact hb

theorem busRead_of_run_error {k : FaultKind} (h : readRun addr 1 s = .error k t) : busRead addr s = .error k t := by
  rcases bind_eq_error.mp h with h | ⟨b, u, -, h⟩
  · exact h
  · cases h

theorem read16_of_run {l h : Byte} (hrun : readRun addr 2 s = .ok [l, h] t) : read16 addr s = .ok (w16 h l) t := by
  obtain ⟨l', u, hl, hrun⟩ := bind_eq_ok.mp hrun
  obtain ⟨bs, v, hh, hrun⟩ := bind_eq_ok.mp hrun
  cases hrun
  unfold read16
  rw [bind_of_ok hl, bind_of_ok (busRead_of_run hh)]
  rfl

theorem read16_of_run_error {k : FaultKind} (hrun : readRun addr 2 s = .error k t) : read16 addr s = .error k t := by
  unfold read16
  rcases bind_eq_error.mp hrun with hl | ⟨l, u, hl, hrun⟩
  · rw [bind_of_error hl]
  · rcases bind_eq_error.mp hrun with hh | ⟨bs, v, -, hrun⟩
    · rw [bind_of_ok hl, bind_of_error (busRead_of_run_error hh)]
    · cases hrun

end

/-- Past the opcode check, a fetch is the run of the operand bytes after the opcode byte (R82, R196). -/
theorem fetch_of_run {s u t : State} {op : Byte} {operands : List Byte} {i : Instr}
    (hdec : decode (op :: operands) = .ok (i, [])) (hx : executable s.launch.unstable op = true)
    (hread : busRead s.pc s = .ok op u) :
    (readRun (s.pc + 1) operands.length (u.setPc (s.pc + 1)) = .ok operands t → fetch s = .ok i t) ∧
      ∀ k, readRun (s.pc + 1) operands.length (u.setPc (s.pc + 1)) = .error k t → fetch s = .error k t := by
  have hlaunch : u.launch = s.launch := ((busRead_keeps s.pc).ok hread).launch
  have hcheck : requireExecutable op (u.setPc (s.pc + 1)) = .ok () (u.setPc (s.pc + 1)) := by
    unfold requireExecutable
    rw [State.setPc_launch, hlaunch, hx]
    rfl
  obtain ⟨op', hop, hbytes⟩ := bytes_of_decode hdec
  rw [List.append_nil] at hbytes
  injection hbytes with hop' hoperands
  subst hop' hoperands
  have hc := entryOf_covers hop
  have hm := entryOf_makes op
  unfold fetch
  rw [getS_bind, bind_of_ok hread, setS_bind, bind_of_ok hcheck]
  cases e : entryOf op with
  | f1 j =>
    rw [e] at hc hm
    obtain rfl : j = i := hc
    obtain ⟨-, hb, -⟩ := hm
    rw [hb]
    exact ⟨fun hrun => by cases hrun; rfl, fun k hrun => by cases hrun⟩
  | f2 f =>
    rw [e] at hc hm
    obtain ⟨b, rfl⟩ := hc
    obtain ⟨-, hb, -⟩ := hm b
    rw [hb]
    exact ⟨fun hrun => bind_of_ok (busRead_of_run hrun), fun k hrun => bind_of_error (busRead_of_run_error hrun)⟩
  | f3 f =>
    rw [e] at hc hm
    obtain ⟨w, rfl⟩ := hc
    obtain ⟨-, hb, -⟩ := hm w
    rw [hb]
    refine ⟨fun hrun => ?_, fun k hrun => bind_of_error (read16_of_run_error hrun)⟩
    have hword := read16_of_run hrun
    rw [w16_hi_lo] at hword
    exact bind_of_ok hword

/-- A fetch that answers goes on to the instruction. -/
theorem step_of_fetch_ok {s t : State} {i : Instr} (hf : s.fault = none) (hn : s.ppu.nmiEdge = false)
    (h : fetch s = .ok i t) : step s = exec i t := by
  rcases step_after_poll hf (pollNmi_none hn) with ⟨j, u, hfetch, hstep⟩ | ⟨k, u, hfetch, -⟩
  · rw [h] at hfetch
    cases hfetch
    exact hstep
  · rw [h] at hfetch
    cases hfetch

/-- An opcode read that faults is the fetch's fault. -/
theorem fetch_of_read_error {s u : State} {k : FaultKind} (h : busRead s.pc s = .error k u) :
    fetch s = .error k u := by
  unfold fetch
  rw [getS_bind, bind_of_error h]

/-- Plain bytes that decode to `i` and pass the opcode check are fetched without an effect. -/
theorem fetch_of_peek {s : State} {op : Byte} {operands : List Byte} {i : Instr}
    (hdec : decode (op :: operands) = .ok (i, [])) (hx : executable s.launch.unstable op = true)
    (hop : s.peek s.pc = some op)
    (hoperands : ∀ j < operands.length, s.peek (s.pc + 1 + BitVec.ofNat 16 j) = operands[j]?) :
    fetch s = .ok i (s.setPc (s.pc + 1)) := by
  have hpeek : ∀ j < operands.length, (s.setPc (s.pc + 1)).peek (s.pc + 1 + BitVec.ofNat 16 j) =
      some (operands.getD j 0) := by
    intro j hj
    rw [List.getD_eq_getElem _ _ hj]
    exact (hoperands j hj).trans (List.getElem?_eq_getElem hj)
  have hrun := readRun_of_peek hpeek
  have hbytes : (List.range operands.length).map (operands.getD · 0) = operands :=
    List.ext_getElem (by simp) fun j _ hj => by simp [hj]
  rw [hbytes] at hrun
  exact (fetch_of_run hdec hx (busRead_of_peek hop)).1 hrun

/-- Only JAM has a JAM byte (R105). -/
theorem eq_jam_of_opcode {i : Instr} {op : Byte} (hop : i.opcode = some op) (hjam : op ∈ jamBytes) :
    i = .jam op := by
  by_contra hne
  refine opcode_jam hop (fun o ho => ?_) hjam
  subst ho
  obtain ⟨-, rfl⟩ := carried_eq_some.mp hop
  exact hne rfl

/-- Settles O5: the fetch is one run of reads (`fetch_of_run`); a byte that fails the opcode check faults alike in
the fetch and in the meaning of its instruction (O9). -/
theorem stepRunsTheDecodedInstruction : Obligations.StepRunsTheDecodedInstruction := by
  refine ⟨fun s bytes i hf hn hdec hpeek => ?plain, fun s u t op operands i hf hn hdec hx hread => ⟨fun hrun => ?run,
    fun k hrun => ?operand⟩, fun s u k hf hn hread => ?opcode⟩
  case plain =>
    obtain ⟨op, hop, rfl⟩ := bytes_of_decode hdec
    have hhead : s.peek s.pc = some op := by simpa using hpeek 0 (Nat.succ_pos _)
    have htail : ∀ j < (i.operandBytes ++ []).length,
        s.peek (s.pc + 1 + BitVec.ofNat 16 j) = (i.operandBytes ++ [])[j]? :=
      fun j hj => add_ofNat_succ s.pc j ▸ hpeek (j + 1) (Nat.succ_lt_succ hj)
    cases hx : executable s.launch.unstable op with
    | true => exact step_of_fetch_ok hf hn (fetch_of_peek hdec hx hhead htail)
    | false =>
      have hbyte := of_not_executable hx
      have hstep := unmappedOpcodeFaults.1 s s op hf hn (busRead_of_peek hhead) hbyte
      have hexec := unmappedOpcodeFaults.2 i (s.setPc (s.pc + 1)) op hop (hbyte.imp_left (eq_jam_of_opcode hop))
      rw [hstep, hexec, State.setPc_pc, add_sub_cancel_right]
  case run => exact step_of_fetch_ok hf hn ((fetch_of_run hdec hx hread).1 hrun)
  case operand =>
    exact ⟨step_of_fetch_error hf hn ((fetch_of_run hdec hx hread).2 k hrun), ((readRun_keeps _ _).error hrun).pc⟩
  case opcode => exact ⟨step_of_fetch_error hf hn (fetch_of_read_error hread), ((busRead_keeps _).error hread).pc⟩

end Sys2Proof.Machine

/-! Proof of the statement about the state a run starts from (70_reset_and_hazards.md). -/

namespace Sys2Proof.Machine

/-- `reset()` writes `P = $24`, with B clear and U set, whatever stood there before (R215). -/
theorem resetCpu_statusOk (s : State) : s.resetCpu.StatusOk := by
  show (0x24 : Byte).getLsbD 4 = false ∧ (0x24 : Byte).getLsbD 5 = true
  decide

/-- Power-on puts the counters, the cursor and the fault in range; the memories are the given ones (R214). -/
theorem initial_inv (l : Launch) {m : MemoryInit} (hm : m.ok) : (State.initial l m).Inv where
  status := resetCpu_statusOk _
  clock := ⟨Nat.succ_pos _, Nat.succ_pos _⟩
  cursor := Nat.zero_le _
  memories := hm
  noFault := rfl

/-- A run starts at cycle 0 with the PPU on the first dot of the frame (R214, R217). -/
theorem initial_inPhase (l : Launch) (m : MemoryInit) : (State.initial l m).InPhase :=
  initial_position l m

/-- Settles O11: the invariant field by field, and position 0 at cycle 0. -/
theorem initialStateMeetsTheInvariant : Obligations.InitialStateMeetsTheInvariant :=
  fun l _ hm => ⟨initial_inv l hm, initial_inPhase l _⟩

end Sys2Proof.Machine
